-- ==== Sys2Proof/Word.lean ====
section
/-! DEFINITION. The word types of VQTC and the two readings of a register (00_scope.md R10, R11). -/

namespace Sys2Proof

/-- A register, a command word, an address or the data of a 32-bit transaction (R20, R66). -/
abbrev Word := BitVec 32

/-- A byte of a memory, a pixel byte or a palette index (R60). -/
abbrev Byte := BitVec 8

/-- `s32(v)` of R11: a register read as a two's-complement integer. -/
abbrev s32 (v : Word) : Int := v.toInt

/-- `u32(v)` of R11: a register read as an unsigned integer. -/
abbrev u32 (v : Word) : Nat := v.toNat

end Sys2Proof
end

