-- ==== Sys2Proof/Config.lean ====
section
/-! DEFINITION. The constants of the on-disk format (00_scope.md R4 to R7), the parameters this hardware takes (R8)
and the host's address map (20_memory.md R61). The parameters of R8 stand at the values R8 gives (log entry 11). -/

namespace Sys2Proof.Config

/-- Pixels on a side of a frame (R4). -/
@[simp] def frameDim : Nat := 1536
/-- Pixels on a side of a sub-frame (R4). -/
@[simp] def subframeDim : Nat := 256
/-- Pixels on a side of a code block (R4). -/
@[simp] def codeBlockDim : Nat := 4
/-- Bytes of a compressed sub-frame (R4). -/
@[simp] def compressedBytes : Nat := 6144
/-- Sub-frames on a side of a frame (R5). -/
@[simp] def subsPerFrame : Nat := 6
/-- Bytes of one band of a decoded block (R5). -/
@[simp] def blkPlane : Nat := 65536
/-- Parallel tables of a codebook (R6). -/
@[simp] def cbTables : Nat := 4
/-- Bytes of one codebook table (R6, resolved by 90_conflicts.md C1). -/
@[simp] def cbTableBytes : Nat := 16384
/-- Entries of a palette (R7). -/
@[simp] def palEntries : Nat := 256

/-- `TILE_CAP`, the size of the output tile memory (R8). -/
@[simp] def tileCap : Nat := 8388608
/-- `TAG_GRAY`, the catalog tag that resolves to Grayscale (R8). -/
def tagGray : Word := 1
/-- `TAG_RGB`, the catalog tag that resolves to RGB (R8). -/
def tagRgb : Word := 3
/-- `ID_VALUE`, what the ID register reads (R8, R21). -/
def idValue : Word := 0x56510001
/-- Reset value of the BLANK register (R8, R30). -/
def blankReset : Byte := 0x00

/-- First host offset of space CB (R61). -/
@[simp] def cbBase : Nat := 0x10000
/-- First host offset of space PAL (R61). -/
@[simp] def palBase : Nat := 0x20000
/-- First host offset of space CBUF (R61). -/
@[simp] def cbufBase : Nat := 0x30000
/-- First host offset of space BLK (R61). -/
@[simp] def blkBase : Nat := 0x40000
/-- First host offset of space TILE (R61). -/
@[simp] def tileBase : Nat := 0x800000
/-- Size in bytes of space CB (R60). -/
@[simp] def cbSize : Nat := 65536
/-- Size in bytes of space PAL (R60). -/
@[simp] def palSize : Nat := 1024
/-- Size in bytes of space CBUF (R60). -/
@[simp] def cbufSize : Nat := 6144
/-- Size in bytes of space BLK (R60). -/
@[simp] def blkSize : Nat := 196608

end Sys2Proof.Config
end

