-- ==== Sys2Proof/Syntax.lean ====
section
/-! DEFINITION. The nine commands of command set VQTC-1 (30_encoding.md R93), one constructor per row of the opcode
table. All operands but the level of GETTILE are registers the command names implicitly (R91, R92). -/

namespace Sys2Proof

/-- A command of VQTC. -/
inductive Instr where
  /-- OPEN, op 0x01 (42_facade.md R161). -/
  | openSource
  /-- CLOSE, op 0x02 (R164). -/
  | closeSource
  /-- GETTILE, op 0x03, with `imm8`, the level, an unsigned integer 0 to 255 (R165, R92). -/
  | getTile (level : Nat)
  /-- GETIMAGERECT, op 0x04 (R166). -/
  | getImageRect
  /-- DECODE, op 0x10 (40_decode.md R110). -/
  | decode
  /-- FRANGE, op 0x11 (41_compositor.md R132). -/
  | frange
  /-- SRANGE, op 0x12 (R136). -/
  | srange
  /-- TFILL, op 0x13 (R138). -/
  | tfill
  /-- BLKCOPY, op 0x14 (R139). -/
  | blkcopy
deriving DecidableEq, Repr

end Sys2Proof
end

