-- ==== Sys2Proof/WellFormed.lean ====
section
/-! DEFINITION. Which terms of `Instr` stand for a command word: the level fits `imm8` (30_encoding.md R92). -/

namespace Sys2Proof

/-- The one operand a command word carries, the level of GETTILE, is an unsigned 8-bit integer (R92). -/
def WellFormed : Instr → Bool
  | .getTile level => level < 256
  | .openSource => true
  | .closeSource => true
  | .getImageRect => true
  | .decode => true
  | .frange => true
  | .srange => true
  | .tfill => true
  | .blkcopy => true

end Sys2Proof
end

