-- ==== Sys2Proof/Decode.lean ====
section
/-! DEFINITION. The decoder from command word to command, total on all words (30_encoding.md R90 to R95, R99), the
encoder, and the opcode table R93 as a list of rows. -/

namespace Sys2Proof

/-- Why a word is illegal (R94): the three cases the rule lists, in the order R99 tests them. -/
inductive Illegal where
  /-- Bits [23:8] are not zero. -/
  | zero16
  /-- Bits [7:0] are not zero and the opcode is not GETTILE's. -/
  | imm8
  /-- No command has this opcode. -/
  | opcode
deriving DecidableEq, Repr

/-- What a command word decodes to. -/
inductive Decoded where
  | command (i : Instr)
  | illegal (why : Illegal)
deriving DecidableEq, Repr

/-- Field `op` of format C, bits [31:24] (R91). -/
def opField (w : Word) : BitVec 8 := w.extractLsb' 24 8

/-- Field `zero16` of format C, bits [23:8] (R91). -/
def zeroField (w : Word) : BitVec 16 := w.extractLsb' 8 16

/-- Field `imm8` of format C, bits [7:0] (R91, R92). -/
def immField (w : Word) : BitVec 8 := w.extractLsb' 0 8

/-- The decoding procedure of R99. -/
def decode (w : Word) : Decoded :=
  if zeroField w ≠ 0 then .illegal .zero16
  else if opField w = 0x03 then .command (.getTile (immField w).toNat)
  else if immField w ≠ 0 then .illegal .imm8
  else if opField w = 0x01 then .command .openSource
  else if opField w = 0x02 then .command .closeSource
  else if opField w = 0x04 then .command .getImageRect
  else if opField w = 0x10 then .command .decode
  else if opField w = 0x11 then .command .frange
  else if opField w = 0x12 then .command .srange
  else if opField w = 0x13 then .command .tfill
  else if opField w = 0x14 then .command .blkcopy
  else .illegal .opcode

/-- `op(M)` of R99: the opcode of a command (R93). -/
def opcodeOf : Instr → BitVec 8
  | .openSource => 0x01
  | .closeSource => 0x02
  | .getTile _ => 0x03
  | .getImageRect => 0x04
  | .decode => 0x10
  | .frange => 0x11
  | .srange => 0x12
  | .tfill => 0x13
  | .blkcopy => 0x14

/-- The immediate of a command (R92): the level of GETTILE, zero for the others (R91). A level above 255 is ill-formed; log
entry 21 says what its word is. -/
def immOf : Instr → BitVec 8
  | .getTile level => BitVec.ofNat 8 level
  | .openSource => 0
  | .closeSource => 0
  | .getImageRect => 0
  | .decode => 0
  | .frange => 0
  | .srange => 0
  | .tfill => 0
  | .blkcopy => 0

/-- The command word of a command: format C of R91, written as R99 writes its inverse. -/
def encode (i : Instr) : Word := opcodeOf i ++ (0 : BitVec 16) ++ immOf i

/-- A row of the opcode table R93. -/
structure Row where
  mnemonic : String
  mask : Word
  pattern : Word
deriving DecidableEq, Repr

/-- The opcode table of R93, in its order. -/
def opcodeTable : List Row :=
  [⟨"OPEN", 0xFFFFFFFF, 0x01000000⟩,
   ⟨"CLOSE", 0xFFFFFFFF, 0x02000000⟩,
   ⟨"GETTILE", 0xFFFFFF00, 0x03000000⟩,
   ⟨"GETIMAGERECT", 0xFFFFFFFF, 0x04000000⟩,
   ⟨"DECODE", 0xFFFFFFFF, 0x10000000⟩,
   ⟨"FRANGE", 0xFFFFFFFF, 0x11000000⟩,
   ⟨"SRANGE", 0xFFFFFFFF, 0x12000000⟩,
   ⟨"TFILL", 0xFFFFFFFF, 0x13000000⟩,
   ⟨"BLKCOPY", 0xFFFFFFFF, 0x14000000⟩]

/-- `w` selects the command of a row (R93): its masked bits are the row's pattern. -/
def Row.selects (r : Row) (w : Word) : Bool := w &&& r.mask == r.pattern

/-- The row of the opcode table a command belongs to, by its place in R93. -/
def rowIndex : Instr → Nat
  | .openSource => 0
  | .closeSource => 1
  | .getTile _ => 2
  | .getImageRect => 3
  | .decode => 4
  | .frange => 5
  | .srange => 6
  | .tfill => 7
  | .blkcopy => 8

/-- The instruction the decoder reads from a word given as the opcode table numbers its bits. A command word is the
data of one 32-bit write (R22, R90), so there is one word and no byte order to undo; bits above `nbits` are zero. -/
def decodeTableWord (nbits w : Nat) : Option Instr :=
  match decode (BitVec.ofNat 32 (w % 2 ^ nbits)) with
  | .command i => some i
  | .illegal _ => none

end Sys2Proof
end

