-- ==== Sys2Proof/Machine/State.lean ====
section
/-! DEFINITION. The state of one VQTC, plain data: the registers of 10_state.md R20, the memories of R40 to R44, and the
model's own input and record fields. The reset state (R49) and the reasons a step can stop. -/

namespace Sys2Proof.Machine

/-- `STATUS.STATE`, the facade's state (R23, R24). The fourth encoding never occurs. -/
inductive FacadeState where
  | closed
  | opening
  | opened
deriving DecidableEq, Repr

/-- `STATUS.PRODUCT`, the ProductType (R23, R25). The fourth encoding never occurs. -/
inductive ProductType where
  | unknown
  | grayscale
  | rgb
deriving DecidableEq, Repr

/-- `STATUS.ERR`, the error codes by their names in 60_exceptions.md R201. Codes 10 to 255 never occur. -/
inductive ErrCode where
  /-- 0, E_OK. -/
  | ok
  /-- 1, E_CONFIG. -/
  | config
  /-- 2, E_NOTOPEN. -/
  | notOpen
  /-- 3, E_FRAMEUNAVAIL: reserved, never written (R203). -/
  | frameUnavail
  /-- 4, E_CORRUPT: reserved, never written (R203). -/
  | corrupt
  /-- 5, E_ILLEGAL. -/
  | illegal
  /-- 6, E_BADSTATE. -/
  | badState
  /-- 7, E_NOOVERVIEW. -/
  | noOverview
  /-- 8, E_TILECAP. -/
  | tileCap
  /-- 9, E_BADARG. -/
  | badArg
deriving DecidableEq, Repr

/-- The registers of R20 that store something. ID is a constant and CMD stores nothing (R21, R22). Reserved bits are
not stored: they read zero (R23, R27, R30). -/
structure Regs where
  /-- STATUS[1:0] (R24). -/
  state : FacadeState
  /-- STATUS[3:2] (R25). -/
  product : ProductType
  /-- STATUS[15:8] (R26). -/
  err : ErrCode
  /-- FLAGS[0] (R27). -/
  empty : Bool
  /-- HANDLE (R28). -/
  handle : Word
  /-- BLANK[7:0] (R30). -/
  blank : Byte
  /-- RECT_X0, signed (R31). -/
  rectX0 : Word
  /-- RECT_Y0, signed (R31). -/
  rectY0 : Word
  /-- RECT_W (R31). -/
  rectW : Word
  /-- RECT_H (R31). -/
  rectH : Word
  /-- CUR_FR (R32). -/
  curFr : Word
  /-- CUR_FC (R32). -/
  curFc : Word
  /-- CUR_SR (R32). -/
  curSr : Word
  /-- CUR_SC (R32). -/
  curSc : Word
  /-- IMG_W (R33). -/
  imgW : Word
  /-- IMG_H (R33). -/
  imgH : Word
  /-- FRAMES_H (R33). -/
  framesH : Word
  /-- FRAMES_V (R33). -/
  framesV : Word
  /-- IR_X0 (R34). -/
  irX0 : Word
  /-- IR_Y0 (R34). -/
  irY0 : Word
  /-- IR_W (R34). -/
  irW : Word
  /-- IR_H (R34). -/
  irH : Word
  /-- FR0 (R35). -/
  fr0 : Word
  /-- FR1 (R35). -/
  fr1 : Word
  /-- FC0 (R35). -/
  fc0 : Word
  /-- FC1 (R35). -/
  fc1 : Word
  /-- SR0 (R36). -/
  sr0 : Word
  /-- SR1 (R36). -/
  sr1 : Word
  /-- SC0 (R36). -/
  sc0 : Word
  /-- SC1 (R36). -/
  sc1 : Word
  /-- DISK_ROW (R37). -/
  diskRow : Word
  /-- FOPEN_CNT (R38). -/
  fopenCnt : Word
deriving DecidableEq, Repr

/-- Every register at its reset value (R49, R231). -/
def Regs.reset : Regs where
  state := .closed
  product := .unknown
  err := .ok
  empty := false
  handle := 0
  blank := Config.blankReset
  rectX0 := 0
  rectY0 := 0
  rectW := 0
  rectH := 0
  curFr := 0
  curFc := 0
  curSr := 0
  curSc := 0
  imgW := 0
  imgH := 0
  framesH := 0
  framesV := 0
  irX0 := 0
  irY0 := 0
  irW := 0
  irH := 0
  fr0 := 0
  fr1 := 0
  fc0 := 0
  fc1 := 0
  sr0 := 0
  sr1 := 0
  sc0 := 0
  sc1 := 0
  diskRow := 0
  fopenCnt := 0

/-- The five memories CB, PAL, CBUF, BLK and TILE (R40 to R44) in one list keyed by the host's byte offset
(20_memory.md R61). Canonical form: offsets strictly rising. A byte that is not listed was never written since
power-up and has no value (70_reset_and_hazards.md R232; log entry 4). -/
structure Memory where
  cells : List Host.Cell
deriving DecidableEq, Repr

/-- A request on a port (43_external_ports.md R181 to R185), with its fields at their widths. -/
inductive PortReq where
  /-- CAT.Lookup (R181). -/
  | catLookup (handle : Word)
  /-- LOC.Exists (R182): the row counted from the top. -/
  | locExists (frameRow frameCol : BitVec 16)
  /-- FRM.Open (R183): the row in the on-disk convention. -/
  | frmOpen (diskRow frameCol : BitVec 16)
  /-- FRM.Fetch (R184). -/
  | frmFetch (diskRow frameCol : BitVec 16) (subRow subCol : BitVec 3)
  /-- FRM.Release (R185): it has no response. -/
  | frmRelease (diskRow frameCol : BitVec 16)
deriving DecidableEq, Repr

/-- A block of bytes in an answer of the environment: `cells` lists some bytes by index, every other byte is `fill`.
Any bytes of any fixed width can be written so (log entry 16). -/
structure Blob where
  fill : Byte
  cells : List Host.Cell
deriving DecidableEq, Repr

/-- Response of CAT.Lookup (R181). -/
structure CatAnswer where
  ok : Bool
  tag : Word
  framesH : BitVec 16
  framesV : BitVec 16
deriving DecidableEq, Repr

/-- Response of FRM.Open (R183): byte `k` of table `t` is byte `t*16384 + k` of `cb`, byte `b` of palette entry `idx`
is byte `idx*4 + b` of `pal`. -/
structure OpenAnswer where
  ok : Bool
  cb : Blob
  pal : Blob
deriving DecidableEq, Repr

/-- Response of FRM.Fetch (R184): byte `p` of the compressed sub-frame is byte `p` of `data`. -/
structure FetchAnswer where
  ok : Bool
  data : Blob
deriving DecidableEq, Repr

/-- A total function from requests to answers, as data: the first row with the key, else `other`. -/
structure Table (κ α : Type) where
  rows : List (κ × α)
  other : α
deriving DecidableEq, Repr

/-- The environment behind the ports: the four total functions of R187, and the requests it never answers (R189).
It is an input of the model and no state of VQTC (10_state.md R47; log entry 2). -/
structure Env where
  lookup : Table Word CatAnswer
  present : Table (BitVec 16 × BitVec 16) Bool
  frame : Table (BitVec 16 × BitVec 16) OpenAnswer
  cell : Table (BitVec 16 × BitVec 16 × BitVec 3 × BitVec 3) FetchAnswer
  silent : List PortReq
deriving DecidableEq, Repr

/-- The environment of `State.reset`: it answers every request, and always no (log entry 3). -/
def Env.refusing : Env where
  lookup := { rows := [], other := { ok := false, tag := 0, framesH := 0, framesV := 0 } }
  present := { rows := [], other := false }
  frame := { rows := [], other := { ok := false, cb := ⟨0, []⟩, pal := ⟨0, []⟩ } }
  cell := { rows := [], other := { ok := false, data := ⟨0, []⟩ } }
  silent := []

/-- The direction of a bus transaction. -/
inductive Dir where
  | read
  | write
deriving DecidableEq, Repr

/-- A host bus transaction (20_memory.md R66): its width in bits, its address as an offset from BASE (R61), and, for
a write, its data (a byte write uses bits [7:0]). -/
structure Txn where
  dir : Dir
  width : Nat
  addr : Word
  data : Word
deriving DecidableEq, Repr

/-- The bus response to a transaction (R66, 60_exceptions.md R213). -/
inductive BusResp where
  | okay
  | error
deriving DecidableEq, Repr

/-- What the host receives: a response and, for a read, data, which is 0 on ERROR (R66). -/
structure BusAnswer where
  resp : BusResp
  data : Word
deriving DecidableEq, Repr

/-- What can happen to the block from outside (log entries 1, 8, 18). -/
inductive Event where
  /-- The host makes a bus transaction (R66). -/
  | bus (t : Txn)
  /-- The reset input is asserted and released while no command runs (70_reset_and_hazards.md R230). -/
  | reset
  /-- The host writes the word to CMD and reset is asserted when that many acts of the command, byte writes to a
  memory and port requests, have happened; all of them if the command has no more (R230). -/
  | resetDuring (w : Word) (acts : Nat)
  /-- The block is powered up and reset: every byte of the memories loses its value (R232). -/
  | powerUp
  /-- Between two transactions the environment becomes another one (43_external_ports.md R187). -/
  | envChange (e : Env)
deriving DecidableEq, Repr

/-- An act of the engine that something outside its registers can see: a byte written to a memory, at a host offset,
or a request issued on a port. -/
inductive Act where
  | write (addr : Nat) (value : Byte)
  | request (r : PortReq)
deriving DecidableEq, Repr

/-- The machine. `reg` and `mem` are the state of VQTC (10_state.md, opening); the other fields are the model's own:
its input and its record of what happened (R47). -/
structure State where
  /-- The registers (R20 to R38). -/
  reg : Regs
  /-- The five memories (R40 to R44). -/
  mem : Memory
  /-- The environment behind the ports (43_external_ports.md R187). -/
  env : Env
  /-- What the outside world does next, first event first (R47 (3)). -/
  inbox : List Event
  /-- The answer to the last event served, if that was a transaction the block acknowledged. -/
  answer : Option BusAnswer
  /-- The acts of all commands so far, newest first (R47 (4)). -/
  hist : List Act
deriving DecidableEq, Repr

/-- The machine after power-up and reset (R49, R230 to R232): every register at its reset value, no byte of a memory
ever written, and nothing asked of it yet. -/
def State.reset : State where
  reg := Regs.reset
  mem := ⟨[]⟩
  env := Env.refusing
  inbox := []
  answer := none
  hist := []

/-- Why a step stops. All three are safe: the model stops where the hardware would go on or hang. -/
inductive Fault where
  /-- Raised when a host read, DECODE or BLKCOPY consumes a byte that nothing has written since power-up, at the host
  offset given (70_reset_and_hazards.md R232; log entry 4). Safe: no value is invented. -/
  | unwrittenByte (addr : Nat)
  /-- Raised when OPEN or GETTILE waits for the answer to a request the environment never answers: the command never
  ends (43_external_ports.md R189; log entry 9). Safe: a stuck state. -/
  | portHang (r : PortReq)
  /-- Raised when a command needs `bands(Unknown)`, which is not defined (00_scope.md R13), in a state that is Open
  with no product; no run reaches one (log entry 10). Safe. -/
  | bandsUndefined
deriving DecidableEq, Repr

/-- Why a step has no meaning. No arm of `exec` uses this: every command of the opcode table has its meaning. -/
inductive Refusal where
  /-- Raised for a command that has no meaning yet, by its mnemonic. Safe. -/
  | notModelled (mnemonic : String)
deriving DecidableEq, Repr

end Sys2Proof.Machine
end

