-- ==== Sys2Proof/Machine/Ops.lean ====
section
/-! DEFINITION. The named operations: bytes of the memories, loops, the two ways a command ends (60_exceptions.md R204),
reset, and a command cut short by reset (70_reset_and_hazards.md R230). -/

namespace Sys2Proof.Machine

/-! ### The memories as one canonical list -/

/-- The byte a list of cells holds at an offset, if it lists one. -/
def readCells : List Host.Cell → Nat → Option Byte
  | [], _ => none
  | (k, v) :: rest, a => if k = a then some v else readCells rest a

/-- A list of cells with one byte written, kept strictly rising. -/
def writeCells : List Host.Cell → Nat → Byte → List Host.Cell
  | [], a, v => [(a, v)]
  | (k, w) :: rest, a, v =>
    if a < k then (a, v) :: (k, w) :: rest
    else if a = k then (a, v) :: rest
    else (k, w) :: writeCells rest a v

/-- The offsets of a list of cells rise strictly. -/
def risingCells : List Host.Cell → Bool
  | [] => true
  | [_] => true
  | c :: d :: rest => decide (c.1 < d.1) && risingCells (d :: rest)

/-- The byte at a host offset; none if nothing has written it since power-up (R232). -/
def Memory.read (m : Memory) (a : Nat) : Option Byte := readCells m.cells a

/-- The memory with one byte written. -/
def Memory.write (m : Memory) (a : Nat) (v : Byte) : Memory := ⟨writeCells m.cells a v⟩

/-- The canonical form of a memory: offsets strictly rising. An unlisted byte has no value, so no entry can repeat
what an unlisted offset reads as. -/
def Memory.wf (m : Memory) : Bool := risingCells m.cells

/-- The five memories (20_memory.md R60). -/
inductive Space where
  | cb
  | pal
  | cbuf
  | blk
  | tile
deriving DecidableEq, Repr

/-- First host offset of a space (R61). -/
def Space.base : Space → Nat
  | .cb => Config.cbBase
  | .pal => Config.palBase
  | .cbuf => Config.cbufBase
  | .blk => Config.blkBase
  | .tile => Config.tileBase

/-- Size of a space in bytes (R60). -/
def Space.size : Space → Nat
  | .cb => Config.cbSize
  | .pal => Config.palSize
  | .cbuf => Config.cbufSize
  | .blk => Config.blkSize
  | .tile => Config.tileCap

/-- A host offset lies in a space (R61). -/
def Space.covers (sp : Space) (a : Nat) : Bool := decide (sp.base ≤ a) && decide (a < sp.base + sp.size)

/-- A host offset lies in one of the five memories (R61). -/
def isMemory (a : Nat) : Bool :=
  Space.cb.covers a || Space.pal.covers a || Space.cbuf.covers a || Space.blk.covers a || Space.tile.covers a

/-! ### Running the engine -/

/-- A command that stops before its end: why, and the state it had reached. -/
structure Stop where
  why : Fault
  state : State
deriving DecidableEq, Repr

/-- The result of a piece of a command: a value, or a stop. -/
abbrev Run (α : Type) := Except Stop α

/-- `MemRead(space, off, 1)` of 00_scope.md R12, by the engine. A byte that nothing has written stops it (R232). -/
def memRead (sp : Space) (off : Nat) (s : State) : Run Byte :=
  match s.mem.read (sp.base + off) with
  | some v => .ok v
  | none => .error ⟨.unwrittenByte (sp.base + off), s⟩

/-- `MemWrite(space, off, 1, v)` of R12, by the engine; the write is recorded. -/
def memWrite (sp : Space) (off : Nat) (v : Byte) (s : State) : State :=
  { s with mem := s.mem.write (sp.base + off) v, hist := .write (sp.base + off) v :: s.hist }

/-- `for v in a..b` of R12. -/
def upTo (a b : Nat) : List Nat := List.range' a (b + 1 - a)

/-- `for v in a..b step s` of R12. -/
def upToBy (a b step : Nat) : List Nat := if a ≤ b then List.range' a ((b - a) / step + 1) step else []

/-- `for v in a..b` of R12, on integers. -/
def upToInt (a b : Int) : List Int := (List.range (b + 1 - a).toNat).map (fun k : Nat => a + (k : Int))

/-- A loop whose body can stop the command. -/
def forEach {α : Type} (xs : List α) (body : α → State → Run State) (s : State) : Run State :=
  match xs with
  | [] => .ok s
  | x :: rest =>
    match body x s with
    | .ok t => forEach rest body t
    | .error e => .error e

/-- A loop whose body cannot stop the command. -/
def sweep {α : Type} (xs : List α) (body : α → State → State) (s : State) : State :=
  match xs with
  | [] => s
  | x :: rest => sweep rest body (body x s)

/-! ### How a command ends (60_exceptions.md R204) -/

/-- `raise Err(code)`: the one operation by which a command error is taken. It records the code in STATUS.ERR and
changes nothing else; there is no handler to go to and nothing to return from (R204, R208). -/
def raiseErr (e : ErrCode) (s : State) : State := { s with reg := { s.reg with err := e } }

/-- `done`: the command ends with success (R204). -/
def done (s : State) : State := { s with reg := { s.reg with err := .ok } }

/-- What the step of a command answers: its last state, or the fault that stopped it. -/
def conclude : Run State → Host.Outcome State Fault Refusal
  | .ok s => .next s
  | .error e => .fault e.why

/-- The state check of every command but OPEN, the first check after legality (R206): outside Open the command ends
with E_NOTOPEN. -/
def whenOpen (s : State) (body : State → Run State) : Run State :=
  if s.reg.state = .opened then body s else .ok (raiseErr .notOpen s)

/-! ### Reset (70_reset_and_hazards.md) -/

/-- Reset: every register takes its reset value, the memories keep their bytes (R230 to R232). -/
def resetState (s : State) : State := { s with reg := Regs.reset, answer := none }

/-- Power-up and reset: no byte of a memory has a value any more (R232). -/
def powerUpState (s : State) : State := resetState { s with mem := ⟨[]⟩ }

/-- The acts a piece of a command added to the record, oldest first. -/
def actsBetween (before after : State) : List Act :=
  (after.hist.take (after.hist.length - before.hist.length)).reverse

/-- A memory after the byte writes among some acts, done in order. -/
def replay (acts : List Act) (m : Memory) : Memory :=
  match acts with
  | [] => m
  | .write a v :: rest => replay rest (m.write a v)
  | .request _ :: rest => replay rest m

/-- The state after reset when exactly these acts of a command begun in `s` had happened (R230): their effects on
the memories stay, the registers take their reset values, a request still waiting is dropped. -/
def cutAfter (acts : List Act) (s : State) : State :=
  resetState { s with mem := replay acts s.mem, hist := acts.reverse ++ s.hist }

/-- A command begun in `s` whose whole run would be `r`, abandoned by reset after `n` acts (R230). A command that
waits for ever on a port is ended by reset. One that stops for a byte without a value stops here too, unless reset
came before it consumed that byte. -/
def abandon (n : Nat) (s : State) (r : Run State) : Host.Outcome State Fault Refusal :=
  match r with
  | .ok t => .next (cutAfter ((actsBetween s t).take n) s)
  | .error ⟨.portHang _, t⟩ => .next (cutAfter ((actsBetween s t).take n) s)
  | .error ⟨why, t⟩ =>
    if n ≤ (actsBetween s t).length then .next (cutAfter ((actsBetween s t).take n) s) else .fault why

end Sys2Proof.Machine
end

