-- ==== Sys2Proof/Machine/Operands.lean ====
section
/-! DEFINITION. The operands the commands form from registers: the band count, the requested rectangle, the clip
rectangle, the covered sub-frames of a frame, the origin of a block (00_scope.md R13 to R16, 41_compositor.md R131 to R137). -/

namespace Sys2Proof.Machine

/-- `bands(P)` of R13; not defined for Unknown. -/
def bands : ProductType → Option Nat
  | .unknown => none
  | .grayscale => some 1
  | .rgb => some 3

/-- Evaluate `BANDS` for the rest of a command (R13). -/
def withBands (s : State) (body : Nat → Run State) : Run State :=
  match bands s.reg.product with
  | some n => body n
  | none => .error ⟨.bandsUndefined, s⟩

/-- `X0` of the requested rectangle (R16). -/
def rectLeft (g : Regs) : Int := s32 g.rectX0

/-- `Y0` of the requested rectangle (R16). -/
def rectTop (g : Regs) : Int := s32 g.rectY0

/-- `W` of the requested rectangle (R16). -/
def rectWidth (g : Regs) : Nat := u32 g.rectW

/-- `H` of the requested rectangle (R16). -/
def rectHeight (g : Regs) : Nat := u32 g.rectH

/-- `W * H * BANDS`, the bytes of the output tile, as an exact product (20_memory.md R71). -/
def tileBytes (g : Regs) (n : Nat) : Nat := rectWidth g * rectHeight g * n

/-- A rectangle of pixels by its first and last column and row, both ends inclusive. -/
structure Span where
  x0 : Int
  x1 : Int
  y0 : Int
  y1 : Int
deriving DecidableEq, Repr

/-- No pixel lies in the rectangle (R131, R135). -/
def Span.isEmpty (c : Span) : Bool := decide (c.x1 < c.x0) || decide (c.y1 < c.y0)

/-- The clip rectangle `clip()`: the requested rectangle intersected with the image (R131). -/
def clip (g : Regs) : Span where
  x0 := max (rectLeft g) 0
  x1 := min (rectLeft g + rectWidth g) (u32 g.imgW) - 1
  y0 := max (rectTop g) 0
  y1 := min (rectTop g + rectHeight g) (u32 g.imgH) - 1

/-- The part of the clip rectangle in frame `(fr, fc)`, in absolute pixels (R135). -/
def clipToFrame (c : Span) (fr fc : Nat) : Span where
  x0 := max c.x0 (fc * Config.frameDim : Nat)
  x1 := min c.x1 (fc * Config.frameDim + (Config.frameDim - 1) : Nat)
  y0 := max c.y0 (fr * Config.frameDim : Nat)
  y1 := min c.y1 (fr * Config.frameDim + (Config.frameDim - 1) : Nat)

/-- The frame cell of a pixel coordinate, and the sub-frame cell of a frame-local one: division by a constant, rounded
down (R133). -/
def cellOf (v : Int) (dim : Nat) : Int := v / (dim : Int)

/-- A mathematical integer as a register value (R11). The rules show that what is stored fits (log entry 12). -/
def wordOf (v : Int) : Word := BitVec.ofInt 32 v

/-- A count as a register value (R11). -/
def wordOfNat (v : Nat) : Word := BitVec.ofNat 32 v

/-- `diskRow = (FRAMES_V - 1) - CUR_FR` (R134). -/
def diskRowOf (g : Regs) : Int := ((u32 g.framesV : Int) - 1) - (u32 g.curFr : Int)

/-- The cursor names a frame of the grid (R136). -/
def frameInGrid (g : Regs) : Bool := decide (u32 g.curFr < u32 g.framesV) && decide (u32 g.curFc < u32 g.framesH)

/-- The cursor names a sub-frame of a frame (R139). -/
def subInFrame (g : Regs) : Bool :=
  decide (u32 g.curSr < Config.subsPerFrame) && decide (u32 g.curSc < Config.subsPerFrame)

/-- `bx`, the absolute column of the block of the cursor (R137). -/
def blockLeft (g : Regs) : Int := (u32 g.curFc * Config.frameDim + u32 g.curSc * Config.subframeDim : Nat)

/-- `by`, the absolute row of the block of the cursor (R137). -/
def blockTop (g : Regs) : Int := (u32 g.curFr * Config.frameDim + u32 g.curSr * Config.subframeDim : Nat)

/-- `offset(band, row, col) = band*PLANE + row*STRIDE + col`, the one formula for both ends of the copy (R141). -/
def planar (plane stride band : Nat) (row col : Int) : Nat :=
  ((band * plane : Nat) + row * stride + col).toNat

end Sys2Proof.Machine
end

