-- ==== Sys2Proof/Machine/Ports.lean ====
section
/-! DEFINITION. The port transactions (43_external_ports.md R180 to R189): each request is recorded, waits for its answer,
and answers as the environment says. -/

namespace Sys2Proof.Machine

/-- The answer a table gives to a request (R187). -/
def Table.answer {κ α : Type} [DecidableEq κ] (t : Table κ α) (k : κ) : α := (t.rows.lookup k).getD t.other

/-- Byte `i` of an answer. -/
def Blob.byte (b : Blob) (i : Nat) : Byte := (readCells b.cells i).getD b.fill

/-- Record a request. -/
def note (r : PortReq) (s : State) : State := { s with hist := .request r :: s.hist }

/-- Issue a request and wait for its response (R180). One that the environment never answers holds the command for
ever (R189). -/
def await (r : PortReq) (s : State) : Run State :=
  if r ∈ s.env.silent then .error ⟨.portHang r, note r s⟩ else .ok (note r s)

/-- The 16-bit row or column field of a request (R182 to R185). -/
def cell16 (v : Nat) : BitVec 16 := BitVec.ofNat 16 v

/-- The 3-bit sub-frame field of a request (R184). -/
def cell3 (v : Nat) : BitVec 3 := BitVec.ofNat 3 v

/-- CAT.Lookup (R181). -/
def catLookup (handle : Word) (s : State) : Run (State × CatAnswer) :=
  match await (.catLookup handle) s with
  | .ok t => .ok (t, t.env.lookup.answer handle)
  | .error e => .error e

/-- LOC.Exists (R182). -/
def locExists (fr fc : Nat) (s : State) : Run (State × Bool) :=
  match await (.locExists (cell16 fr) (cell16 fc)) s with
  | .ok t => .ok (t, t.env.present.answer (cell16 fr, cell16 fc))
  | .error e => .error e

/-- FRM.Open (R183). -/
def frmOpen (dr fc : Nat) (s : State) : Run (State × OpenAnswer) :=
  match await (.frmOpen (cell16 dr) (cell16 fc)) s with
  | .ok t => .ok (t, t.env.frame.answer (cell16 dr, cell16 fc))
  | .error e => .error e

/-- FRM.Fetch (R184). -/
def frmFetch (dr fc sr sc : Nat) (s : State) : Run (State × FetchAnswer) :=
  match await (.frmFetch (cell16 dr) (cell16 fc) (cell3 sr) (cell3 sc)) s with
  | .ok t => .ok (t, t.env.cell.answer (cell16 dr, cell16 fc, cell3 sr, cell3 sc))
  | .error e => .error e

/-- FRM.Release: no response, and the engine does not wait (R185). -/
def frmRelease (dr fc : Nat) (s : State) : State := note (.frmRelease (cell16 dr) (cell16 fc)) s

/-- The codebook of an opened frame goes to CB, every byte of it (R183). -/
def loadCodebook (o : OpenAnswer) (s : State) : State :=
  sweep (upTo 0 (Config.cbTables - 1)) (fun t => sweep (upTo 0 (Config.cbTableBytes - 1)) (fun k =>
    memWrite .cb (t * Config.cbTableBytes + k) (o.cb.byte (t * Config.cbTableBytes + k)))) s

/-- The palette of an opened frame goes to the first BANDS bytes of each entry of PAL (R183). -/
def loadPalette (n : Nat) (o : OpenAnswer) (s : State) : State :=
  sweep (upTo 0 (Config.palEntries - 1)) (fun idx => sweep (List.range n) (fun b =>
    memWrite .pal (idx * 4 + b) (o.pal.byte (idx * 4 + b)))) s

/-- `load CB and PAL from o` (41_compositor.md R142). -/
def loadTables (n : Nat) (o : OpenAnswer) (s : State) : State := loadPalette n o (loadCodebook o s)

/-- `load CBUF from f` (R142, R184). -/
def loadCompressed (f : FetchAnswer) (s : State) : State :=
  sweep (upTo 0 (Config.compressedBytes - 1)) (fun p => memWrite .cbuf p (f.data.byte p)) s

end Sys2Proof.Machine
end

