-- ==== Sys2Proof/Machine/Decoder.lean ====
section
/-! DEFINITION. The FrameDecoder and the command DECODE (40_decode.md). -/

namespace Sys2Proof.Machine

/-- `code1 = (b0 << 4) | (b1 >> 4)`, 12 bits (R111). -/
def code1 (b0 b1 : Byte) : BitVec 12 := (b0.zeroExtend 12 <<< 4) ||| (b1.zeroExtend 12 >>> 4)

/-- `code2 = ((b1 & 0xF) << 8) | b2`, 12 bits (R111). -/
def code2 (b1 b2 : Byte) : BitVec 12 := ((b1.zeroExtend 12 &&& 0xF) <<< 8) ||| b2.zeroExtend 12

/-- The place in CBUF of the triple of row-band `i` and column double-band `j` (R112). -/
def tripleAt (i j : Nat) : Nat := ((i / 4) * 32 + j / 8) * 3

/-- `CB[t][code*4 + e]` (R113, 20_memory.md R63). -/
def cbLookup (t : Nat) (code : BitVec 12) (e : Nat) (s : State) : Run Byte :=
  memRead .cb (t * Config.cbTableBytes + (code.toNat * 4 + e)) s

/-- `PAL[idx][b]` (R114, 20_memory.md R64). -/
def palLookup (idx : Byte) (b : Nat) (s : State) : Run Byte := memRead .pal (idx.toNat * 4 + b) s

/-- The byte of band `b`, block row `r`, block column `c` in BLK (20_memory.md R65). -/
def blkOffset (b r c : Nat) : Nat := b * Config.blkPlane + r * Config.subframeDim + c

/-- The innermost loop of R110 for one band: both pixels of a place `(t, e)` of the two groups. -/
def decodeBand (i j t e : Nat) (idx1 idx2 : Byte) (b : Nat) (s : State) : Run State := do
  let v1 ← palLookup idx1 b s
  let s := memWrite .blk (blkOffset b (i + t) (j + e)) v1 s
  let v2 ← palLookup idx2 b s
  .ok (memWrite .blk (blkOffset b (i + t) (j + e + 4)) v2 s)

/-- The place `(t, e)` of the two 4×4 groups of a triple, all bands (R110, R113, R114). -/
def decodePlace (n i j : Nat) (c1 c2 : BitVec 12) (t e : Nat) (s : State) : Run State := do
  let idx1 ← cbLookup t c1 e s
  let idx2 ← cbLookup t c2 e s
  forEach (List.range n) (decodeBand i j t e idx1 idx2) s

/-- One triple: read three bytes, form two codes, fill two 4×4 groups (R110). -/
def decodeTriple (n i j : Nat) (s : State) : Run State := do
  let b0 ← memRead .cbuf (tripleAt i j) s
  let b1 ← memRead .cbuf (tripleAt i j + 1) s
  let b2 ← memRead .cbuf (tripleAt i j + 2) s
  forEach (upTo 0 3) (fun t => forEach (upTo 0 3) (fun e =>
    decodePlace n i j (code1 b0 b1) (code2 b1 b2) t e)) s

/-- `decode()`: the body of DECODE with `BANDS = n` (R110, R142): row-bands outside, column double-bands inside. -/
def decodeBody (n : Nat) (s : State) : Run State :=
  forEach (upToBy 0 252 4) (fun i => forEach (upToBy 0 248 8) (fun j => decodeTriple n i j)) s

/-- DECODE (R110), as a run of the engine. -/
def runDecode (s : State) : Run State :=
  whenOpen s (fun s => withBands s (fun n => do
    let t ← decodeBody n s
    .ok (done t)))

/-- DECODE (R110). -/
def execDecode (s : State) : Host.Outcome State Fault Refusal := conclude (runDecode s)

end Sys2Proof.Machine
end

