-- ==== Sys2Proof/Machine/Flags.lean ====
section
/-! DEFINITION. The one flag, FLAGS.EMPTY (10_state.md R27), and the encodings of the fields of STATUS and FLAGS (R23, R27,
60_exceptions.md R201). -/

namespace Sys2Proof.Machine

/-- FLAGS.EMPTY as FRANGE computes it: the requested rectangle and the image share no pixel (R27, R131). -/
def emptyOfImage (g : Regs) : Bool := (clip g).isEmpty

/-- FLAGS.EMPTY as SRANGE computes it: the requested rectangle, the image and the current frame share no pixel
(R27, R136). -/
def emptyOfFrame (g : Regs) : Bool :=
  (clip g).isEmpty || (clipToFrame (clip g) (u32 g.curFr) (u32 g.curFc)).isEmpty

/-- Values of STATUS.STATE (R23). -/
def facadeCode : FacadeState → Nat
  | .closed => 0
  | .opening => 1
  | .opened => 2

/-- Values of STATUS.PRODUCT (R23). -/
def productCode : ProductType → Nat
  | .unknown => 0
  | .grayscale => 1
  | .rgb => 2

/-- Values of STATUS.ERR (R201). -/
def errCode : ErrCode → Nat
  | .ok => 0
  | .config => 1
  | .notOpen => 2
  | .frameUnavail => 3
  | .corrupt => 4
  | .illegal => 5
  | .badState => 6
  | .noOverview => 7
  | .tileCap => 8
  | .badArg => 9

/-- The word STATUS reads: STATE in [1:0], PRODUCT in [3:2], ERR in [15:8], all other bits zero (R23). -/
def statusWord (g : Regs) : Word :=
  BitVec.ofNat 32 (facadeCode g.state + productCode g.product * 4 + errCode g.err * 256)

/-- The word FLAGS reads: EMPTY in bit 0, all other bits zero (R27). -/
def flagsWord (g : Regs) : Word := if g.empty then 1 else 0

end Sys2Proof.Machine
end

