-- ==== Sys2Proof/Machine/Compositor.lean ====
section
/-! DEFINITION. The TileCompositor: FRANGE, SRANGE, TFILL, BLKCOPY and the procedure `get_tile` (41_compositor.md). -/

namespace Sys2Proof.Machine

/-- The results of FRANGE in the registers (R132). -/
def frangeRegs (g : Regs) : Regs :=
  if emptyOfImage g then
    { g with empty := true, fr0 := 0, fr1 := 0, fc0 := 0, fc1 := 0 }
  else
    { g with
      empty := false
      fr0 := wordOf (cellOf (clip g).y0 Config.frameDim)
      fr1 := wordOf (cellOf (clip g).y1 Config.frameDim)
      fc0 := wordOf (cellOf (clip g).x0 Config.frameDim)
      fc1 := wordOf (cellOf (clip g).x1 Config.frameDim) }

/-- `frange()` (R132). -/
def frangeBody (s : State) : State := { s with reg := frangeRegs s.reg }

/-- The frame-local coordinate of a column of the current frame (R135). -/
def localCol (g : Regs) (x : Int) : Int := x - (u32 g.curFc * Config.frameDim : Nat)

/-- The frame-local coordinate of a row of the current frame (R135). -/
def localRow (g : Regs) (y : Int) : Int := y - (u32 g.curFr * Config.frameDim : Nat)

/-- The part of the clip rectangle in the current frame (R135). -/
def frameSpan (g : Regs) : Span := clipToFrame (clip g) (u32 g.curFr) (u32 g.curFc)

/-- The results of SRANGE in the registers (R134 to R136). -/
def srangeRegs (g : Regs) : Regs :=
  if emptyOfFrame g then
    { g with diskRow := wordOf (diskRowOf g), empty := true, sr0 := 0, sr1 := 0, sc0 := 0, sc1 := 0 }
  else
    { g with
      diskRow := wordOf (diskRowOf g)
      empty := false
      sr0 := wordOf (cellOf (localRow g (frameSpan g).y0) Config.subframeDim)
      sr1 := wordOf (cellOf (localRow g (frameSpan g).y1) Config.subframeDim)
      sc0 := wordOf (cellOf (localCol g (frameSpan g).x0) Config.subframeDim)
      sc1 := wordOf (cellOf (localCol g (frameSpan g).x1) Config.subframeDim) }

/-- `srange()` (R136). -/
def srangeBody (s : State) : State := { s with reg := srangeRegs s.reg }

/-- `tfill()` with `BANDS = n` (R138). -/
def tfillBody (n : Nat) (s : State) : State :=
  sweep (List.range (tileBytes s.reg n)) (fun o => memWrite .tile o s.reg.blank) s

/-- The offset in BLK of an absolute pixel of the block of the cursor (R139, R141). -/
def copyFrom (g : Regs) (b : Nat) (x y : Int) : Nat :=
  planar Config.blkPlane Config.subframeDim b (y - blockTop g) (x - blockLeft g)

/-- The offset in TILE of an absolute pixel of the requested rectangle (R139, R141). -/
def copyTo (g : Regs) (b : Nat) (x y : Int) : Nat :=
  planar (rectWidth g * rectHeight g) (rectWidth g) b (y - rectTop g) (x - rectLeft g)

/-- One byte of the copy; `g` holds the operands as they stood at the start (R139). -/
def copyByte (g : Regs) (x y : Int) (b : Nat) (s : State) : Run State := do
  let v ← memRead .blk (copyFrom g b x y) s
  .ok (memWrite .tile (copyTo g b x y) v s)

/-- The part of the clip rectangle under the block of the cursor: what the copy is clipped to (R139, R140). -/
def copySpan (g : Regs) : Span where
  x0 := max (blockLeft g) (clip g).x0
  x1 := min (blockLeft g + 255) (clip g).x1
  y0 := max (blockTop g) (clip g).y0
  y1 := min (blockTop g + 255) (clip g).y1

/-- `blkcopy()` with `BANDS = n` (R139). -/
def blkcopyBody (n : Nat) (s : State) : Run State :=
  if (clip s.reg).isEmpty then .ok s
  else
    forEach (upToInt (copySpan s.reg).y0 (copySpan s.reg).y1) (fun y =>
      forEach (upToInt (copySpan s.reg).x0 (copySpan s.reg).x1) (fun x =>
        forEach (List.range n) (copyByte s.reg x y))) s

/-- Work on one covered sub-frame cell of an opened frame: the innermost part of `get_tile` (R142, R145). -/
def visitCell (n dr fc sr sc : Nat) (s : State) : Run State := do
  let (s, f) ← frmFetch dr fc sr sc s
  if f.ok then
    let s ← decodeBody n (loadCompressed f s)
    blkcopyBody n { s with reg := { s.reg with curSr := wordOfNat sr, curSc := wordOfNat sc } }
  else .ok s

/-- The covered cells of an opened frame, rows outside (R142). -/
def visitCells (n dr fc : Nat) (s : State) : Run State :=
  forEach (upTo (u32 s.reg.sr0) (u32 s.reg.sr1)) (fun sr s =>
    forEach (upTo (u32 s.reg.sc0) (u32 s.reg.sc1)) (fun sc => visitCell n dr fc sr sc) s) s

/-- Point the cursor at a frame and find its covered cells (R142, steps 4 and 5). -/
def aimAtFrame (fr fc : Nat) (s : State) : State :=
  srangeBody { s with reg := { s.reg with curFr := wordOfNat fr, curFc := wordOfNat fc } }

/-- Count an FRM.Open request (R142, 10_state.md R38). -/
def countOpen (s : State) : State := { s with reg := { s.reg with fopenCnt := s.reg.fopenCnt + 1 } }

/-- A frame that is present: open it, load its tables, work on its cells, release it (R142, R144). -/
def visitPresent (n dr fc : Nat) (s : State) : Run State := do
  let (s, o) ← frmOpen dr fc s
  if o.ok then
    let s ← visitCells n dr fc (loadTables n o (countOpen s))
    .ok (frmRelease dr fc s)
  else .ok (countOpen s)

/-- Work on one covered frame (R142, R143). -/
def visitFrame (n fr fc : Nat) (s : State) : Run State := do
  let (s, present) ← locExists fr fc s
  if present then
    let s := aimAtFrame fr fc s
    visitPresent n (u32 s.reg.diskRow) fc s
  else .ok s

/-- All covered frames, rows outside (R142). -/
def visitFrames (n : Nat) (s : State) : Run State :=
  forEach (upTo (u32 s.reg.fr0) (u32 s.reg.fr1)) (fun fr s =>
    forEach (upTo (u32 s.reg.fc0) (u32 s.reg.fc1)) (fun fc => visitFrame n fr fc) s) s

/-- The part of `get_tile` before the frames: clear the count, blank the tile, find the frames (R142). -/
def getTilePrologue (n : Nat) (s : State) : State :=
  frangeBody (tfillBody n { s with reg := { s.reg with fopenCnt := 0 } })

/-- `get_tile()` with `BANDS = n` (R142). -/
def getTileBody (n : Nat) (s : State) : Run State :=
  let s := getTilePrologue n s
  if s.reg.empty then .ok s else visitFrames n s

/-- The capacity check (60_exceptions.md R206): a tile that does not fit ends the command with E_TILECAP. -/
def whenFits (n : Nat) (s : State) (body : State → Run State) : Run State :=
  if tileBytes s.reg n > Config.tileCap then .ok (raiseErr .tileCap s) else body s

/-- FRANGE (R132), as a run of the engine. -/
def runFrange (s : State) : Run State := whenOpen s (fun s => .ok (done (frangeBody s)))

/-- SRANGE (R136), as a run of the engine. -/
def runSrange (s : State) : Run State :=
  whenOpen s (fun s => if frameInGrid s.reg then .ok (done (srangeBody s)) else .ok (raiseErr .badArg s))

/-- TFILL (R138), as a run of the engine. -/
def runTfill (s : State) : Run State :=
  whenOpen s (fun s => withBands s (fun n => whenFits n s (fun s => .ok (done (tfillBody n s)))))

/-- BLKCOPY (R139), as a run of the engine. -/
def runBlkcopy (s : State) : Run State :=
  whenOpen s (fun s =>
    if frameInGrid s.reg && subInFrame s.reg then
      withBands s (fun n => whenFits n s (fun s => do
        let t ← blkcopyBody n s
        .ok (done t)))
    else .ok (raiseErr .badArg s))

/-- FRANGE (R132). -/
def execFrange (s : State) : Host.Outcome State Fault Refusal := conclude (runFrange s)

/-- SRANGE (R136). -/
def execSrange (s : State) : Host.Outcome State Fault Refusal := conclude (runSrange s)

/-- TFILL (R138). -/
def execTfill (s : State) : Host.Outcome State Fault Refusal := conclude (runTfill s)

/-- BLKCOPY (R139). -/
def execBlkcopy (s : State) : Host.Outcome State Fault Refusal := conclude (runBlkcopy s)

end Sys2Proof.Machine
end

