-- ==== Sys2Proof/Machine/Facade.lean ====
section
/-! DEFINITION. The ProductModel and the TileSource facade: OPEN, CLOSE, GETTILE, GETIMAGERECT (42_facade.md). -/

namespace Sys2Proof.Machine

/-- ProductModel resolution (R162). -/
def resolve (r : CatAnswer) : ProductType :=
  if r.ok = false then .unknown
  else if r.tag = Config.tagGray then .grayscale
  else if r.tag = Config.tagRgb then .rgb
  else .unknown

/-- The facade closed: product Unknown, no image (R161, R164). -/
def closedRegs (g : Regs) : Regs :=
  { g with state := .closed, product := .unknown, imgW := 0, imgH := 0, framesH := 0, framesV := 0 }

/-- The facade open on the image of a catalog answer: the extent is the whole frame grid (R161, R163). -/
def openRegs (p : ProductType) (r : CatAnswer) (g : Regs) : Regs :=
  { g with
    state := .opened
    product := p
    framesH := wordOfNat r.framesH.toNat
    framesV := wordOfNat r.framesV.toNat
    imgW := wordOfNat (r.framesH.toNat * Config.frameDim)
    imgH := wordOfNat (r.framesV.toNat * Config.frameDim) }

/-- The part of OPEN after the catalog's answer (R161). -/
def settleOpen (r : CatAnswer) (s : State) : State :=
  match resolve r with
  | .unknown => raiseErr .config { s with reg := closedRegs s.reg }
  | .grayscale => done { s with reg := openRegs .grayscale r s.reg }
  | .rgb => done { s with reg := openRegs .rgb r s.reg }

/-- OPEN (R161), as a run of the engine. STATE is Opening while the catalog is asked. -/
def runOpen (s : State) : Run State :=
  if s.reg.state ≠ .closed then .ok (raiseErr .badState s)
  else do
    let (s, r) ← catLookup s.reg.handle { s with reg := { s.reg with state := .opening } }
    .ok (settleOpen r s)

/-- CLOSE (R164), as a run of the engine. -/
def runClose (s : State) : Run State := whenOpen s (fun s => .ok (done { s with reg := closedRegs s.reg }))

/-- GETTILE (R165), as a run of the engine. -/
def runGetTile (level : Nat) (s : State) : Run State :=
  whenOpen s (fun s =>
    if level ≠ 0 then .ok (raiseErr .noOverview s)
    else withBands s (fun n => whenFits n s (fun s => do
      let t ← getTileBody n s
      .ok (done t))))

/-- The results of GETIMAGERECT in the registers (R166). -/
def imageRectRegs (g : Regs) : Regs := { g with irX0 := 0, irY0 := 0, irW := g.imgW, irH := g.imgH }

/-- GETIMAGERECT (R166), as a run of the engine. -/
def runGetImageRect (s : State) : Run State := whenOpen s (fun s => .ok (done { s with reg := imageRectRegs s.reg }))

/-- OPEN (R161). -/
def execOpen (s : State) : Host.Outcome State Fault Refusal := conclude (runOpen s)

/-- CLOSE (R164). -/
def execClose (s : State) : Host.Outcome State Fault Refusal := conclude (runClose s)

/-- GETTILE (R165). -/
def execGetTile (level : Nat) (s : State) : Host.Outcome State Fault Refusal := conclude (runGetTile level s)

/-- GETIMAGERECT (R166). -/
def execGetImageRect (s : State) : Host.Outcome State Fault Refusal := conclude (runGetImageRect s)

end Sys2Proof.Machine
end

