-- ==== Sys2Proof/Machine/Dispatch.lean ====
section
/-! DEFINITION. The meaning of each command (30_encoding.md R93): one arm per constructor. -/

namespace Sys2Proof.Machine

/-- Execute one command to its end (10_state.md R22). -/
def exec (i : Instr) (s : State) : Host.Outcome State Fault Refusal :=
  match i with
  | .openSource => Sys2Proof.Machine.execOpen s
  | .closeSource => Sys2Proof.Machine.execClose s
  | .getTile level => Sys2Proof.Machine.execGetTile level s
  | .getImageRect => Sys2Proof.Machine.execGetImageRect s
  | .decode => Sys2Proof.Machine.execDecode s
  | .frange => Sys2Proof.Machine.execFrange s
  | .srange => Sys2Proof.Machine.execSrange s
  | .tfill => Sys2Proof.Machine.execTfill s
  | .blkcopy => Sys2Proof.Machine.execBlkcopy s

end Sys2Proof.Machine
end

