-- ==== Sys2Proof/Machine/Registers.lean ====
section
/-! DEFINITION. The register file as the host sees it: names, offsets, access, read and write (10_state.md R20 to R39). -/

namespace Sys2Proof.Machine

/-- The 32 registers of R20, in the order of their offsets. -/
inductive RegName where
  | id | cmd | status | flags | handle | blank | rectX0 | rectY0
  | rectW | rectH | curFr | curFc | curSr | curSc | imgW | imgH
  | framesH | framesV | irX0 | irY0 | irW | irH | fr0 | fr1
  | fc0 | fc1 | sr0 | sr1 | sc0 | sc1 | diskRow | fopenCnt
deriving DecidableEq, Repr

/-- How the host may access a register (R20). -/
inductive Access where
  /-- Read only: a write is a bus error. -/
  | ro
  /-- Read and write. -/
  | rw
  /-- Write only: a write acts and a read returns zero. -/
  | wo
deriving DecidableEq, Repr

/-- All registers by rising offset (R20). -/
def regNames : List RegName :=
  [.id, .cmd, .status, .flags, .handle, .blank, .rectX0, .rectY0,
   .rectW, .rectH, .curFr, .curFc, .curSr, .curSc, .imgW, .imgH,
   .framesH, .framesV, .irX0, .irY0, .irW, .irH, .fr0, .fr1,
   .fc0, .fc1, .sr0, .sr1, .sc0, .sc1, .diskRow, .fopenCnt]

/-- The register at a byte offset of space REG: one every four bytes from 0x00, none from 0x80 up (R20, R39, R62). -/
def regAt (off : Nat) : Option RegName := if off % 4 = 0 then regNames[off / 4]? else none

/-- The access column of R20. -/
def regAccess : RegName → Access
  | .cmd => .wo
  | .handle => .rw
  | .blank => .rw
  | .rectX0 => .rw
  | .rectY0 => .rw
  | .rectW => .rw
  | .rectH => .rw
  | .curFr => .rw
  | .curFc => .rw
  | .curSr => .rw
  | .curSc => .rw
  | .id => .ro
  | .status => .ro
  | .flags => .ro
  | .imgW => .ro
  | .imgH => .ro
  | .framesH => .ro
  | .framesV => .ro
  | .irX0 => .ro
  | .irY0 => .ro
  | .irW => .ro
  | .irH => .ro
  | .fr0 => .ro
  | .fr1 => .ro
  | .fc0 => .ro
  | .fc1 => .ro
  | .sr0 => .ro
  | .sr1 => .ro
  | .sc0 => .ro
  | .sc1 => .ro
  | .diskRow => .ro
  | .fopenCnt => .ro

/-- What a Read32 of a register returns (R21 to R38). It has no side effect (R72). -/
def readReg : RegName → Regs → Word
  | .id, _ => Config.idValue
  | .cmd, _ => 0
  | .status, g => statusWord g
  | .flags, g => flagsWord g
  | .handle, g => g.handle
  | .blank, g => g.blank.zeroExtend 32
  | .rectX0, g => g.rectX0
  | .rectY0, g => g.rectY0
  | .rectW, g => g.rectW
  | .rectH, g => g.rectH
  | .curFr, g => g.curFr
  | .curFc, g => g.curFc
  | .curSr, g => g.curSr
  | .curSc, g => g.curSc
  | .imgW, g => g.imgW
  | .imgH, g => g.imgH
  | .framesH, g => g.framesH
  | .framesV, g => g.framesV
  | .irX0, g => g.irX0
  | .irY0, g => g.irY0
  | .irW, g => g.irW
  | .irH, g => g.irH
  | .fr0, g => g.fr0
  | .fr1, g => g.fr1
  | .fc0, g => g.fc0
  | .fc1, g => g.fc1
  | .sr0, g => g.sr0
  | .sr1, g => g.sr1
  | .sc0, g => g.sc0
  | .sc1, g => g.sc1
  | .diskRow, g => g.diskRow
  | .fopenCnt, g => g.fopenCnt

/-- A host Write32 of an RW register changes that register only; BLANK keeps bits [7:0] (R30, R72). A register that
is not RW is not written here. -/
def writeReg : RegName → Word → Regs → Regs
  | .handle, w, g => { g with handle := w }
  | .blank, w, g => { g with blank := w.setWidth 8 }
  | .rectX0, w, g => { g with rectX0 := w }
  | .rectY0, w, g => { g with rectY0 := w }
  | .rectW, w, g => { g with rectW := w }
  | .rectH, w, g => { g with rectH := w }
  | .curFr, w, g => { g with curFr := w }
  | .curFc, w, g => { g with curFc := w }
  | .curSr, w, g => { g with curSr := w }
  | .curSc, w, g => { g with curSc := w }
  | .id, _, g => g
  | .cmd, _, g => g
  | .status, _, g => g
  | .flags, _, g => g
  | .imgW, _, g => g
  | .imgH, _, g => g
  | .framesH, _, g => g
  | .framesV, _, g => g
  | .irX0, _, g => g
  | .irY0, _, g => g
  | .irW, _, g => g
  | .irH, _, g => g
  | .fr0, _, g => g
  | .fr1, _, g => g
  | .fc0, _, g => g
  | .fc1, _, g => g
  | .sr0, _, g => g
  | .sr1, _, g => g
  | .sc0, _, g => g
  | .sc1, _, g => g
  | .diskRow, _, g => g
  | .fopenCnt, _, g => g

end Sys2Proof.Machine
end

