-- ==== Sys2Proof/Machine/Bus.lean ====
section
/-! DEFINITION. The host bus: which transactions are errors, what the others read and write, and the write to CMD that
executes a command (20_memory.md R61 to R72, R81). -/

namespace Sys2Proof.Machine

/-- Give the host an answer (R66). -/
def answering (r : BusResp) (d : Word) (s : State) : State := { s with answer := some ⟨r, d⟩ }

/-- A bus error: response ERROR, data 0, no state changed (R66, R68). -/
def busError (s : State) : Host.Outcome State Fault Refusal := .next (answering .error 0 s)

/-- Response OKAY with its data. -/
def busOkay (d : Word) (s : State) : Host.Outcome State Fault Refusal := .next (answering .okay d s)

/-- A command's end is followed by the acknowledgement of the write to CMD, with OKAY whatever STATUS.ERR says
(60_exceptions.md R204, R213). -/
def acknowledge : Host.Outcome State Fault Refusal → Host.Outcome State Fault Refusal
  | .next s => .next (answering .okay 0 s)
  | .fault f => .fault f
  | .refused r => .refused r

/-- What a word written to CMD does (10_state.md R22): its command, or E_ILLEGAL and nothing else (30_encoding.md R94). -/
def runWord (w : Word) (s : State) : Host.Outcome State Fault Refusal :=
  match decode w with
  | .command i => exec i s
  | .illegal _ => .next (raiseErr .illegal s)

/-- The byte of a memory the host reads. One that nothing has written has no value (70_reset_and_hazards.md R232). -/
def hostByte (a : Nat) (s : State) : Except Fault Byte :=
  match s.mem.read a with
  | some v => .ok v
  | none => .error (.unwrittenByte a)

/-- The four bytes of a Read32, little-endian (R70). -/
def hostWord (a : Nat) (s : State) : Except Fault Word := do
  let b0 ← hostByte a s
  let b1 ← hostByte (a + 1) s
  let b2 ← hostByte (a + 2) s
  let b3 ← hostByte (a + 3) s
  .ok (b3 ++ b2 ++ b1 ++ b0)

/-- Byte `i` of a word, byte 0 in bits [7:0] (R70). -/
def byteOf (w : Word) (i : Nat) : Byte := w.extractLsb' (8 * i) 8

/-- The four bytes of a Write32, little-endian (R70). -/
def writeWord (a : Nat) (w : Word) (m : Memory) : Memory :=
  (((m.write a (byteOf w 0)).write (a + 1) (byteOf w 1)).write (a + 2) (byteOf w 2)).write (a + 3) (byteOf w 3)

/-- An offset lies in space REG (R61). -/
def isReg (a : Nat) : Bool := decide (a < 0x100)

/-- What a read of a memory answers. -/
def answerRead (r : Except Fault Word) (s : State) : Host.Outcome State Fault Refusal :=
  match r with
  | .ok d => busOkay d s
  | .error f => .fault f

/-- Read8: of a memory only (R66, R68). -/
def serveRead8 (a : Nat) (s : State) : Host.Outcome State Fault Refusal :=
  if isMemory a then answerRead ((hostByte a s).map (fun v => v.zeroExtend 32)) s else busError s

/-- Write8: of a memory only (R66, R68). -/
def serveWrite8 (a : Nat) (d : Word) (s : State) : Host.Outcome State Fault Refusal :=
  if isMemory a then busOkay 0 { s with mem := s.mem.write a (byteOf d 0) } else busError s

/-- Read32: aligned, of a register or of a memory (R66 to R68). -/
def serveRead32 (a : Nat) (s : State) : Host.Outcome State Fault Refusal :=
  if a % 4 ≠ 0 then busError s
  else if isReg a then
    match regAt a with
    | some r => busOkay (readReg r s.reg) s
    | none => busError s
  else if isMemory a then answerRead (hostWord a s) s
  else busError s

/-- Write32 of a register (R20, R68): an RO register is a bus error, CMD executes a command. -/
def serveRegWrite (r : RegName) (d : Word) (s : State) : Host.Outcome State Fault Refusal :=
  match regAccess r with
  | .ro => busError s
  | .rw => busOkay 0 { s with reg := writeReg r d s.reg }
  | .wo => acknowledge (runWord d s)

/-- Write32: aligned, of a register or of a memory (R66 to R68). -/
def serveWrite32 (a : Nat) (d : Word) (s : State) : Host.Outcome State Fault Refusal :=
  if a % 4 ≠ 0 then busError s
  else if isReg a then
    match regAt a with
    | some r => serveRegWrite r d s
    | none => busError s
  else if isMemory a then busOkay 0 { s with mem := writeWord a d s.mem }
  else busError s

/-- A transaction on the bus; a width other than 8 and 32 is a bus error (R66, R68 (f)). -/
def serveBus (t : Txn) (s : State) : Host.Outcome State Fault Refusal :=
  if t.width = 32 then
    match t.dir with
    | .read => serveRead32 t.addr.toNat s
    | .write => serveWrite32 t.addr.toNat t.data s
  else if t.width = 8 then
    match t.dir with
    | .read => serveRead8 t.addr.toNat s
    | .write => serveWrite8 t.addr.toNat t.data s
  else busError s

/-- A command as a run of the engine, with the state it stops in if it stops. -/
def runInstr : Instr → State → Run State
  | .openSource => runOpen
  | .closeSource => runClose
  | .getTile level => runGetTile level
  | .getImageRect => runGetImageRect
  | .decode => runDecode
  | .frange => runFrange
  | .srange => runSrange
  | .tfill => runTfill
  | .blkcopy => runBlkcopy

/-- A write of a word to CMD that reset cuts short after `n` acts (70_reset_and_hazards.md R230). An illegal word has
no acts. -/
def serveResetDuring (w : Word) (n : Nat) (s : State) : Host.Outcome State Fault Refusal :=
  match decode w with
  | .command i => abandon n s (runInstr i s)
  | .illegal _ => .next (resetState s)

/-- One event of the outside world. -/
def serve (e : Event) (s : State) : Host.Outcome State Fault Refusal :=
  match e with
  | .bus t => serveBus t s
  | .reset => .next (resetState s)
  | .resetDuring w n => serveResetDuring w n s
  | .powerUp => .next (powerUpState s)
  | .envChange env => .next { s with env := env, answer := none }

/-- The Write32 of a command word to CMD (10_state.md R22, 30_encoding.md R90): how a command reaches the engine. -/
def commandEvent (w : Word) : Event := .bus { dir := .write, width := 32, addr := 0x04, data := w }

end Sys2Proof.Machine
end

