-- ==== Sys2Proof/Machine/Step.lean ====
section
/-! DEFINITION. One step: the next event of the outside world is served, a command to its end (20_memory.md R74, R81). -/

namespace Sys2Proof.Machine

/-- One step. With no event to come the engine is idle and holds all state (60_exceptions.md R215). -/
def step (s : State) : Host.Outcome State Fault Refusal :=
  match s.inbox with
  | [] => .next s
  | e :: rest => serve e { s with inbox := rest }

/-- The state in which the next event is the host's write of this command word to CMD. VQTC fetches nothing: a command
is the data of that write (10_state.md R45, 20_memory.md R77). -/
def State.withFetchWord (s : State) (nbits w : Nat) : State :=
  { s with inbox := commandEvent (BitVec.ofNat 32 (w % 2 ^ nbits)) :: s.inbox }

end Sys2Proof.Machine
end

