-- ==== Sys2Proof/Machine/Lines.lean ====
section
/-! DEFINITION. A host's program, line by line: the assembler lines of 30_encoding.md R97 and the pseudo-lines of R98, each
as the bus transactions it stands for. The block knows nothing of them; they say what a host puts in `inbox`. -/

namespace Sys2Proof.Machine

/-- A line of a host's program. -/
inductive Line where
  /-- `WR NAME, value` (R97). A negative value stands for its two's complement: R97's for RECT_X0 and RECT_Y0, the model's
choice for other registers (log entry 12). -/
  | wr (name : RegName) (value : Int)
  /-- `RD NAME`, or `RD NAME -> value`, which states the value read (R97). -/
  | rd (name : RegName) (stated : Option Word)
  /-- `WB SPACE[off], byte` (R97). -/
  | wb (space : Space) (off : Nat) (byte : Byte)
  /-- `RB SPACE[off]`, or with `-> value` (R97). -/
  | rb (space : Space) (off : Nat) (stated : Option Byte)
  /-- `WW SPACE[off], word` (R97). -/
  | ww (space : Space) (off : Nat) (word : Word)
  /-- `RW SPACE[off]`, or with `-> value` (R97). -/
  | rw (space : Space) (off : Nat) (stated : Option Word)
  /-- The mnemonic of a command, `GETTILE` with its level, 0 to 255 (R97; another level: log entry 21). -/
  | command (i : Instr)
  /-- `SETRECT x0, y0, w, h` (R98). -/
  | setRect (x0 y0 w h : Int)
  /-- `SETFRAME fr, fc` (R98). -/
  | setFrame (fr fc : Int)
  /-- `SETSUB sr, sc` (R98). -/
  | setSub (sr sc : Int)
  /-- `GETTILE0` (R98). -/
  | getTile0
  /-- `OPENH h` (R98). -/
  | openH (h : Int)
  /-- `ERR? code` (R98). -/
  | errIs (code : Nat)
deriving DecidableEq, Repr

/-- The byte offset of a register in space REG (R20). -/
def regOffset (r : RegName) : Nat := regNames.idxOf r * 4

/-- `WR`: a Write32 of a register. -/
def writeRegEvent (r : RegName) (v : Int) : Event :=
  .bus { dir := .write, width := 32, addr := BitVec.ofNat 32 (regOffset r), data := wordOf v }

/-- `RD`: a Read32 of a register. -/
def readRegEvent (r : RegName) : Event :=
  .bus { dir := .read, width := 32, addr := BitVec.ofNat 32 (regOffset r), data := 0 }

/-- A transaction on a byte offset of a memory space (R61, R97). R97 does not say what an offset beyond the space means:
DESIGN CHOICE, log entry 21, the transaction is at the sum of base and offset modulo 2^32, wherever that falls. -/
def memEvent (d : Dir) (width : Nat) (sp : Space) (off : Nat) (data : Word) : Event :=
  .bus { dir := d, width := width, addr := BitVec.ofNat 32 (sp.base + off), data := data }

/-- The transactions a line stands for, in order (R97, R98). -/
def expand : Line → List Event
  | .wr r v => [writeRegEvent r v]
  | .rd r _ => [readRegEvent r]
  | .wb sp off b => [memEvent .write 8 sp off (b.zeroExtend 32)]
  | .rb sp off _ => [memEvent .read 8 sp off 0]
  | .ww sp off w => [memEvent .write 32 sp off w]
  | .rw sp off _ => [memEvent .read 32 sp off 0]
  | .command i => [commandEvent (encode i)]
  | .setRect x0 y0 w h =>
    [writeRegEvent .rectX0 x0, writeRegEvent .rectY0 y0, writeRegEvent .rectW w, writeRegEvent .rectH h]
  | .setFrame fr fc => [writeRegEvent .curFr fr, writeRegEvent .curFc fc]
  | .setSub sr sc => [writeRegEvent .curSr sr, writeRegEvent .curSc sc]
  | .getTile0 => [commandEvent (encode (.getTile 0))]
  | .openH h => [writeRegEvent .handle h, commandEvent (encode .openSource)]
  | .errIs _ => [readRegEvent .status]

/-- The data of the answer to the last transaction, if it was answered OKAY. -/
def answeredData (s : State) : Option Word :=
  match s.answer with
  | some ⟨.okay, d⟩ => some d
  | some ⟨.error, _⟩ => none
  | none => none

/-- What a line states of the answer to its last transaction: a value read (R97), or that bits [15:8] of STATUS are a code
(R98). The value is taken as that of an OKAY answer (DESIGN CHOICE, log entry 21). -/
def holdsAfter (l : Line) (s : State) : Bool :=
  match l with
  | .rd _ (some v) => answeredData s == some v
  | .rb _ _ (some v) => answeredData s == some (v.zeroExtend 32)
  | .rw _ _ (some v) => answeredData s == some v
  | .errIs code => (answeredData s).map (fun d => (d.extractLsb' 8 8).toNat) == some code
  | _ => true

/-- The state in which the host is about to make the transactions of a program, from its first line on. -/
def State.withProgram (s : State) (lines : List Line) : State := { s with inbox := s.inbox ++ lines.flatMap expand }

end Sys2Proof.Machine
end

