-- ==== Sys2Proof/Safety.lean ====
section
/-! DEFINITION. What a safe run is, the invariant of the machine, and the spec's closed forms that claims are stated in: the
inverse form of the decoder (40_decode.md R114), the tile pixel by pixel (41_compositor.md R146), the order of the port
requests (43_external_ports.md R188), what a GETTILE leaves behind (R235), the bus errors (20_memory.md R68). -/

namespace Sys2Proof.Machine

/-! ### Safe runs -/

/-- The step does not stop. -/
def StepIsSafe (s : State) : Prop := ∃ t, step s = .next t

/-- The facade is open on a product of `n` bands (R13, R25). -/
def OpenWith (n : Nat) (s : State) : Prop := s.reg.state = .opened ∧ bands s.reg.product = some n

/-- The tile of the requested rectangle fits the tile memory (60_exceptions.md R201, E_TILECAP). -/
def TileFits (n : Nat) (s : State) : Prop := rectWidth s.reg * rectHeight s.reg * n ≤ Config.tileCap

/-- The environment answers every request (R189). -/
def AllAnswered (s : State) : Prop := ∀ r, r ∉ s.env.silent

/-- The request among the acts, if it is one. -/
def requestOf : Act → Option PortReq
  | .request r => some r
  | .write _ _ => none

/-- The port trace, oldest request first (R47 (4)). -/
def portTrace (s : State) : List PortReq := (s.hist.filterMap requestOf).reverse

/-! ### The invariant of the machine at a command boundary -/

/-- What holds whenever the host can look (R24, R25, R33, R35 to R37, R60, R203). -/
structure Inv (s : State) : Prop where
  /-- The memory has its canonical form. -/
  memCanonical : s.mem.wf = true
  /-- Only bytes of the five memories are ever written (R60, R61). -/
  memMapped : ∀ a v, s.mem.read a = some v → isMemory a = true
  /-- Opening is held only while an OPEN executes (R24). -/
  notOpening : s.reg.state ≠ .opening
  /-- Open implies a known product (R25). -/
  openProduct : s.reg.state = .opened → s.reg.product ≠ .unknown
  /-- In Closed there is no product and no image (60_exceptions.md R209). -/
  closedImage : s.reg.state = .closed →
    s.reg.product = .unknown ∧ s.reg.imgW = 0 ∧ s.reg.imgH = 0 ∧ s.reg.framesH = 0 ∧ s.reg.framesV = 0
  /-- Frame counts are 0 to 65535 (R33). -/
  framesFit : u32 s.reg.framesH ≤ 65535 ∧ u32 s.reg.framesV ≤ 65535
  /-- The extent is a whole number of frames (R33). -/
  imageIsFrames : u32 s.reg.imgW = u32 s.reg.framesH * 1536 ∧ u32 s.reg.imgH = u32 s.reg.framesV * 1536
  /-- Codes 3 and 4 are never written (R203). -/
  errWritten : s.reg.err ≠ .frameUnavail ∧ s.reg.err ≠ .corrupt
  /-- The results of FRANGE are at most 65534 and in order (R35). -/
  frameRange : u32 s.reg.fr0 ≤ u32 s.reg.fr1 ∧ u32 s.reg.fr1 ≤ 65534 ∧ u32 s.reg.fc0 ≤ u32 s.reg.fc1 ∧ u32 s.reg.fc1 ≤ 65534
  /-- The results of SRANGE are 0 to 5 and in order (R36). -/
  subRange : u32 s.reg.sr0 ≤ u32 s.reg.sr1 ∧ u32 s.reg.sr1 ≤ 5 ∧ u32 s.reg.sc0 ≤ u32 s.reg.sc1 ∧ u32 s.reg.sc1 ≤ 5
  /-- DISK_ROW is 0 to 65534 (R37). -/
  diskRowFits : u32 s.reg.diskRow ≤ 65534

/-! ### The decoder in its inverse form (R114) -/

/-- The code of the 4×4 group of block column `c`, from the three bytes of its triple (R114). -/
def groupCode (b0 b1 b2 : Byte) (c : Nat) : Nat :=
  if c % 8 < 4 then b0.toNat * 16 + b1.toNat / 16 else b1.toNat % 16 * 256 + b2.toNat

/-- The byte of band `b`, row `r`, column `c` of the block that the bytes in memory decode to; none if a byte it
consumes has no value (R114). -/
def decodedByte (m : Memory) (b r c : Nat) : Option Byte := do
  let b0 ← m.read (Config.cbufBase + (r / 4 * 32 + c / 8) * 3)
  let b1 ← m.read (Config.cbufBase + (r / 4 * 32 + c / 8) * 3 + 1)
  let b2 ← m.read (Config.cbufBase + (r / 4 * 32 + c / 8) * 3 + 2)
  let idx ← m.read (Config.cbBase + (r % 4 * 16384 + (groupCode b0 b1 b2 c * 4 + c % 4)))
  m.read (Config.palBase + (idx.toNat * 4 + b))

/-- The host offsets whose bytes the decode of band `b`, row `r`, column `c` consumes, in the order R110 reads them: the
triple, the codebook byte that the codes name, the palette byte that the index names; a byte whose place hangs on one
that has no value is not reached. -/
def decodeReads (m : Memory) (b r c : Nat) : List Nat :=
  let p := Config.cbufBase + (r / 4 * 32 + c / 8) * 3
  [p, p + 1, p + 2] ++
    match m.read p, m.read (p + 1), m.read (p + 2) with
    | some b0, some b1, some b2 =>
      let k := Config.cbBase + (r % 4 * 16384 + (groupCode b0 b1 b2 c * 4 + c % 4))
      k :: (match m.read k with
        | some idx => [Config.palBase + (idx.toNat * 4 + b)]
        | none => [])
    | _, _, _ => []

/-- The same from an answer of the frame reader: `decode(data, cb, pal)` at a pixel (R114, R146). -/
def answeredByte (o : OpenAnswer) (f : FetchAnswer) (b r c : Nat) : Byte :=
  let g := r / 4 * 32 + c / 8
  let code := groupCode (f.data.byte (g * 3)) (f.data.byte (g * 3 + 1)) (f.data.byte (g * 3 + 2)) c
  let idx := o.cb.byte (r % 4 * 16384 + (code * 4 + c % 4))
  o.pal.byte (idx.toNat * 4 + b)

/-! ### The tile pixel by pixel (R146) -/

/-- The byte of band `b` of the pixel at column `x`, row `y` of the image, by the environment's answers (R146). -/
def imageByte (s : State) (b x y : Nat) : Byte :=
  let fr := y / 1536
  let fc := x / 1536
  let dr := u32 s.reg.framesV - 1 - fr
  let sr := (y - fr * 1536) / 256
  let sc := (x - fc * 1536) / 256
  let o := s.env.frame.answer (cell16 dr, cell16 fc)
  let f := s.env.cell.answer (cell16 dr, cell16 fc, cell3 sr, cell3 sc)
  if s.env.present.answer (cell16 fr, cell16 fc) = false then s.reg.blank
  else if o.ok = false then s.reg.blank
  else if f.ok = false then s.reg.blank
  else answeredByte o f b (y - fr * 1536 - sr * 256) (x - fc * 1536 - sc * 256)

/-- The byte of band `b`, row `r`, column `c` of the requested tile (R146). -/
def tileByte (s : State) (b r c : Nat) : Byte :=
  let x := rectLeft s.reg + c
  let y := rectTop s.reg + r
  if x < 0 ∨ (u32 s.reg.imgW : Int) ≤ x ∨ y < 0 ∨ (u32 s.reg.imgH : Int) ≤ y then s.reg.blank
  else imageByte s b x.toNat y.toNat

/-! ### The order of the port requests (R142, R147, R188) -/

/-- Frame rows that the clip rectangle touches. -/
def coveredRows (g : Regs) : List Nat := upTo ((clip g).y0 / 1536).toNat ((clip g).y1 / 1536).toNat

/-- Frame columns that the clip rectangle touches. -/
def coveredCols (g : Regs) : List Nat := upTo ((clip g).x0 / 1536).toNat ((clip g).x1 / 1536).toNat

/-- The first sub-frame row or column of a frame that starts at `start`, touched by the coordinates from `lo` on. -/
def firstSub (lo : Int) (start : Nat) : Nat := ((max lo start - start) / 256).toNat

/-- The last one, touched by the coordinates up to `hi`. -/
def lastSub (hi : Int) (start : Nat) : Nat := ((min hi (start + 1535) - start) / 256).toNat

/-- Sub-frame rows or columns of a frame that starts at `start`, touched by the coordinates `lo` to `hi`. -/
def coveredSubs (lo hi : Int) (start : Nat) : List Nat := upTo (firstSub lo start) (lastSub hi start)

/-- The requests for one frame: Exists alone; Exists, Open; or Exists, Open, the fetches in row-major order, Release
(R188). -/
def frameTrace (e : Env) (g : Regs) (fr fc : Nat) : List PortReq :=
  let row := cell16 (u32 g.framesV - 1 - fr)
  let col := cell16 fc
  .locExists (cell16 fr) col ::
    (if e.present.answer (cell16 fr, col) = false then []
     else .frmOpen row col ::
      (if (e.frame.answer (row, col)).ok = false then []
       else ((coveredSubs (clip g).y0 (clip g).y1 (fr * 1536)).flatMap (fun sr =>
          (coveredSubs (clip g).x0 (clip g).x1 (fc * 1536)).map (fun sc => .frmFetch row col (cell3 sr) (cell3 sc))))
        ++ [.frmRelease row col]))

/-- The requests of a GETTILE: one group per covered frame, in row-major order; none for an empty clip rectangle. -/
def tileTrace (e : Env) (g : Regs) : List PortReq :=
  if (clip g).isEmpty then []
  else (coveredRows g).flatMap (fun fr => (coveredCols g).flatMap (fun fc => frameTrace e g fr fc))

/-! ### What a GETTILE leaves behind (10_state.md R32, R142, R235) -/

/-- The frames that the clip rectangle touches, `(fr, fc)`, in the order they are visited. -/
def coveredFrames (g : Regs) : List (Nat × Nat) :=
  if (clip g).isEmpty then [] else (coveredRows g).flatMap (fun fr => (coveredCols g).map (fun fc => (fr, fc)))

/-- Those that exist (R143). -/
def presentFrames (e : Env) (g : Regs) : List (Nat × Nat) :=
  (coveredFrames g).filter (fun f => e.present.answer (cell16 f.1, cell16 f.2))

/-- The answer to FRM.Open for a frame, asked by its row on disk (R134). -/
def tablesOf (e : Env) (g : Regs) (fr fc : Nat) : OpenAnswer :=
  e.frame.answer (cell16 (u32 g.framesV - 1 - fr), cell16 fc)

/-- The frames that were opened (R144). -/
def openedFrames (e : Env) (g : Regs) : List (Nat × Nat) :=
  (presentFrames e g).filter (fun f => (tablesOf e g f.1 f.2).ok)

/-- The answer to FRM.Fetch for a cell. -/
def bytesOf (e : Env) (g : Regs) (fr fc sr sc : Nat) : FetchAnswer :=
  e.cell.answer (cell16 (u32 g.framesV - 1 - fr), cell16 fc, cell3 sr, cell3 sc)

/-- The cells `(fr, fc, sr, sc)` whose bytes were fetched, in the order they were visited (R145). -/
def fetchedCells (e : Env) (g : Regs) : List (Nat × Nat × Nat × Nat) :=
  (openedFrames e g).flatMap (fun f =>
    (coveredSubs (clip g).y0 (clip g).y1 (f.1 * 1536)).flatMap (fun sr =>
      ((coveredSubs (clip g).x0 (clip g).x1 (f.2 * 1536)).filter (fun sc => (bytesOf e g f.1 f.2 sr sc).ok)).map
        (fun sc => (f.1, f.2, sr, sc))))

/-! ### Pixels -/

/-- The pixel lies in the requested rectangle and in the image (R14, R16). -/
def Requested (g : Regs) (x y : Int) : Prop :=
  rectLeft g ≤ x ∧ x < rectLeft g + rectWidth g ∧ rectTop g ≤ y ∧ y < rectTop g + rectHeight g ∧
  0 ≤ x ∧ x < u32 g.imgW ∧ 0 ≤ y ∧ y < u32 g.imgH

/-- The pixel lies in frame `(fr, fc)` (R15). -/
def InFrame (fr fc : Nat) (x y : Int) : Prop :=
  (fc * 1536 : Int) ≤ x ∧ x < (fc + 1) * 1536 ∧ (fr * 1536 : Int) ≤ y ∧ y < (fr + 1) * 1536

/-- The pixel lies in sub-frame `(sr, sc)` of frame `(fr, fc)` (R15, R137). -/
def InCell (fr fc sr sc : Nat) (x y : Int) : Prop :=
  (fc * 1536 + sc * 256 : Int) ≤ x ∧ x < fc * 1536 + (sc + 1) * 256 ∧
  (fr * 1536 + sr * 256 : Int) ≤ y ∧ y < fr * 1536 + (sr + 1) * 256

/-! ### Bus errors (R68) -/

/-- The six ranges of R61, and no other offset. -/
def Mapped (a : Nat) : Prop :=
  a ≤ 0xFF ∨ (0x10000 ≤ a ∧ a ≤ 0x1FFFF) ∨ (0x20000 ≤ a ∧ a ≤ 0x203FF) ∨ (0x30000 ≤ a ∧ a ≤ 0x317FF) ∨
  (0x40000 ≤ a ∧ a ≤ 0x6FFFF) ∨ (0x800000 ≤ a ∧ a ≤ 0xFFFFFF)

/-- The offsets of the RO registers of R20: ID, STATUS, FLAGS, and all from IMG_W to FOPEN_CNT. -/
def readOnlyOffsets : List Nat :=
  [0x00, 0x08, 0x0C, 0x38, 0x3C, 0x40, 0x44, 0x48, 0x4C, 0x50, 0x54, 0x58, 0x5C, 0x60, 0x64, 0x68, 0x6C, 0x70, 0x74,
    0x78, 0x7C]

/-- The six cases of R68, in its order, with the offsets of R61 and R20 as numbers. -/
def IsBusError (t : Txn) : Prop :=
  let a := t.addr.toNat
  ¬ Mapped a ∨
  (0x80 ≤ a ∧ a ≤ 0xFF) ∨
  (t.width = 32 ∧ a % 4 ≠ 0) ∨
  (t.width = 8 ∧ a ≤ 0xFF) ∨
  (t.width = 32 ∧ t.dir = .write ∧ a ∈ readOnlyOffsets) ∨
  (t.width ≠ 8 ∧ t.width ≠ 32)

end Sys2Proof.Machine
end

