-- ==== Sys2Proof/Certificates/Slice0/Obligations.lean ====
section
/-! DEFINITION. Statements about VQTC, from the numbered rules of spec/. Each says of a command where it ends with its
own effect, what it writes, and what it leaves. -/

open Sys2Proof Sys2Proof.Machine

/-! ### Command words (30_encoding.md) -/

/-- Words of R93 and of the vectors V-E3, V-E4, V-E11, V-E13, V-E14, V-E16 of 95_test_vectors.md. -/
def Obligations.KnownWordsDecode : Prop :=
  decode 0x01000000 = .command .openSource ∧ decode 0x02000000 = .command .closeSource ∧
  decode 0x03000000 = .command (.getTile 0) ∧ decode 0x030000FF = .command (.getTile 255) ∧
  decode 0x04000000 = .command .getImageRect ∧ decode 0x10000000 = .command .decode ∧
  decode 0x11000000 = .command .frange ∧ decode 0x12000000 = .command .srange ∧
  decode 0x13000000 = .command .tfill ∧ decode 0x14000000 = .command .blkcopy ∧
  decode 0x00000000 = .illegal .opcode ∧ decode 0x01000001 = .illegal .imm8 ∧
  decode 0x03000100 = .illegal .zero16 ∧ decode 0x05000000 = .illegal .opcode

/-- R99, last sentence: `decode(encode(c)) = c` for every command, and `encode(decode(w)) = w` for every legal word. -/
def Obligations.DecodeAndEncodeAgree : Prop :=
  (∀ i, WellFormed i = true → decode (encode i) = .command i) ∧
  (∀ w i, decode w = .command i → WellFormed i = true ∧ encode i = w)

/-- R93: a word selects a command if and only if its masked bits are that row's pattern. -/
def Obligations.DecodeFollowsOpcodeTable : Prop :=
  ∀ w, (∀ i, decode w = .command i → ∃ row, opcodeTable[rowIndex i]? = some row ∧ row.selects w = true) ∧
    (∀ k row, opcodeTable[k]? = some row → row.selects w = true → ∃ i, decode w = .command i ∧ rowIndex i = k)

/-- R94: the illegal words are the three cases it lists, and writing one to CMD sets STATUS.ERR to E_ILLEGAL and changes
nothing else. R204: the write is acknowledged with OKAY; the data 0 of a write's answer is the model's choice (log entry 6). -/
def Obligations.IllegalWordOnlySetsErr : Prop :=
  ∀ (w : Word) (s : State) (rest : List Event),
    (opField w ∉ [0x01, 0x02, 0x03, 0x04, 0x10, 0x11, 0x12, 0x13, 0x14] ∨ zeroField w ≠ 0 ∨
      (opField w ≠ 0x03 ∧ immField w ≠ 0) ↔ ∃ why, decode w = .illegal why) ∧
    (s.inbox = commandEvent w :: rest → (∃ why, decode w = .illegal why) →
      step s = .next { s with
        reg := { s.reg with err := .illegal }, inbox := rest, answer := some ⟨.okay, 0⟩ })

/-! ### Steps -/

/-- R22, R81, R204: a write of a command's word to CMD runs that command to its end and is then acknowledged with OKAY; the
data 0 of a write's answer is the model's choice (log entry 6). -/
def Obligations.StepRunsDecodedCommand : Prop :=
  ∀ (s : State) (rest : List Event) (w : Word) (i : Instr),
    s.inbox = commandEvent w :: rest → decode w = .command i →
    step s = match exec i { s with inbox := rest } with
      | .next t => .next { t with answer := some ⟨.okay, 0⟩ }
      | .fault f => .fault f
      | .refused r => .refused r

/-- R215 and R187: with nothing to serve the engine holds all state; a change of the environment changes no register and no
memory. The model's choice: the step with nothing to serve answers the same state (log entry 15), and a change of the
environment leaves no answer to the host (log entry 6). -/
def Obligations.IdleAndEnvironmentSteps : Prop :=
  (∀ s : State, s.inbox = [] → step s = .next s) ∧
  (∀ (s : State) (e : Env) (rest : List Event), s.inbox = .envChange e :: rest →
    step s = .next { s with inbox := rest, env := e, answer := none })

/-! ### Reset (70_reset_and_hazards.md) -/

/-- R49: what the host reads of each register after reset. R49 calls the memories unspecified; that a byte nothing has
written has no value is R232's model, as log entry 4 takes it. -/
def Obligations.ResetValues : Prop :=
  State.reset.reg.state = .closed ∧ State.reset.reg.product = .unknown ∧
  readReg .id State.reset.reg = 0x56510001 ∧
  (∀ r : RegName, r ≠ .id → readReg r State.reset.reg = 0) ∧
  (∀ a, State.reset.mem.read a = none)

/-- R230, R232: reset between transactions gives every register its reset value and leaves the memories alone;
power-up takes every byte's value away. The model's choice: power-up resets the registers in the same event (log entry 18),
and reset keeps the environment, the events to come and the record, and clears the last answer (log entry 17). -/
def Obligations.ResetKeepsMemories : Prop :=
  ∀ (s : State) (rest : List Event),
    (s.inbox = .reset :: rest →
      step s = .next { s with reg := Regs.reset, inbox := rest, answer := none }) ∧
    (s.inbox = .powerUp :: rest →
      ∃ t, step s = .next t ∧ t.reg = Regs.reset ∧ ∀ a, t.mem.read a = none)

/-- R230: reset during a command. The registers take their reset values; the memory is what the acts that had happened
made of it: nothing if none had, everything if all had; the same of the record. How many had is the model's input (log entry 8;
log entry 17 for the model's own fields). An illegal word has no acts. A command that would stop for a byte without a value
(log entry 4) is cut too unless reset comes after it consumes that byte. -/
def Obligations.ResetDuringCommand : Prop :=
  ∀ (s : State) (rest : List Event) (w : Word) (n : Nat), s.inbox = .resetDuring w n :: rest →
    ((∃ why, decode w = .illegal why) →
      step s = .next { s with reg := Regs.reset, inbox := rest, answer := none }) ∧
    (∀ (i : Instr) (t : State), decode w = .command i → exec i { s with inbox := rest } = .next t →
      ∃ u, step s = .next u ∧ u.reg = Regs.reset ∧ u.inbox = rest ∧ u.env = s.env ∧ u.answer = none ∧
        u.mem = replay ((actsBetween s t).take n) s.mem ∧
        u.hist = ((actsBetween s t).take n).reverse ++ s.hist ∧
        (n = 0 → u.mem = s.mem ∧ u.hist = s.hist) ∧
        ((actsBetween s t).length ≤ n → u.mem = t.mem ∧ u.hist = t.hist)) ∧
    (∀ (i : Instr) (a : Nat), decode w = .command i → exec i { s with inbox := rest } = .fault (.unwrittenByte a) →
      ∃ t, runInstr i { s with inbox := rest } = .error ⟨.unwrittenByte a, t⟩ ∧
        (n ≤ (actsBetween s t).length →
          ∃ u, step s = .next u ∧ u.reg = Regs.reset ∧ u.inbox = rest ∧ u.env = s.env ∧ u.answer = none ∧
            u.mem = replay ((actsBetween s t).take n) s.mem ∧
            u.hist = ((actsBetween s t).take n).reverse ++ s.hist) ∧
        ((actsBetween s t).length < n → step s = .fault (.unwrittenByte a)))

/-- R230, R189: a command that waits for ever on a port is ended by reset (log entries 8, 9, 17). The registers take their
reset values; the memories and the record keep what the acts before the wait had made of them, as many as had happened, all
of them from the last act on. The acts of an OPEN that waits are its one request. -/
def Obligations.ResetEndsHang : Prop :=
  ∀ (s : State) (rest : List Event) (w : Word) (n : Nat) (i : Instr) (r : PortReq),
    s.inbox = .resetDuring w n :: rest → decode w = .command i →
    exec i { s with inbox := rest } = .fault (.portHang r) →
    ∃ u t, step s = .next u ∧ runInstr i { s with inbox := rest } = .error ⟨.portHang r, t⟩ ∧
      u.reg = Regs.reset ∧ u.inbox = rest ∧ u.env = s.env ∧ u.answer = none ∧
      u.mem = replay ((actsBetween s t).take n) s.mem ∧
      u.hist = ((actsBetween s t).take n).reverse ++ s.hist ∧
      (n = 0 → u.mem = s.mem ∧ u.hist = s.hist) ∧
      ((actsBetween s t).length ≤ n → u.mem = t.mem ∧ u.hist = t.hist) ∧
      (i = .openSource → actsBetween s t = [.request r] ∧ u.mem = s.mem)

/-! ### The host bus (20_memory.md) -/

/-- R61, R68: the offsets of the six spaces, as numbers; in each of the six cases the response is ERROR and no state changes;
every other transaction that is answered gets OKAY. The data 0 of an ERROR is R66's for a read; for a write it is the model's
choice (log entry 6). -/
def Obligations.BusErrorsAreExactlyR68 : Prop :=
  (∀ a : Nat,
    (isReg a = true ↔ a ≤ 0xFF) ∧
    (isMemory a = true ↔ (0x10000 ≤ a ∧ a ≤ 0x1FFFF) ∨ (0x20000 ≤ a ∧ a ≤ 0x203FF) ∨ (0x30000 ≤ a ∧ a ≤ 0x317FF) ∨
      (0x40000 ≤ a ∧ a ≤ 0x6FFFF) ∨ (0x800000 ≤ a ∧ a ≤ 0xFFFFFF))) ∧
  ∀ (s : State) (t : Txn) (rest : List Event), s.inbox = .bus t :: rest →
    (IsBusError t → step s = .next { s with inbox := rest, answer := some ⟨.error, 0⟩ }) ∧
    (¬ IsBusError t → ∀ u, step s = .next u → ∃ d, u.answer = some ⟨.okay, d⟩)

/-- R66, R72: a Read32 of a register answers what that register reads, and no read, of a register or a memory, changes
any state. -/
def Obligations.ReadsHaveNoSideEffect : Prop :=
  (∀ (s : State) (a d : Word) (r : RegName) (rest : List Event),
    regAt a.toNat = some r → s.inbox = .bus ⟨.read, 32, a, d⟩ :: rest →
    step s = .next { s with inbox := rest, answer := some ⟨.okay, readReg r s.reg⟩ }) ∧
  (∀ (s : State) (t : Txn) (rest : List Event) (u : State), s.inbox = .bus t :: rest → t.dir = .read →
    step s = .next u → u = { s with inbox := rest, answer := u.answer })

/-- R70, R72: a Write32 of a memory stores its four bytes little-endian and changes no other byte; a Read32 of the same
offset then returns the word, and a Read8 of each of the four its byte. A Read32 of four bytes, however they were written,
returns them in that order. The data 0 of the write's answer is the model's choice (log entry 6). -/
def Obligations.WordAccessIsLittleEndian : Prop :=
  ∀ (s : State) (a d : Word) (rest : List Event),
    a.toNat % 4 = 0 → isMemory a.toNat = true → s.inbox = .bus ⟨.write, 32, a, d⟩ :: rest →
    ∃ u, step s = .next u ∧ u.answer = some ⟨.okay, 0⟩ ∧ u.reg = s.reg ∧ u.inbox = rest ∧
      (∀ k < 4, u.mem.read (a.toNat + k) = some (BitVec.ofNat 8 (d.toNat / 256 ^ k))) ∧
      (∀ x, (x < a.toNat ∨ a.toNat + 4 ≤ x) → u.mem.read x = s.mem.read x) ∧
      (∀ x more, step { u with inbox := .bus ⟨.read, 32, a, x⟩ :: more } =
        .next { u with inbox := more, answer := some ⟨.okay, d⟩ }) ∧
      (∀ (b x : Word) more, ∀ k < 4, b.toNat = a.toNat + k →
        step { u with inbox := .bus ⟨.read, 8, b, x⟩ :: more } =
          .next { u with inbox := more, answer := some ⟨.okay, BitVec.ofNat 32 (d.toNat / 256 ^ k % 256)⟩ }) ∧
      (∀ (b0 b1 b2 b3 : Byte) x more, s.mem.read a.toNat = some b0 → s.mem.read (a.toNat + 1) = some b1 →
        s.mem.read (a.toNat + 2) = some b2 → s.mem.read (a.toNat + 3) = some b3 →
        step { s with inbox := .bus ⟨.read, 32, a, x⟩ :: more } =
          .next { s with inbox := more, answer := some ⟨.okay, b3 ++ b2 ++ b1 ++ b0⟩ })

/-- R66, R72: a Write8 of a memory changes that byte only, and a Read8 returns it; a byte that nothing has written has no
value and reading it stops the model (R232, log entry 4). The data 0 of the write's answer is the model's choice (log
entry 6). -/
def Obligations.ByteAccess : Prop :=
  ∀ (s : State) (a : Word) (rest : List Event), isMemory a.toNat = true →
    (∀ d : Word, s.inbox = .bus ⟨.write, 8, a, d⟩ :: rest →
      ∃ u, step s = .next u ∧ u.answer = some ⟨.okay, 0⟩ ∧ u.reg = s.reg ∧
        u.mem.read a.toNat = some (d.setWidth 8) ∧ ∀ x, x ≠ a.toNat → u.mem.read x = s.mem.read x) ∧
    (∀ d : Word, s.inbox = .bus ⟨.read, 8, a, d⟩ :: rest →
      step s = match s.mem.read a.toNat with
        | some v => .next { s with inbox := rest, answer := some ⟨.okay, v.setWidth 32⟩ }
        | none => .fault (.unwrittenByte a.toNat))

/-- R20, R30, R72: a Write32 of an RW register changes what that register reads and no other register or memory byte; all
bits are stored, but for BLANK, which keeps [7:0]. The data 0 of the write's answer is the model's choice (log entry 6). -/
def Obligations.RegisterWriteThenRead : Prop :=
  ∀ (s : State) (a d : Word) (r : RegName) (rest : List Event),
    regAt a.toNat = some r → regAccess r = .rw → s.inbox = .bus ⟨.write, 32, a, d⟩ :: rest →
    ∃ u, step s = .next u ∧ u.answer = some ⟨.okay, 0⟩ ∧ u.mem = s.mem ∧ u.hist = s.hist ∧
      readReg r u.reg = (if r = .blank then d &&& 0xFF else d) ∧
      ∀ q, q ≠ r → readReg q u.reg = readReg q s.reg

/-- R21, R22, R23, R27, R30, R201: what ID, CMD, STATUS, FLAGS and BLANK read, field by field, with the ten codes of
STATUS.ERR as numbers. -/
def Obligations.StatusAndFlagsFields : Prop :=
  ∀ g : Regs,
    (statusWord g).extractLsb' 0 2 =
      (match g.state with
        | .closed => 0
        | .opening => 1
        | .opened => 2) ∧
    (statusWord g).extractLsb' 2 2 =
      (match g.product with
        | .unknown => 0
        | .grayscale => 1
        | .rgb => 2) ∧
    (statusWord g).extractLsb' 4 4 = 0 ∧
    (statusWord g).extractLsb' 8 8 =
      (match g.err with
        | .ok => 0
        | .config => 1
        | .notOpen => 2
        | .frameUnavail => 3
        | .corrupt => 4
        | .illegal => 5
        | .badState => 6
        | .noOverview => 7
        | .tileCap => 8
        | .badArg => 9) ∧
    (statusWord g).extractLsb' 16 16 = 0 ∧
    (flagsWord g).getLsbD 0 = g.empty ∧ (flagsWord g).extractLsb' 1 31 = 0 ∧
    readReg .status g = statusWord g ∧ readReg .flags g = flagsWord g ∧
    readReg .id g = 0x56510001 ∧ readReg .cmd g = 0 ∧
    (readReg .blank g).extractLsb' 0 8 = g.blank ∧ (readReg .blank g).extractLsb' 8 24 = 0

/-- R97, R98, R20: the transactions of the pseudo-lines SETRECT, SETFRAME and SETSUB, with the registers' offsets as numbers,
and what they leave when the host makes them: the values in their registers and nothing else. A value from 0 to 2^32 - 1 is
stored as it is, a negative one down to -2^31 as its two's complement, which R97 gives RECT_X0 and RECT_Y0; for other
registers and other values the narrowing is the model's choice (log entry 12), and so is the data 0 of a write's answer (log
entry 6). -/
def Obligations.ProgramLinesWriteTheirRegisters : Prop :=
  (∀ r : RegName, regAt (regOffset r) = some r) ∧
  (∀ v : Int, (0 ≤ v → v < 4294967296 → ((wordOf v).toNat : Int) = v) ∧
    (-2147483648 ≤ v → v < 2147483648 → (wordOf v).toInt = v)) ∧
  (∀ x0 y0 w h : Int, expand (.setRect x0 y0 w h) =
    [.bus ⟨.write, 32, 0x18, wordOf x0⟩, .bus ⟨.write, 32, 0x1C, wordOf y0⟩, .bus ⟨.write, 32, 0x20, wordOf w⟩,
      .bus ⟨.write, 32, 0x24, wordOf h⟩]) ∧
  (∀ fr fc : Int, expand (.setFrame fr fc) = [.bus ⟨.write, 32, 0x28, wordOf fr⟩, .bus ⟨.write, 32, 0x2C, wordOf fc⟩]) ∧
  (∀ sr sc : Int, expand (.setSub sr sc) = [.bus ⟨.write, 32, 0x30, wordOf sr⟩, .bus ⟨.write, 32, 0x34, wordOf sc⟩]) ∧
  (∀ (s : State) (x0 y0 w h : Int), s.inbox = [] →
    Host.Core.run core 4 (s.withProgram [.setRect x0 y0 w h]) = .next { s with
      reg := { s.reg with rectX0 := wordOf x0, rectY0 := wordOf y0, rectW := wordOf w, rectH := wordOf h }
      answer := some ⟨.okay, 0⟩ }) ∧
  (∀ (s : State) (fr fc sr sc : Int), s.inbox = [] →
    Host.Core.run core 4 (s.withProgram [.setFrame fr fc, .setSub sr sc]) = .next { s with
      reg := { s.reg with curFr := wordOf fr, curFc := wordOf fc, curSr := wordOf sr, curSc := wordOf sc }
      answer := some ⟨.okay, 0⟩ })

/-! ### The decoder (40_decode.md) -/

/-- R111: the two codes of a triple, as arithmetic, and every bit of the three bytes in exactly one code. -/
def Obligations.CodesOfTriple : Prop :=
  ∀ b0 b1 b2 : Byte,
    (code1 b0 b1).toNat = b0.toNat * 16 + b1.toNat / 16 ∧
    (code2 b1 b2).toNat = b1.toNat % 16 * 256 + b2.toNat ∧
    (code1 b0 b1).toNat ≤ 4095 ∧ (code2 b1 b2).toNat ≤ 4095 ∧
    code1 b0 b1 ++ code2 b1 b2 = b0 ++ b1 ++ b2

/-- R110, R114, R116: in Open, when every byte it consumes has a value, DECODE ends with success, each byte of the BANDS
planes of BLK is the one the inverse form gives, and nothing else changes but STATUS.ERR. -/
def Obligations.DecodeFillsBlock : Prop :=
  ∀ (s : State) (n : Nat), OpenWith n s →
    (∀ b < n, ∀ r < 256, ∀ c < 256, (decodedByte s.mem b r c).isSome = true) →
    ∃ t, exec .decode s = .next t ∧ t.reg = { s.reg with err := .ok } ∧
      t.env = s.env ∧ t.inbox = s.inbox ∧ t.answer = s.answer ∧ portTrace t = portTrace s ∧
      (∀ b < n, ∀ r < 256, ∀ c < 256,
        t.mem.read (Config.blkBase + (b * 65536 + r * 256 + c)) = decodedByte s.mem b r c) ∧
      (∀ a, (a < Config.blkBase ∨ Config.blkBase + n * 65536 ≤ a) → t.mem.read a = s.mem.read a)

/-- R232 and 93_implementation_defined.md U1: DECODE stops when a byte it consumes was never written, and it names
such a byte: one of those that the decode of some pixel reads (log entry 4). -/
def Obligations.DecodeStopsOnUnwrittenByte : Prop :=
  ∀ (s : State) (n : Nat), OpenWith n s →
    (∃ b < n, ∃ r < 256, ∃ c < 256, decodedByte s.mem b r c = none) →
    ∃ a, exec .decode s = .fault (.unwrittenByte a) ∧ s.mem.read a = none ∧
      ∃ b < n, ∃ r < 256, ∃ c < 256, a ∈ decodeReads s.mem b r c

/-- R114, R118: DECODE writes every byte of the BANDS planes exactly once and writes no other byte. -/
def Obligations.DecodeWritesEachByteOnce : Prop :=
  ∀ (s t : State) (n : Nat), OpenWith n s → exec .decode s = .next t →
    ∃ new : List (Nat × Byte), t.hist = new.map (fun p => Act.write p.1 p.2) ++ s.hist ∧
      (new.map Prod.fst).Nodup ∧
      ∀ a, a ∈ new.map Prod.fst ↔ Config.blkBase ≤ a ∧ a < Config.blkBase + n * 65536

/-- R117: plane 0 of an RGB decode equals the Grayscale decode of the same CBUF and CB and of a palette whose byte 0 is the
same. -/
def Obligations.PlaneZeroIsGrayscale : Prop :=
  ∀ s1 s2 t1 : State, OpenWith 3 s1 → OpenWith 1 s2 →
    (∀ p < 6144, s1.mem.read (Config.cbufBase + p) = s2.mem.read (Config.cbufBase + p)) →
    (∀ k < 65536, s1.mem.read (Config.cbBase + k) = s2.mem.read (Config.cbBase + k)) →
    (∀ idx < 256, s1.mem.read (Config.palBase + idx * 4) = s2.mem.read (Config.palBase + idx * 4)) →
    exec .decode s1 = .next t1 →
    ∃ t2, exec .decode s2 = .next t2 ∧
      ∀ r < 256, ∀ c < 256,
        t1.mem.read (Config.blkBase + (r * 256 + c)) = t2.mem.read (Config.blkBase + (r * 256 + c))

/-! ### Addressing (41_compositor.md) -/

/-- R131, R132: FRANGE. Outside Open it ends with E_NOTOPEN and writes nothing else; in Open it leaves the registers
given, with the clip rectangle written out. -/
def Obligations.FrangeResult : Prop :=
  encode .frange = 0x11000000 ∧
  (∀ s : State, s.reg.state ≠ .opened → exec .frange s = .next { s with reg := { s.reg with err := .notOpen } }) ∧
  ∀ s : State, s.reg.state = .opened →
    let cx0 := max s.reg.rectX0.toInt 0
    let cx1 := min (s.reg.rectX0.toInt + s.reg.rectW.toNat) s.reg.imgW.toNat - 1
    let cy0 := max s.reg.rectY0.toInt 0
    let cy1 := min (s.reg.rectY0.toInt + s.reg.rectH.toNat) s.reg.imgH.toNat - 1
    exec .frange s = .next { s with reg :=
      if cx0 > cx1 ∨ cy0 > cy1 then
        { s.reg with empty := true, fr0 := 0, fr1 := 0, fc0 := 0, fc1 := 0, err := .ok }
      else
        { s.reg with
          empty := false
          fr0 := BitVec.ofInt 32 (cy0 / 1536)
          fr1 := BitVec.ofInt 32 (cy1 / 1536)
          fc0 := BitVec.ofInt 32 (cx0 / 1536)
          fc1 := BitVec.ofInt 32 (cx1 / 1536)
          err := .ok } }

/-- R27, R132, R147: EMPTY is set exactly when the rectangle and the image share no pixel; else the range FR0..FR1,
FC0..FC1 holds exactly the frames that contain a shared pixel. -/
def Obligations.FrangeCoversExactlyTheFrames : Prop :=
  ∀ s : State, s.reg.state = .opened →
    ∃ t, exec .frange s = .next t ∧
      (t.reg.empty = true ↔ ¬ ∃ x y, Requested s.reg x y) ∧
      (t.reg.empty = false → ∀ fr fc : Nat,
        (u32 t.reg.fr0 ≤ fr ∧ fr ≤ u32 t.reg.fr1 ∧ u32 t.reg.fc0 ≤ fc ∧ fc ≤ u32 t.reg.fc1 ↔
          ∃ x y, Requested s.reg x y ∧ InFrame fr fc x y))

/-- R134, R136: SRANGE on a frame of the grid inverts the row, sets EMPTY exactly when rectangle, image and frame share
no pixel, and else finds exactly the sub-frames that contain a shared pixel; it writes no other register. -/
def Obligations.SrangeCoversExactlyTheSubframes : Prop :=
  ∀ s : State, s.reg.state = .opened →
    u32 s.reg.curFr < u32 s.reg.framesV → u32 s.reg.curFc < u32 s.reg.framesH →
    ∃ t, exec .srange s = .next t ∧
      t = { s with reg := { s.reg with
        empty := t.reg.empty, sr0 := t.reg.sr0, sr1 := t.reg.sr1, sc0 := t.reg.sc0, sc1 := t.reg.sc1
        diskRow := t.reg.diskRow, err := .ok } } ∧
      u32 t.reg.diskRow = u32 s.reg.framesV - 1 - u32 s.reg.curFr ∧
      (t.reg.empty = true ↔
        ¬ ∃ x y, Requested s.reg x y ∧ InFrame (u32 s.reg.curFr) (u32 s.reg.curFc) x y) ∧
      (t.reg.empty = true → t.reg.sr0 = 0 ∧ t.reg.sr1 = 0 ∧ t.reg.sc0 = 0 ∧ t.reg.sc1 = 0) ∧
      (t.reg.empty = false → ∀ sr sc : Nat,
        (u32 t.reg.sr0 ≤ sr ∧ sr ≤ u32 t.reg.sr1 ∧ u32 t.reg.sc0 ≤ sc ∧ sc ≤ u32 t.reg.sc1 ↔
          sr < 6 ∧ sc < 6 ∧
          ∃ x y, Requested s.reg x y ∧ InCell (u32 s.reg.curFr) (u32 s.reg.curFc) sr sc x y))

/-- R136, R206: outside the grid SRANGE ends with E_BADARG, after the state check, and writes nothing else. -/
def Obligations.SrangeBadArgument : Prop :=
  ∀ s : State, s.reg.state = .opened →
    (u32 s.reg.framesV ≤ u32 s.reg.curFr ∨ u32 s.reg.framesH ≤ u32 s.reg.curFc) →
    exec .srange s = .next { s with reg := { s.reg with err := .badArg } }

/-- R134: the inversion is its own inverse on the rows of a grid, and stays in the grid. -/
def Obligations.RowInversion : Prop :=
  ∀ g : Regs, u32 g.curFr < u32 g.framesV →
    0 ≤ diskRowOf g ∧ diskRowOf g < u32 g.framesV ∧
    diskRowOf { g with curFr := wordOf (diskRowOf g) } = u32 g.curFr

/-- R137, R139, R141: the blocks partition the image. Two BLKCOPYs of one rectangle at different cursors never write the
same byte of memory; and each pixel of rectangle and image is copied by BLKCOPY at exactly one cursor of the grid. -/
def Obligations.CellsPartitionTheImage : Prop :=
  (∀ s1 s2 t1 t2 : State,
    s2.reg.rectX0 = s1.reg.rectX0 → s2.reg.rectY0 = s1.reg.rectY0 →
    s2.reg.rectW = s1.reg.rectW → s2.reg.rectH = s1.reg.rectH →
    (s1.reg.curFr, s1.reg.curFc, s1.reg.curSr, s1.reg.curSc) ≠ (s2.reg.curFr, s2.reg.curFc, s2.reg.curSr, s2.reg.curSc) →
    exec .blkcopy s1 = .next t1 → exec .blkcopy s2 = .next t2 →
    ∀ a v1 v2, Act.write a v1 ∈ actsBetween s1 t1 → Act.write a v2 ∉ actsBetween s2 t2) ∧
  (∀ (s : State) (n : Nat) (x y : Int), Inv s → OpenWith n s → TileFits n s → Requested s.reg x y →
    (∀ b < n, ∀ k < 65536, (s.mem.read (Config.blkBase + (b * 65536 + k))).isSome = true) →
    ∀ b < n, ∃! cell : Nat × Nat × Nat × Nat,
      cell.1 < u32 s.reg.framesV ∧ cell.2.1 < u32 s.reg.framesH ∧ cell.2.2.1 < 6 ∧ cell.2.2.2 < 6 ∧
      ∃ u t v, u = { s with reg := { s.reg with
          curFr := wordOfNat cell.1, curFc := wordOfNat cell.2.1
          curSr := wordOfNat cell.2.2.1, curSc := wordOfNat cell.2.2.2 } } ∧
        exec .blkcopy u = .next t ∧
        Act.write (Config.tileBase + (b * (rectWidth s.reg * rectHeight s.reg) +
          (y - rectTop s.reg).toNat * rectWidth s.reg + (x - rectLeft s.reg).toNat)) v ∈ actsBetween u t)

/-- R71, R141: the offset formula puts each byte of a tile at its own offset, inside the tile. -/
def Obligations.TileOffsetsAreDistinct : Prop :=
  ∀ (n w h b r c b' r' c' : Nat), b < n → r < h → c < w → b' < n → r' < h → c' < w →
    planar (w * h) w b r c < w * h * n ∧
    (planar (w * h) w b r c = planar (w * h) w b' r' c' → b = b' ∧ r = r' ∧ c = c')

/-! ### Fill and copy (41_compositor.md) -/

/-- R138: in Open, when the tile fits, TFILL makes every byte of the tile BLANK and changes nothing else but
STATUS.ERR. -/
def Obligations.TfillBlanksTheTile : Prop :=
  ∀ (s : State) (n : Nat), OpenWith n s → TileFits n s →
    ∃ t, exec .tfill s = .next t ∧ t.reg = { s.reg with err := .ok } ∧
      t.env = s.env ∧ t.inbox = s.inbox ∧ t.answer = s.answer ∧ portTrace t = portTrace s ∧
      (∀ o < rectWidth s.reg * rectHeight s.reg * n, t.mem.read (Config.tileBase + o) = some s.reg.blank) ∧
      (∀ a, (a < Config.tileBase ∨ Config.tileBase + rectWidth s.reg * rectHeight s.reg * n ≤ a) →
        t.mem.read a = s.mem.read a)

/-- R138, R139, R165, R206: a tile that does not fit ends TFILL, BLKCOPY (after its argument check) and GETTILE at level 0
with E_TILECAP and no other effect. -/
def Obligations.TileTooLarge : Prop :=
  ∀ (s : State) (n : Nat), OpenWith n s → Config.tileCap < rectWidth s.reg * rectHeight s.reg * n →
    exec .tfill s = .next { s with reg := { s.reg with err := .tileCap } } ∧
    exec (.getTile 0) s = .next { s with reg := { s.reg with err := .tileCap } } ∧
    (u32 s.reg.curFr < u32 s.reg.framesV → u32 s.reg.curFc < u32 s.reg.framesH →
      u32 s.reg.curSr < 6 → u32 s.reg.curSc < 6 →
      exec .blkcopy s = .next { s with reg := { s.reg with err := .tileCap } })

/-- R139: a cursor outside the frame grid or the 6 × 6 sub-frame grid ends BLKCOPY with E_BADARG, whatever the tile. -/
def Obligations.BlkcopyBadArgument : Prop :=
  ∀ s : State, s.reg.state = .opened →
    (u32 s.reg.framesV ≤ u32 s.reg.curFr ∨ u32 s.reg.framesH ≤ u32 s.reg.curFc ∨
      6 ≤ u32 s.reg.curSr ∨ 6 ≤ u32 s.reg.curSc) →
    exec .blkcopy s = .next { s with reg := { s.reg with err := .badArg } }

/-- R139 to R141: in Open, with the cursor in the grid, a tile that fits and a value in every byte of BLK under the clip,
BLKCOPY ends with success; every pixel of the tile that lies in the image and in the block is the block's, every other byte
of memory keeps its value, and no register changes but STATUS.ERR. -/
def Obligations.BlkcopyCopiesTheClippedBlock : Prop :=
  ∀ (s : State) (n : Nat), OpenWith n s → TileFits n s →
    u32 s.reg.curFr < u32 s.reg.framesV → u32 s.reg.curFc < u32 s.reg.framesH →
    u32 s.reg.curSr < 6 → u32 s.reg.curSc < 6 →
    let fr := u32 s.reg.curFr
    let fc := u32 s.reg.curFc
    let sr := u32 s.reg.curSr
    let sc := u32 s.reg.curSc
    let source (b : Nat) (x y : Int) := Config.blkBase +
      (b * 65536 + (y - (fr * 1536 + sr * 256 : Nat)).toNat * 256 + (x - (fc * 1536 + sc * 256 : Nat)).toNat)
    (∀ b < n, ∀ x y, Requested s.reg x y → InCell fr fc sr sc x y → (s.mem.read (source b x y)).isSome = true) →
    ∃ t, exec .blkcopy s = .next t ∧ t.reg = { s.reg with err := .ok } ∧
      t.env = s.env ∧ t.inbox = s.inbox ∧ t.answer = s.answer ∧ portTrace t = portTrace s ∧
      (∀ b < n, ∀ r < rectHeight s.reg, ∀ c < rectWidth s.reg,
        let x := rectLeft s.reg + c
        let y := rectTop s.reg + r
        let o := Config.tileBase + (b * (rectWidth s.reg * rectHeight s.reg) + r * rectWidth s.reg + c)
        (Requested s.reg x y ∧ InCell fr fc sr sc x y → t.mem.read o = s.mem.read (source b x y)) ∧
        (¬ (Requested s.reg x y ∧ InCell fr fc sr sc x y) → t.mem.read o = s.mem.read o)) ∧
      (∀ a, (a < Config.tileBase ∨ Config.tileBase + rectWidth s.reg * rectHeight s.reg * n ≤ a) →
        t.mem.read a = s.mem.read a)

/-- R232, 93_implementation_defined.md U1: BLKCOPY stops when a byte of BLK under the clip was never written, and
it names such a byte: the one of some band and pixel that it copies (log entry 4). -/
def Obligations.BlkcopyStopsOnUnwrittenByte : Prop :=
  ∀ (s : State) (n : Nat), OpenWith n s → TileFits n s →
    u32 s.reg.curFr < u32 s.reg.framesV → u32 s.reg.curFc < u32 s.reg.framesH →
    u32 s.reg.curSr < 6 → u32 s.reg.curSc < 6 →
    let fr := u32 s.reg.curFr
    let fc := u32 s.reg.curFc
    let sr := u32 s.reg.curSr
    let sc := u32 s.reg.curSc
    let source (b : Nat) (x y : Int) := Config.blkBase +
      (b * 65536 + (y - (fr * 1536 + sr * 256 : Nat)).toNat * 256 + (x - (fc * 1536 + sc * 256 : Nat)).toNat)
    (∃ b < n, ∃ x y, Requested s.reg x y ∧ InCell fr fc sr sc x y ∧ s.mem.read (source b x y) = none) →
    ∃ a, exec .blkcopy s = .fault (.unwrittenByte a) ∧ s.mem.read a = none ∧
      ∃ b < n, ∃ x y, Requested s.reg x y ∧ InCell fr fc sr sc x y ∧ a = source b x y

/-! ### The facade (42_facade.md) -/

/-- R161 to R163: OPEN. Outside Closed it ends with E_BADSTATE and issues no request. From Closed, when the catalog
answers, it issues one CAT.Lookup of HANDLE and ends in Open with the product of the tag and the extent of the whole grid,
or, on another tag or a failed lookup, in Closed with E_CONFIG. -/
def Obligations.OpenResult : Prop :=
  encode .openSource = 0x01000000 ∧
  (∀ s : State, s.reg.state ≠ .closed →
    exec .openSource s = .next { s with reg := { s.reg with err := .badState } }) ∧
  ∀ s : State, s.reg.state = .closed → .catLookup s.reg.handle ∉ s.env.silent →
    let r := s.env.lookup.answer s.reg.handle
    let hist := .request (.catLookup s.reg.handle) :: s.hist
    let grid (p : ProductType) : Regs := { s.reg with
      state := .opened, product := p, err := .ok
      framesH := r.framesH.setWidth 32, framesV := r.framesV.setWidth 32
      imgW := r.framesH.setWidth 32 * 1536, imgH := r.framesV.setWidth 32 * 1536 }
    (r.ok = true → r.tag = 1 → exec .openSource s = .next { s with reg := grid .grayscale, hist := hist }) ∧
    (r.ok = true → r.tag = 3 → exec .openSource s = .next { s with reg := grid .rgb, hist := hist }) ∧
    (r.ok = false ∨ (r.tag ≠ 1 ∧ r.tag ≠ 3) →
      exec .openSource s = .next { s with
        reg := { s.reg with
          state := .closed, product := .unknown, err := .config, imgW := 0, imgH := 0, framesH := 0, framesV := 0 }
        hist := hist })

/-- R164: CLOSE in Open, and outside it. -/
def Obligations.CloseResult : Prop :=
  encode .closeSource = 0x02000000 ∧
  ∀ s : State,
    (s.reg.state = .opened →
      exec .closeSource s = .next { s with reg := { s.reg with
        state := .closed, product := .unknown, imgW := 0, imgH := 0, framesH := 0, framesV := 0, err := .ok } }) ∧
    (s.reg.state ≠ .opened → exec .closeSource s = .next { s with reg := { s.reg with err := .notOpen } })

/-- R166: GETIMAGERECT in Open, and outside it. -/
def Obligations.GetImageRectResult : Prop :=
  encode .getImageRect = 0x04000000 ∧
  ∀ s : State,
    (s.reg.state = .opened →
      exec .getImageRect s = .next { s with reg := { s.reg with
        irX0 := 0, irY0 := 0, irW := s.reg.imgW, irH := s.reg.imgH, err := .ok } }) ∧
    (s.reg.state ≠ .opened → exec .getImageRect s = .next { s with reg := { s.reg with err := .notOpen } })

/-- R167, R206, R209: outside Open every command but OPEN ends with E_NOTOPEN, whatever its other operands, and changes
nothing else; and an OPEN that ends with E_CONFIG leaves the state Closed. -/
def Obligations.ConfigurationGate : Prop :=
  (∀ (i : Instr) (s : State), i ≠ .openSource → s.reg.state ≠ .opened →
    exec i s = .next { s with reg := { s.reg with err := .notOpen } }) ∧
  (∀ s t : State, exec .openSource s = .next t → t.reg.err = .config → t.reg.state = .closed)

/-- R165, R168, R206: a level other than 0 ends GETTILE with E_NOOVERVIEW, before the capacity check, and changes nothing
else. -/
def Obligations.GetTileLevelRefused : Prop :=
  ∀ (s : State) (level : Nat), s.reg.state = .opened → level ≠ 0 →
    exec (.getTile level) s = .next { s with reg := { s.reg with err := .noOverview } }

/-! ### GETTILE (41_compositor.md R142 to R149) -/

/-- R165, R207, R189: once its checks pass and every request is answered GETTILE ends with success, whatever the answers
are and whatever the memories held; it leaves the facade, the image, the operands and the results of GETIMAGERECT. -/
def Obligations.GetTileCompletes : Prop :=
  ∀ (s : State) (n : Nat), OpenWith n s → TileFits n s → AllAnswered s →
    ∃ t, exec (.getTile 0) s = .next t ∧ t.env = s.env ∧ t.inbox = s.inbox ∧ t.answer = s.answer ∧
      t.reg = { s.reg with
        err := .ok, empty := t.reg.empty, fopenCnt := t.reg.fopenCnt
        fr0 := t.reg.fr0, fr1 := t.reg.fr1, fc0 := t.reg.fc0, fc1 := t.reg.fc1
        curFr := t.reg.curFr, curFc := t.reg.curFc, curSr := t.reg.curSr, curSc := t.reg.curSc
        sr0 := t.reg.sr0, sr1 := t.reg.sr1, sc0 := t.reg.sc0, sc1 := t.reg.sc1, diskRow := t.reg.diskRow }

/-- R146: every byte of the tile is BLANK or the pixel that the environment's answers decode to, whatever the visiting
order. -/
def Obligations.GetTilePixels : Prop :=
  ∀ (s : State) (n : Nat), Inv s → OpenWith n s → TileFits n s → AllAnswered s →
    ∃ t, exec (.getTile 0) s = .next t ∧
      ∀ b < n, ∀ r < rectHeight s.reg, ∀ c < rectWidth s.reg,
        t.mem.read (Config.tileBase + (b * (rectWidth s.reg * rectHeight s.reg) + r * rectWidth s.reg + c)) =
          some (tileByte s b r c)

/-- R71, R183, R235: GETTILE changes no byte of TILE beyond the tile, no byte of a palette entry or plane of BLK beyond
BANDS, and no byte outside the memories. -/
def Obligations.GetTileWritesOnlyItsBytes : Prop :=
  ∀ (s t : State) (n : Nat), OpenWith n s → exec (.getTile 0) s = .next t →
    ∀ a, t.mem.read a ≠ s.mem.read a →
      Space.cb.covers a = true ∨ Space.cbuf.covers a = true ∨
      (Space.pal.covers a = true ∧ (a - Config.palBase) % 4 < n) ∨
      (Config.blkBase ≤ a ∧ a < Config.blkBase + n * 65536) ∨
      (Config.tileBase ≤ a ∧ a < Config.tileBase + rectWidth s.reg * rectHeight s.reg * n)

/-- R142 to R145, R147, R188: the requests of a GETTILE, in their order: one group per covered frame. -/
def Obligations.GetTileRequestOrder : Prop :=
  ∀ (s : State) (n : Nat), Inv s → OpenWith n s → TileFits n s → AllAnswered s →
    ∃ t, exec (.getTile 0) s = .next t ∧ portTrace t = portTrace s ++ tileTrace s.env s.reg

/-- R38: after a GETTILE that passed its checks FOPEN_CNT is the number of its FRM.Open requests. -/
def Obligations.GetTileCountsOpens : Prop :=
  ∀ (s : State) (n : Nat), Inv s → OpenWith n s → TileFits n s → AllAnswered s →
    ∃ t new, exec (.getTile 0) s = .next t ∧ portTrace t = portTrace s ++ new ∧
      u32 t.reg.fopenCnt = (new.filter (fun r => match r with
        | .frmOpen _ _ => true
        | _ => false)).length

/-- R143: if no covered frame is present, GETTILE leaves the cursor, SR0..SC1, DISK_ROW, CB, PAL, CBUF and BLK alone,
counts no open, and every byte of the tile is BLANK. -/
def Obligations.GetTileWithNoFramePresent : Prop :=
  ∀ (s : State) (n : Nat), Inv s → OpenWith n s → TileFits n s → AllAnswered s →
    (∀ fr ∈ coveredRows s.reg, ∀ fc ∈ coveredCols s.reg, s.env.present.answer (cell16 fr, cell16 fc) = false) →
    ∃ t, exec (.getTile 0) s = .next t ∧
      t.reg = { s.reg with
        err := .ok, empty := t.reg.empty, fopenCnt := 0
        fr0 := t.reg.fr0, fr1 := t.reg.fr1, fc0 := t.reg.fc0, fc1 := t.reg.fc1 } ∧
      (∀ a, Space.tile.covers a = false → t.mem.read a = s.mem.read a) ∧
      (∀ o < rectWidth s.reg * rectHeight s.reg * n, t.mem.read (Config.tileBase + o) = some s.reg.blank)

/-- R149: a rectangle that shares no pixel with the image gives a tile of BLANK bytes, EMPTY set, FR0..FC1 zero, no
request, no open counted, and success. -/
def Obligations.GetTileOutOfImage : Prop :=
  ∀ (s : State) (n : Nat), OpenWith n s → TileFits n s → (¬ ∃ x y, Requested s.reg x y) →
    ∃ t, exec (.getTile 0) s = .next t ∧
      t.reg = { s.reg with empty := true, fr0 := 0, fr1 := 0, fc0 := 0, fc1 := 0, fopenCnt := 0, err := .ok } ∧
      portTrace t = portTrace s ∧
      (∀ o < rectWidth s.reg * rectHeight s.reg * n, t.mem.read (Config.tileBase + o) = some s.reg.blank) ∧
      (∀ a, (a < Config.tileBase ∨ Config.tileBase + rectWidth s.reg * rectHeight s.reg * n ≤ a) →
        t.mem.read a = s.mem.read a)

/-- R148: two GETTILEs with the same rectangle, BLANK, product, image and answers give the same tile, the same FOPEN_CNT
and the same requests. -/
def Obligations.GetTileIdempotent : Prop :=
  ∀ (s1 s2 : State) (n : Nat), Inv s1 → Inv s2 → OpenWith n s1 → TileFits n s1 → AllAnswered s1 →
    s2.reg.state = .opened → s2.reg.product = s1.reg.product → s2.env = s1.env → s2.reg.blank = s1.reg.blank →
    s2.reg.rectX0 = s1.reg.rectX0 → s2.reg.rectY0 = s1.reg.rectY0 →
    s2.reg.rectW = s1.reg.rectW → s2.reg.rectH = s1.reg.rectH →
    s2.reg.imgW = s1.reg.imgW → s2.reg.imgH = s1.reg.imgH →
    s2.reg.framesH = s1.reg.framesH → s2.reg.framesV = s1.reg.framesV →
    ∃ t1 t2 new, exec (.getTile 0) s1 = .next t1 ∧ exec (.getTile 0) s2 = .next t2 ∧
      (∀ o < rectWidth s1.reg * rectHeight s1.reg * n,
        t1.mem.read (Config.tileBase + o) = t2.mem.read (Config.tileBase + o)) ∧
      t1.reg.fopenCnt = t2.reg.fopenCnt ∧
      portTrace t1 = portTrace s1 ++ new ∧ portTrace t2 = portTrace s2 ++ new

/-! ### Promises of the whole machine -/

/-- R204, R207: a command that ends with an error changes nothing but STATUS.ERR, except OPEN ending with E_CONFIG. -/
def Obligations.FailingCommandChangesOnlyErr : Prop :=
  ∀ (i : Instr) (s t : State), exec i s = .next t → t.reg.err ≠ .ok →
    t = { s with reg := { s.reg with err := t.reg.err } } ∨ (i = .openSource ∧ t.reg.err = .config)

/-- R202: the error codes each command, and an illegal word, can end with. -/
def Obligations.PossibleErrorCodes : Prop :=
  (∀ (w : Word) (s t : State), (∃ why, decode w = .illegal why) → runWord w s = .next t → t.reg.err = .illegal) ∧
  ∀ (i : Instr) (s t : State), exec i s = .next t →
    t.reg.err ∈ (match i with
      | .openSource => [ErrCode.ok, .config, .badState]
      | .closeSource => [ErrCode.ok, .notOpen]
      | .getTile _ => [ErrCode.ok, .notOpen, .noOverview, .tileCap]
      | .getImageRect => [ErrCode.ok, .notOpen]
      | .decode => [ErrCode.ok, .notOpen]
      | .frange => [ErrCode.ok, .notOpen]
      | .srange => [ErrCode.ok, .notOpen, .badArg]
      | .tfill => [ErrCode.ok, .notOpen, .tileCap]
      | .blkcopy => [ErrCode.ok, .notOpen, .badArg, .tileCap])

/-- R24, R25, R28, R30, R31, R33, R34, R160: which commands may change the facade, the product and the image (OPEN and
CLOSE), the results of GETIMAGERECT (itself), and that no command changes what only the host writes. -/
def Obligations.WhoWritesWhichRegister : Prop :=
  ∀ (i : Instr) (s t : State), exec i s = .next t →
    t.reg.handle = s.reg.handle ∧ t.reg.blank = s.reg.blank ∧
    t.reg.rectX0 = s.reg.rectX0 ∧ t.reg.rectY0 = s.reg.rectY0 ∧ t.reg.rectW = s.reg.rectW ∧ t.reg.rectH = s.reg.rectH ∧
    t.env = s.env ∧ t.inbox = s.inbox ∧
    (i ≠ .openSource → i ≠ .closeSource →
      t.reg.state = s.reg.state ∧ t.reg.product = s.reg.product ∧
      t.reg.imgW = s.reg.imgW ∧ t.reg.imgH = s.reg.imgH ∧
      t.reg.framesH = s.reg.framesH ∧ t.reg.framesV = s.reg.framesV) ∧
    (i ≠ .getImageRect →
      t.reg.irX0 = s.reg.irX0 ∧ t.reg.irY0 = s.reg.irY0 ∧ t.reg.irW = s.reg.irW ∧ t.reg.irH = s.reg.irH)

/-- R180, R234: the commands that leave TILE alone, and the commands that issue no port request. -/
def Obligations.WhoTouchesTileAndPorts : Prop :=
  ∀ (i : Instr) (s t : State), exec i s = .next t →
    ((∀ level, i ≠ .getTile level) → i ≠ .tfill → i ≠ .blkcopy →
      ∀ a, Space.tile.covers a = true → t.mem.read a = s.mem.read a) ∧
    ((∀ level, i ≠ .getTile level) → i ≠ .openSource → portTrace t = portTrace s)

/-- The record of acts is complete (log entry 7): every command only adds to it, and doing its byte writes in order gives
the memory it leaves. -/
def Obligations.RecordReplaysMemory : Prop :=
  ∀ (i : Instr) (s t : State), exec i s = .next t →
    (∃ new, t.hist = new ++ s.hist) ∧ replay (actsBetween s t) s.mem = t.mem

/-- R189, 93_implementation_defined.md U5 (log entry 9): OPEN and GETTILE stop only on a request that the environment never
answers, and OPEN, from Closed, stops when its request is one. -/
def Obligations.OnlySilenceStopsPorts : Prop :=
  (∀ (s : State) (n : Nat) (f : Fault), OpenWith n s → exec (.getTile 0) s = .fault f →
    ∃ r ∈ s.env.silent, f = .portHang r) ∧
  (∀ s : State, s.reg.state = .closed → .catLookup s.reg.handle ∈ s.env.silent →
    exec .openSource s = .fault (.portHang (.catLookup s.reg.handle))) ∧
  (∀ (s : State) (f : Fault), exec .openSource s = .fault f →
    .catLookup s.reg.handle ∈ s.env.silent ∧ f = .portHang (.catLookup s.reg.handle))

/-- R13, R24, R25, R33 to R37, R60, R203, R209: the invariant of the machine is kept by every step. -/
def Obligations.StepKeepsInvariant : Prop :=
  ∀ s t : State, Inv s → step s = .next t → Inv t

/-- The invariant holds after reset. -/
def Obligations.ResetMeetsInvariant : Prop := Inv State.reset

/-- R13, R162, log entry 10: from a state that meets the invariant no event makes a command need `bands(Unknown)`. -/
def Obligations.BandsAlwaysDefined : Prop :=
  ∀ s : State, Inv s → step s ≠ .fault .bandsUndefined

/-! ### The map of the registers and spaces (10_state.md R20, 20_memory.md R61) -/

/-- R20, R39, R61: the 32 offsets with their registers and access kinds, and no other; the first and last offset of each
memory; what each register reads of the state, and what a write of each RW register changes. -/
def Obligations.RegisterMap : Prop :=
  (∀ p ∈ ([(0x00, .id, .ro), (0x04, .cmd, .wo), (0x08, .status, .ro), (0x0C, .flags, .ro),
      (0x10, .handle, .rw), (0x14, .blank, .rw), (0x18, .rectX0, .rw), (0x1C, .rectY0, .rw),
      (0x20, .rectW, .rw), (0x24, .rectH, .rw), (0x28, .curFr, .rw), (0x2C, .curFc, .rw),
      (0x30, .curSr, .rw), (0x34, .curSc, .rw), (0x38, .imgW, .ro), (0x3C, .imgH, .ro),
      (0x40, .framesH, .ro), (0x44, .framesV, .ro), (0x48, .irX0, .ro), (0x4C, .irY0, .ro),
      (0x50, .irW, .ro), (0x54, .irH, .ro), (0x58, .fr0, .ro), (0x5C, .fr1, .ro),
      (0x60, .fc0, .ro), (0x64, .fc1, .ro), (0x68, .sr0, .ro), (0x6C, .sr1, .ro),
      (0x70, .sc0, .ro), (0x74, .sc1, .ro), (0x78, .diskRow, .ro), (0x7C, .fopenCnt, .ro)] :
      List (Nat × RegName × Access)),
    regAt p.1 = some p.2.1 ∧ regAccess p.2.1 = p.2.2) ∧
  (∀ a, (regAt a).isSome = true ↔ a % 4 = 0 ∧ a ≤ 0x7C) ∧
  (∀ a, (Space.cb.covers a = true ↔ 0x10000 ≤ a ∧ a ≤ 0x1FFFF) ∧
    (Space.pal.covers a = true ↔ 0x20000 ≤ a ∧ a ≤ 0x203FF) ∧
    (Space.cbuf.covers a = true ↔ 0x30000 ≤ a ∧ a ≤ 0x317FF) ∧
    (Space.blk.covers a = true ↔ 0x40000 ≤ a ∧ a ≤ 0x6FFFF) ∧
    (Space.tile.covers a = true ↔ 0x800000 ≤ a ∧ a ≤ 0xFFFFFF)) ∧
  (∀ g : Regs, readReg .handle g = g.handle ∧
    readReg .rectX0 g = g.rectX0 ∧ readReg .rectY0 g = g.rectY0 ∧ readReg .rectW g = g.rectW ∧ readReg .rectH g = g.rectH ∧
    readReg .curFr g = g.curFr ∧ readReg .curFc g = g.curFc ∧ readReg .curSr g = g.curSr ∧ readReg .curSc g = g.curSc ∧
    readReg .imgW g = g.imgW ∧ readReg .imgH g = g.imgH ∧ readReg .framesH g = g.framesH ∧ readReg .framesV g = g.framesV ∧
    readReg .irX0 g = g.irX0 ∧ readReg .irY0 g = g.irY0 ∧ readReg .irW g = g.irW ∧ readReg .irH g = g.irH ∧
    readReg .fr0 g = g.fr0 ∧ readReg .fr1 g = g.fr1 ∧ readReg .fc0 g = g.fc0 ∧ readReg .fc1 g = g.fc1 ∧
    readReg .sr0 g = g.sr0 ∧ readReg .sr1 g = g.sr1 ∧ readReg .sc0 g = g.sc0 ∧ readReg .sc1 g = g.sc1 ∧
    readReg .diskRow g = g.diskRow ∧ readReg .fopenCnt g = g.fopenCnt) ∧
  (∀ (d : Word) (g : Regs), writeReg .handle d g = { g with handle := d } ∧
    writeReg .blank d g = { g with blank := d.extractLsb' 0 8 } ∧
    writeReg .rectX0 d g = { g with rectX0 := d } ∧ writeReg .rectY0 d g = { g with rectY0 := d } ∧
    writeReg .rectW d g = { g with rectW := d } ∧ writeReg .rectH d g = { g with rectH := d } ∧
    writeReg .curFr d g = { g with curFr := d } ∧ writeReg .curFc d g = { g with curFc := d } ∧
    writeReg .curSr d g = { g with curSr := d } ∧ writeReg .curSc d g = { g with curSc := d })

/-- R20, R72: the map at the bus, with the offsets as numbers: a Read32 of each register's offset answers that register, and
after a Write32 of an RW register's offset it holds the data (BLANK its low eight bits) and nothing else changed. The data 0
of the write's answer is the model's choice (log entry 6). -/
def Obligations.RegisterOffsetsAtTheBus : Prop :=
  ∀ (s : State) (d : Word) (rest : List Event),
    (∀ p ∈ [(0x10, s.reg.handle), (0x18, s.reg.rectX0), (0x1C, s.reg.rectY0), (0x20, s.reg.rectW), (0x24, s.reg.rectH),
        (0x28, s.reg.curFr), (0x2C, s.reg.curFc), (0x30, s.reg.curSr), (0x34, s.reg.curSc), (0x38, s.reg.imgW),
        (0x3C, s.reg.imgH), (0x40, s.reg.framesH), (0x44, s.reg.framesV), (0x48, s.reg.irX0), (0x4C, s.reg.irY0),
        (0x50, s.reg.irW), (0x54, s.reg.irH), (0x58, s.reg.fr0), (0x5C, s.reg.fr1), (0x60, s.reg.fc0), (0x64, s.reg.fc1),
        (0x68, s.reg.sr0), (0x6C, s.reg.sr1), (0x70, s.reg.sc0), (0x74, s.reg.sc1), (0x78, s.reg.diskRow),
        (0x7C, s.reg.fopenCnt), (0x00, 0x56510001), (0x04, 0), (0x08, statusWord s.reg), (0x0C, flagsWord s.reg),
        (0x14, s.reg.blank.setWidth 32)],
      s.inbox = .bus ⟨.read, 32, p.1, d⟩ :: rest →
        step s = .next { s with inbox := rest, answer := some ⟨.okay, p.2⟩ }) ∧
    (∀ p ∈ [(0x10, { s.reg with handle := d }), (0x14, { s.reg with blank := d.setWidth 8 }),
        (0x18, { s.reg with rectX0 := d }), (0x1C, { s.reg with rectY0 := d }), (0x20, { s.reg with rectW := d }),
        (0x24, { s.reg with rectH := d }), (0x28, { s.reg with curFr := d }), (0x2C, { s.reg with curFc := d }),
        (0x30, { s.reg with curSr := d }), (0x34, { s.reg with curSc := d })],
      s.inbox = .bus ⟨.write, 32, p.1, d⟩ :: rest →
        step s = .next { s with reg := p.2, inbox := rest, answer := some ⟨.okay, 0⟩ })

/-! ### What a GETTILE leaves behind (10_state.md R32, 41_compositor.md R142, 70_reset_and_hazards.md R235) -/

/-- R27, R32, R35, R38, R142: the registers a GETTILE leaves, all of them. EMPTY and FR0..FC1 are FRANGE's results; FOPEN_CNT
counts the frames that exist; CUR_FR, CUR_FC, DISK_ROW and SR0..SC1 are those of the last frame that exists, CUR_SR and
CUR_SC those of the last cell fetched, each unchanged if there is none; STATUS.ERR is 0; no other register changes. -/
def Obligations.GetTileRegistersAfter : Prop :=
  ∀ (s : State) (n : Nat), Inv s → OpenWith n s → TileFits n s → AllAnswered s →
    let c := clip s.reg
    let frames := presentFrames s.env s.reg
    let cells := fetchedCells s.env s.reg
    ∃ t, exec (.getTile 0) s = .next t ∧
      t.reg = { s.reg with
        err := .ok, empty := t.reg.empty, fopenCnt := t.reg.fopenCnt
        fr0 := t.reg.fr0, fr1 := t.reg.fr1, fc0 := t.reg.fc0, fc1 := t.reg.fc1
        curFr := t.reg.curFr, curFc := t.reg.curFc, curSr := t.reg.curSr, curSc := t.reg.curSc
        sr0 := t.reg.sr0, sr1 := t.reg.sr1, sc0 := t.reg.sc0, sc1 := t.reg.sc1, diskRow := t.reg.diskRow } ∧
      (t.reg.empty = true ↔ c.x1 < c.x0 ∨ c.y1 < c.y0) ∧
      (t.reg.empty = true → t.reg.fr0 = 0 ∧ t.reg.fr1 = 0 ∧ t.reg.fc0 = 0 ∧ t.reg.fc1 = 0) ∧
      (t.reg.empty = false →
        (u32 t.reg.fr0 : Int) = c.y0 / 1536 ∧ (u32 t.reg.fr1 : Int) = c.y1 / 1536 ∧
        (u32 t.reg.fc0 : Int) = c.x0 / 1536 ∧ (u32 t.reg.fc1 : Int) = c.x1 / 1536) ∧
      u32 t.reg.fopenCnt = frames.length ∧
      (frames.getLast? = none →
        t.reg.curFr = s.reg.curFr ∧ t.reg.curFc = s.reg.curFc ∧ t.reg.diskRow = s.reg.diskRow ∧
        t.reg.sr0 = s.reg.sr0 ∧ t.reg.sr1 = s.reg.sr1 ∧ t.reg.sc0 = s.reg.sc0 ∧ t.reg.sc1 = s.reg.sc1) ∧
      (∀ fr fc, frames.getLast? = some (fr, fc) →
        u32 t.reg.curFr = fr ∧ u32 t.reg.curFc = fc ∧ u32 t.reg.diskRow = u32 s.reg.framesV - 1 - fr ∧
        u32 t.reg.sr0 = firstSub c.y0 (fr * 1536) ∧ u32 t.reg.sr1 = lastSub c.y1 (fr * 1536) ∧
        u32 t.reg.sc0 = firstSub c.x0 (fc * 1536) ∧ u32 t.reg.sc1 = lastSub c.x1 (fc * 1536)) ∧
      (cells.getLast? = none → t.reg.curSr = s.reg.curSr ∧ t.reg.curSc = s.reg.curSc) ∧
      (∀ fr fc sr sc, cells.getLast? = some (fr, fc, sr, sc) → u32 t.reg.curSr = sr ∧ u32 t.reg.curSc = sc)

/-- R144, R145, R183, R184, R235: what a GETTILE leaves in its scratch: in CB and PAL the tables of the last frame opened ok,
in CBUF the bytes of the last cell fetched ok and in BLK its block, decoded with its own frame's tables; each unchanged if
there is none, and so are the palette bytes and the planes beyond BANDS. -/
def Obligations.GetTileScratchAfter : Prop :=
  ∀ (s : State) (n : Nat), Inv s → OpenWith n s → TileFits n s → AllAnswered s →
    let frames := openedFrames s.env s.reg
    let cells := fetchedCells s.env s.reg
    ∃ t, exec (.getTile 0) s = .next t ∧
      (frames.getLast? = none →
        ∀ a, Space.cb.covers a = true ∨ Space.pal.covers a = true → t.mem.read a = s.mem.read a) ∧
      (∀ fr fc, frames.getLast? = some (fr, fc) →
        (∀ k < 65536, t.mem.read (Config.cbBase + k) = some ((tablesOf s.env s.reg fr fc).cb.byte k)) ∧
        (∀ idx < 256, ∀ b < 4, t.mem.read (Config.palBase + (idx * 4 + b)) =
          if b < n then some ((tablesOf s.env s.reg fr fc).pal.byte (idx * 4 + b))
          else s.mem.read (Config.palBase + (idx * 4 + b)))) ∧
      (cells.getLast? = none →
        ∀ a, Space.cbuf.covers a = true ∨ Space.blk.covers a = true → t.mem.read a = s.mem.read a) ∧
      (∀ fr fc sr sc, cells.getLast? = some (fr, fc, sr, sc) →
        (∀ p < 6144, t.mem.read (Config.cbufBase + p) = some ((bytesOf s.env s.reg fr fc sr sc).data.byte p)) ∧
        (∀ b < 3, ∀ r < 256, ∀ c < 256, t.mem.read (Config.blkBase + (b * 65536 + r * 256 + c)) =
          if b < n then some (answeredByte (tablesOf s.env s.reg fr fc) (bytesOf s.env s.reg fr fc sr sc) b r c)
          else s.mem.read (Config.blkBase + (b * 65536 + r * 256 + c))))
end

