-- ==== Sys2Proof/Laws/Loops.lean ====
section
/-! SUPPORT. Loops: what a loop does is said once, by the states its body passes through. -/

namespace Sys2Proof.Machine

@[simp] theorem forEach_nil {α : Type} (body : α → State → Run State) (s : State) : forEach [] body s = .ok s := rfl

theorem forEach_cons_ok {α : Type} {x : α} {rest : List α} {body : α → State → Run State} {s t : State}
    (h : body x s = .ok t) : forEach (x :: rest) body s = forEach rest body t := by
  rw [forEach, h]

theorem forEach_cons_error {α : Type} {x : α} {rest : List α} {body : α → State → Run State} {s : State} {e : Stop}
    (h : body x s = .error e) : forEach (x :: rest) body s = .error e := by
  rw [forEach, h]

@[simp] theorem sweep_nil {α : Type} (body : α → State → State) (s : State) : sweep [] body s = s := rfl

@[simp] theorem sweep_cons {α : Type} (x : α) (rest : List α) (body : α → State → State) (s : State) :
    sweep (x :: rest) body s = sweep rest body (body x s) := rfl

/-- A loop that cannot stop is a loop whose body always succeeds. -/
theorem forEach_ok_eq_sweep {α : Type} (xs : List α) (body : α → State → State) (s : State) :
    forEach xs (fun x s => .ok (body x s)) s = .ok (sweep xs body s) := by
  induction xs generalizing s with
  | nil => rfl
  | cons x rest ih => exact ih _

/-- A loop completes, and does what `P` says of the items done so far, if every pass does. -/
theorem forEach_progress {α : Type} {body : α → State → Run State} (P : List α → State → Prop) (xs : List α) (s : State)
    (h0 : P [] s)
    (hstep : ∀ pre x post s, xs = pre ++ x :: post → P pre s → ∃ t, body x s = .ok t ∧ P (pre ++ [x]) t) :
    ∃ t, forEach xs body s = .ok t ∧ P xs t := by
  suffices H : ∀ post pre s, xs = pre ++ post → P pre s → ∃ t, forEach post body s = .ok t ∧ P xs t from
    H xs [] s rfl h0
  intro post
  induction post with
  | nil =>
    intro pre s hxs hP
    exact ⟨s, rfl, by simpa [hxs] using hP⟩
  | cons x rest ih =>
    intro pre s hxs hP
    obtain ⟨t, hb, hP'⟩ := hstep pre x rest s hxs hP
    obtain ⟨u, hu, hPu⟩ := ih (pre ++ [x]) t (by simpa using hxs) hP'
    exact ⟨u, by rw [forEach_cons_ok hb, hu], hPu⟩

/-- The same for a loop that cannot stop. -/
theorem sweep_progress {α : Type} {body : α → State → State} (P : List α → State → Prop) (xs : List α) (s : State)
    (h0 : P [] s) (hstep : ∀ pre x post s, xs = pre ++ x :: post → P pre s → P (pre ++ [x]) (body x s)) :
    P xs (sweep xs body s) := by
  obtain ⟨t, ht, hP⟩ := forEach_progress (body := fun x s => .ok (body x s)) P xs s h0
    (fun pre x post s hxs hp => ⟨_, rfl, hstep pre x post s hxs hp⟩)
  rw [forEach_ok_eq_sweep] at ht
  exact (Except.ok.inj ht) ▸ hP

/-- A loop completes and keeps `P` if every pass completes and keeps it. -/
theorem forEach_total {α : Type} {body : α → State → Run State} {P : State → Prop} {xs : List α} {s : State}
    (h0 : P s) (hstep : ∀ x ∈ xs, ∀ s, P s → ∃ t, body x s = .ok t ∧ P t) :
    ∃ t, forEach xs body s = .ok t ∧ P t :=
  forEach_progress (fun _ s => P s) xs s h0
    (fun pre x post s hxs hp => hstep x (by simp [hxs]) s hp)

/-- What a loop did, whether it completed or stopped, from what each pass does: `R` relates the states before and
after, also a stop's. -/
theorem forEach_relates {α : Type} {body : α → State → Run State} {R : State → State → Prop}
    (hrefl : ∀ s, R s s) (htrans : ∀ s t u, R s t → R t u → R s u) {xs : List α}
    (hok : ∀ x ∈ xs, ∀ s t, body x s = .ok t → R s t)
    (herr : ∀ x ∈ xs, ∀ s e, body x s = .error e → R s e.state) (s : State) :
    (∀ t, forEach xs body s = .ok t → R s t) ∧ (∀ e, forEach xs body s = .error e → R s e.state) := by
  induction xs generalizing s with
  | nil =>
    constructor
    · intro t h
      cases h
      exact hrefl s
    · intro e h
      cases h
  | cons x rest ih =>
    have ih' := ih (fun y hy => hok y (List.mem_cons_of_mem _ hy)) (fun y hy => herr y (List.mem_cons_of_mem _ hy))
    cases hb : body x s with
    | ok u =>
      have hu := hok x (List.mem_cons_self ..) s u hb
      rw [forEach_cons_ok hb]
      exact ⟨fun t h => htrans _ _ _ hu ((ih' u).1 t h), fun e h => htrans _ _ _ hu ((ih' u).2 e h)⟩
    | error e' =>
      rw [forEach_cons_error hb]
      constructor
      · intro t h
        cases h
      · intro e h
        cases h
        exact herr x (List.mem_cons_self ..) s e' hb

theorem sweep_relates {α : Type} {body : α → State → State} {R : State → State → Prop}
    (hrefl : ∀ s, R s s) (htrans : ∀ s t u, R s t → R t u → R s u) {xs : List α}
    (h : ∀ x ∈ xs, ∀ s, R s (body x s)) (s : State) : R s (sweep xs body s) := by
  induction xs generalizing s with
  | nil => exact hrefl s
  | cons x rest ih =>
    exact htrans _ _ _ (h x (List.mem_cons_self ..) s) (ih (fun y hy => h y (List.mem_cons_of_mem _ hy)) _)

/-- A stop of a loop is a stop of one of its passes, in a state that `P` holds of. -/
theorem forEach_stop {α : Type} {body : α → State → Run State} {P : State → Prop} {xs : List α} {s : State} {e : Stop}
    (h0 : P s) (hstep : ∀ x ∈ xs, ∀ s t, P s → body x s = .ok t → P t) (he : forEach xs body s = .error e) :
    ∃ x ∈ xs, ∃ u, P u ∧ body x u = .error e := by
  induction xs generalizing s with
  | nil => cases he
  | cons x rest ih =>
    cases hb : body x s with
    | ok u =>
      rw [forEach_cons_ok hb] at he
      obtain ⟨y, hy, v, hv, hbv⟩ :=
        ih (hstep x (List.mem_cons_self ..) s u h0 hb) (fun z hz => hstep z (List.mem_cons_of_mem _ hz)) he
      exact ⟨y, List.mem_cons_of_mem _ hy, v, hv, hbv⟩
    | error e' =>
      rw [forEach_cons_error hb] at he
      cases he
      exact ⟨x, List.mem_cons_self .., s, h0, hb⟩

/-! ### Ranges -/

@[simp] theorem mem_upTo {a b v : Nat} : v ∈ upTo a b ↔ a ≤ v ∧ v ≤ b := by
  simp only [upTo, List.mem_range'_1]
  omega

@[simp] theorem mem_upToInt {a b v : Int} : v ∈ upToInt a b ↔ a ≤ v ∧ v ≤ b := by
  simp only [upToInt, List.mem_map, List.mem_range]
  constructor
  · rintro ⟨k, hk, rfl⟩
    omega
  · intro h
    exact ⟨(v - a).toNat, by omega, by omega⟩

/-- The row-bands of DECODE: the multiples of 4 below 256 (40_decode.md R112). -/
theorem mem_rowBands {i : Nat} : i ∈ upToBy 0 252 4 ↔ i % 4 = 0 ∧ i < 256 := by
  have h : upToBy 0 252 4 = List.range' 0 64 4 := rfl
  rw [h, List.mem_range']
  constructor
  · rintro ⟨k, hk, rfl⟩
    omega
  · intro hi
    exact ⟨i / 4, by omega, by omega⟩

/-- The column double-bands of DECODE: the multiples of 8 below 256 (R112). -/
theorem mem_colBands {j : Nat} : j ∈ upToBy 0 248 8 ↔ j % 8 = 0 ∧ j < 256 := by
  have h : upToBy 0 248 8 = List.range' 0 32 8 := rfl
  rw [h, List.mem_range']
  constructor
  · rintro ⟨k, hk, rfl⟩
    omega
  · intro hj
    exact ⟨j / 8, by omega, by omega⟩

end Sys2Proof.Machine
end

