-- ==== Sys2Proof/Laws/Memory.lean ====
section
/-! SUPPORT. The laws of the memory: read after write, the canonical form, and that canonical memories that read the same
are the same. -/

namespace Sys2Proof.Machine

@[simp] theorem base_cb : Space.cb.base = Config.cbBase := rfl
@[simp] theorem size_cb : Space.cb.size = Config.cbSize := rfl
@[simp] theorem base_pal : Space.pal.base = Config.palBase := rfl
@[simp] theorem size_pal : Space.pal.size = Config.palSize := rfl
@[simp] theorem base_cbuf : Space.cbuf.base = Config.cbufBase := rfl
@[simp] theorem size_cbuf : Space.cbuf.size = Config.cbufSize := rfl
@[simp] theorem base_blk : Space.blk.base = Config.blkBase := rfl
@[simp] theorem size_blk : Space.blk.size = Config.blkSize := rfl
@[simp] theorem base_tile : Space.tile.base = Config.tileBase := rfl
@[simp] theorem size_tile : Space.tile.size = Config.tileCap := rfl

theorem covers_iff {sp : Space} {a : Nat} : sp.covers a = true ↔ sp.base ≤ a ∧ a < sp.base + sp.size := by
  simp only [Space.covers, Bool.and_eq_true, decide_eq_true_eq]

theorem readCells_writeCells (l : List Host.Cell) (a x : Nat) (v : Byte) :
    readCells (writeCells l a v) x = if a = x then some v else readCells l x := by
  induction l with
  | nil => simp [writeCells, readCells]
  | cons c rest ih =>
    obtain ⟨k, w⟩ := c
    by_cases h1 : a < k
    · simp [writeCells, h1, readCells]
    · by_cases h2 : a = k
      · subst h2
        simp only [writeCells, h1, if_false, if_true, readCells]
        split <;> rfl
      · by_cases h3 : k = x
        · subst h3
          simp [writeCells, h1, h2, readCells]
        · simp [writeCells, h1, h2, readCells, h3, ih]

/-- Read after write: the byte written, and every other byte as before. -/
@[simp] theorem read_write (m : Memory) (a x : Nat) (v : Byte) :
    (m.write a v).read x = if a = x then some v else m.read x :=
  readCells_writeCells m.cells a x v

theorem read_write_same (m : Memory) (a : Nat) (v : Byte) : (m.write a v).read a = some v := by simp

theorem read_write_other (m : Memory) (a x : Nat) (v : Byte) (h : a ≠ x) : (m.write a v).read x = m.read x := by
  simp [h]

@[simp] theorem read_empty (a : Nat) : (Memory.mk []).read a = none := rfl

@[simp] theorem wf_empty : (Memory.mk []).wf = true := rfl

/-- The head of a rising list of cells lies below the others. -/
theorem rising_cons_iff (c : Host.Cell) (l : List Host.Cell) :
    risingCells (c :: l) = true ↔ (∀ d ∈ l, c.1 < d.1) ∧ risingCells l = true := by
  induction l generalizing c with
  | nil => simp [risingCells]
  | cons d rest ih =>
    simp only [risingCells, Bool.and_eq_true, decide_eq_true_eq, List.mem_cons, forall_eq_or_imp]
    constructor
    · rintro ⟨h1, h2⟩
      exact ⟨⟨h1, fun e he => h1.trans (((ih d).1 h2).1 e he)⟩, h2⟩
    · rintro ⟨⟨h1, -⟩, h2⟩
      exact ⟨h1, h2⟩

theorem mem_writeCells (l : List Host.Cell) (a : Nat) (v : Byte) (d : Host.Cell) (h : d ∈ writeCells l a v) :
    d = (a, v) ∨ d ∈ l := by
  induction l with
  | nil => simpa [writeCells] using h
  | cons c rest ih =>
    obtain ⟨k, w⟩ := c
    simp only [writeCells] at h
    split at h
    · simpa using h
    · split at h
      · rcases List.mem_cons.1 h with h | h
        · exact .inl h
        · exact .inr (List.mem_cons_of_mem _ h)
      · rcases List.mem_cons.1 h with h | h
        · exact .inr (h ▸ List.mem_cons_self ..)
        · rcases ih h with h | h
          · exact .inl h
          · exact .inr (List.mem_cons_of_mem _ h)

theorem rising_writeCells (l : List Host.Cell) (a : Nat) (v : Byte) (h : risingCells l = true) :
    risingCells (writeCells l a v) = true := by
  induction l with
  | nil => rfl
  | cons c rest ih =>
    obtain ⟨k, w⟩ := c
    obtain ⟨hlow, hrest⟩ := (rising_cons_iff _ _).1 h
    simp only [writeCells]
    split
    · rename_i hlt
      exact (rising_cons_iff _ _).2 ⟨by
        intro d hd
        rcases List.mem_cons.1 hd with hd | hd
        · exact hd ▸ hlt
        · exact hlt.trans (hlow d hd), h⟩
    · split
      · rename_i _ heq
        exact (rising_cons_iff _ _).2 ⟨by simpa [heq] using hlow, hrest⟩
      · rename_i hge hne
        refine (rising_cons_iff _ _).2 ⟨fun d hd => ?_, ih hrest⟩
        rcases mem_writeCells rest a v d hd with hd | hd
        · subst hd
          exact lt_of_le_of_ne (not_lt.1 hge) (Ne.symm hne)
        · exact hlow d hd

/-- Writing a byte keeps the canonical form. -/
theorem wf_write (m : Memory) (a : Nat) (v : Byte) (h : m.wf = true) : (m.write a v).wf = true :=
  rising_writeCells m.cells a v h

/-- Replaying acts keeps the canonical form. -/
theorem wf_replay (acts : List Act) (m : Memory) (h : m.wf = true) : (replay acts m).wf = true := by
  induction acts generalizing m with
  | nil => exact h
  | cons a rest ih =>
    cases a with
    | write x v => exact ih _ (wf_write m x v h)
    | request r => exact ih _ h

theorem replay_append (xs ys : List Act) (m : Memory) : replay (xs ++ ys) m = replay ys (replay xs m) := by
  induction xs generalizing m with
  | nil => rfl
  | cons a rest ih =>
    cases a with
    | write x v => exact ih _
    | request r => exact ih _

/-- A byte that no act writes is left alone by a replay. -/
theorem read_replay_other (acts : List Act) (m : Memory) (x : Nat) (h : ∀ v, Act.write x v ∉ acts) :
    (replay acts m).read x = m.read x := by
  induction acts generalizing m with
  | nil => rfl
  | cons a rest ih =>
    have hrest : ∀ v, Act.write x v ∉ rest := fun v hv => h v (List.mem_cons_of_mem _ hv)
    cases a with
    | write y v =>
      rw [replay, ih _ hrest, read_write_other]
      rintro rfl
      exact h v (List.mem_cons_self ..)
    | request r => rw [replay, ih _ hrest]

/-- A byte after a replay was there before or was written by one of the acts. -/
theorem read_replay_cases (acts : List Act) (m : Memory) (x : Nat) :
    (replay acts m).read x = m.read x ∨ ∃ v, Act.write x v ∈ acts ∧ (replay acts m).read x = some v := by
  induction acts generalizing m with
  | nil => exact .inl rfl
  | cons a rest ih =>
    cases a with
    | write y v =>
      rcases ih (m.write y v) with h | ⟨u, hu, h⟩
      · by_cases hy : y = x
        · subst hy
          exact .inr ⟨v, List.mem_cons_self .., by rw [replay, h, read_write_same]⟩
        · exact .inl (by rw [replay, h, read_write_other _ _ _ _ hy])
      · exact .inr ⟨u, List.mem_cons_of_mem _ hu, h⟩
    | request r =>
      rcases ih m with h | ⟨u, hu, h⟩
      · exact .inl h
      · exact .inr ⟨u, List.mem_cons_of_mem _ hu, h⟩

theorem readCells_eq_none_of_below (l : List Host.Cell) (x : Nat) (h : ∀ d ∈ l, x < d.1) : readCells l x = none := by
  induction l with
  | nil => rfl
  | cons c rest ih =>
    have hc := h c (List.mem_cons_self ..)
    rw [readCells, if_neg (by omega), ih fun d hd => h d (List.mem_cons_of_mem _ hd)]

theorem cells_ext (l k : List Host.Cell) (hl : risingCells l = true) (hk : risingCells k = true)
    (h : ∀ x, readCells l x = readCells k x) : l = k := by
  induction l generalizing k with
  | nil =>
    cases k with
    | nil => rfl
    | cons d rest => simpa [readCells] using h d.1
  | cons c rest ih =>
    cases k with
    | nil => simpa [readCells] using h c.1
    | cons d rest' =>
      obtain ⟨hcl, hcr⟩ := (rising_cons_iff _ _).1 hl
      obtain ⟨hdl, hdr⟩ := (rising_cons_iff _ _).1 hk
      have hkey : c.1 = d.1 := by
        rcases lt_trichotomy c.1 d.1 with hlt | heq | hgt
        · have := h c.1
          rw [readCells_eq_none_of_below (d :: rest') c.1 (by
            intro e he
            rcases List.mem_cons.1 he with he | he
            · exact he ▸ hlt
            · exact hlt.trans (hdl e he))] at this
          simp [readCells] at this
        · exact heq
        · have := h d.1
          rw [readCells_eq_none_of_below (c :: rest) d.1 (by
            intro e he
            rcases List.mem_cons.1 he with he | he
            · exact he ▸ hgt
            · exact hgt.trans (hcl e he))] at this
          simp [readCells] at this
      obtain ⟨k1, v1⟩ := c
      obtain ⟨k2, v2⟩ := d
      simp only at hkey
      subst hkey
      have hv : v1 = v2 := by simpa [readCells] using h k1
      subst hv
      have hrest : rest = rest' := by
        refine ih rest' hcr hdr fun x => ?_
        have hx := h x
        by_cases hxk : k1 = x
        · subst hxk
          rw [readCells_eq_none_of_below rest k1 hcl, readCells_eq_none_of_below rest' k1 hdl]
        · simpa [readCells, hxk] using hx
      rw [hrest]

/-- Two memories in canonical form that read the same everywhere are the same data. -/
theorem memory_ext (m k : Memory) (hm : m.wf = true) (hk : k.wf = true) (h : ∀ x, m.read x = k.read x) : m = k := by
  obtain ⟨l⟩ := m
  obtain ⟨l'⟩ := k
  exact congrArg Memory.mk (cells_ext l l' hm hk h)

end Sys2Proof.Machine
end

