-- ==== Sys2Proof/Laws/State.lean ====
section
/-! SUPPORT. What each named update leaves in each field of the state: one lemma per field per update, by rfl. -/

namespace Sys2Proof.Machine

@[simp] theorem raiseErr_reg (e : ErrCode) (s : State) :
    (raiseErr e s).reg = { s.reg with err := e } := rfl
@[simp] theorem raiseErr_mem (e : ErrCode) (s : State) :
    (raiseErr e s).mem = s.mem := rfl
@[simp] theorem raiseErr_env (e : ErrCode) (s : State) :
    (raiseErr e s).env = s.env := rfl
@[simp] theorem raiseErr_inbox (e : ErrCode) (s : State) :
    (raiseErr e s).inbox = s.inbox := rfl
@[simp] theorem raiseErr_answer (e : ErrCode) (s : State) :
    (raiseErr e s).answer = s.answer := rfl
@[simp] theorem raiseErr_hist (e : ErrCode) (s : State) :
    (raiseErr e s).hist = s.hist := rfl

@[simp] theorem done_reg (s : State) :
    (done s).reg = { s.reg with err := .ok } := rfl
@[simp] theorem done_mem (s : State) :
    (done s).mem = s.mem := rfl
@[simp] theorem done_env (s : State) :
    (done s).env = s.env := rfl
@[simp] theorem done_inbox (s : State) :
    (done s).inbox = s.inbox := rfl
@[simp] theorem done_answer (s : State) :
    (done s).answer = s.answer := rfl
@[simp] theorem done_hist (s : State) :
    (done s).hist = s.hist := rfl

@[simp] theorem resetState_reg (s : State) :
    (resetState s).reg = Regs.reset := rfl
@[simp] theorem resetState_mem (s : State) :
    (resetState s).mem = s.mem := rfl
@[simp] theorem resetState_env (s : State) :
    (resetState s).env = s.env := rfl
@[simp] theorem resetState_inbox (s : State) :
    (resetState s).inbox = s.inbox := rfl
@[simp] theorem resetState_answer (s : State) :
    (resetState s).answer = none := rfl
@[simp] theorem resetState_hist (s : State) :
    (resetState s).hist = s.hist := rfl

@[simp] theorem memWrite_reg (sp : Space) (o : Nat) (v : Byte) (s : State) :
    (memWrite sp o v s).reg = s.reg := rfl
@[simp] theorem memWrite_mem (sp : Space) (o : Nat) (v : Byte) (s : State) :
    (memWrite sp o v s).mem = s.mem.write (sp.base + o) v := rfl
@[simp] theorem memWrite_env (sp : Space) (o : Nat) (v : Byte) (s : State) :
    (memWrite sp o v s).env = s.env := rfl
@[simp] theorem memWrite_inbox (sp : Space) (o : Nat) (v : Byte) (s : State) :
    (memWrite sp o v s).inbox = s.inbox := rfl
@[simp] theorem memWrite_answer (sp : Space) (o : Nat) (v : Byte) (s : State) :
    (memWrite sp o v s).answer = s.answer := rfl
@[simp] theorem memWrite_hist (sp : Space) (o : Nat) (v : Byte) (s : State) :
    (memWrite sp o v s).hist = .write (sp.base + o) v :: s.hist := rfl

@[simp] theorem note_reg (r : PortReq) (s : State) :
    (note r s).reg = s.reg := rfl
@[simp] theorem note_mem (r : PortReq) (s : State) :
    (note r s).mem = s.mem := rfl
@[simp] theorem note_env (r : PortReq) (s : State) :
    (note r s).env = s.env := rfl
@[simp] theorem note_inbox (r : PortReq) (s : State) :
    (note r s).inbox = s.inbox := rfl
@[simp] theorem note_answer (r : PortReq) (s : State) :
    (note r s).answer = s.answer := rfl
@[simp] theorem note_hist (r : PortReq) (s : State) :
    (note r s).hist = .request r :: s.hist := rfl

@[simp] theorem frmRelease_reg (dr fc : Nat) (s : State) :
    (frmRelease dr fc s).reg = s.reg := rfl
@[simp] theorem frmRelease_mem (dr fc : Nat) (s : State) :
    (frmRelease dr fc s).mem = s.mem := rfl
@[simp] theorem frmRelease_env (dr fc : Nat) (s : State) :
    (frmRelease dr fc s).env = s.env := rfl
@[simp] theorem frmRelease_inbox (dr fc : Nat) (s : State) :
    (frmRelease dr fc s).inbox = s.inbox := rfl
@[simp] theorem frmRelease_answer (dr fc : Nat) (s : State) :
    (frmRelease dr fc s).answer = s.answer := rfl
@[simp] theorem frmRelease_hist (dr fc : Nat) (s : State) :
    (frmRelease dr fc s).hist = .request (.frmRelease (cell16 dr) (cell16 fc)) :: s.hist := rfl

@[simp] theorem frangeBody_reg (s : State) :
    (frangeBody s).reg = frangeRegs s.reg := rfl
@[simp] theorem frangeBody_mem (s : State) :
    (frangeBody s).mem = s.mem := rfl
@[simp] theorem frangeBody_env (s : State) :
    (frangeBody s).env = s.env := rfl
@[simp] theorem frangeBody_inbox (s : State) :
    (frangeBody s).inbox = s.inbox := rfl
@[simp] theorem frangeBody_answer (s : State) :
    (frangeBody s).answer = s.answer := rfl
@[simp] theorem frangeBody_hist (s : State) :
    (frangeBody s).hist = s.hist := rfl

@[simp] theorem srangeBody_reg (s : State) :
    (srangeBody s).reg = srangeRegs s.reg := rfl
@[simp] theorem srangeBody_mem (s : State) :
    (srangeBody s).mem = s.mem := rfl
@[simp] theorem srangeBody_env (s : State) :
    (srangeBody s).env = s.env := rfl
@[simp] theorem srangeBody_inbox (s : State) :
    (srangeBody s).inbox = s.inbox := rfl
@[simp] theorem srangeBody_answer (s : State) :
    (srangeBody s).answer = s.answer := rfl
@[simp] theorem srangeBody_hist (s : State) :
    (srangeBody s).hist = s.hist := rfl

@[simp] theorem aimAtFrame_reg (fr fc : Nat) (s : State) :
    (aimAtFrame fr fc s).reg = srangeRegs { s.reg with curFr := wordOfNat fr, curFc := wordOfNat fc } := rfl
@[simp] theorem aimAtFrame_mem (fr fc : Nat) (s : State) :
    (aimAtFrame fr fc s).mem = s.mem := rfl
@[simp] theorem aimAtFrame_env (fr fc : Nat) (s : State) :
    (aimAtFrame fr fc s).env = s.env := rfl
@[simp] theorem aimAtFrame_inbox (fr fc : Nat) (s : State) :
    (aimAtFrame fr fc s).inbox = s.inbox := rfl
@[simp] theorem aimAtFrame_answer (fr fc : Nat) (s : State) :
    (aimAtFrame fr fc s).answer = s.answer := rfl
@[simp] theorem aimAtFrame_hist (fr fc : Nat) (s : State) :
    (aimAtFrame fr fc s).hist = s.hist := rfl

@[simp] theorem countOpen_reg (s : State) :
    (countOpen s).reg = { s.reg with fopenCnt := s.reg.fopenCnt + 1 } := rfl
@[simp] theorem countOpen_mem (s : State) :
    (countOpen s).mem = s.mem := rfl
@[simp] theorem countOpen_env (s : State) :
    (countOpen s).env = s.env := rfl
@[simp] theorem countOpen_inbox (s : State) :
    (countOpen s).inbox = s.inbox := rfl
@[simp] theorem countOpen_answer (s : State) :
    (countOpen s).answer = s.answer := rfl
@[simp] theorem countOpen_hist (s : State) :
    (countOpen s).hist = s.hist := rfl

@[simp] theorem answering_reg (r : BusResp) (d : Word) (s : State) :
    (answering r d s).reg = s.reg := rfl
@[simp] theorem answering_mem (r : BusResp) (d : Word) (s : State) :
    (answering r d s).mem = s.mem := rfl
@[simp] theorem answering_env (r : BusResp) (d : Word) (s : State) :
    (answering r d s).env = s.env := rfl
@[simp] theorem answering_inbox (r : BusResp) (d : Word) (s : State) :
    (answering r d s).inbox = s.inbox := rfl
@[simp] theorem answering_answer (r : BusResp) (d : Word) (s : State) :
    (answering r d s).answer = some ⟨r, d⟩ := rfl
@[simp] theorem answering_hist (r : BusResp) (d : Word) (s : State) :
    (answering r d s).hist = s.hist := rfl

end Sys2Proof.Machine
end

