-- ==== Sys2Proof/Laws/Effects.lean ====
section
/-! SUPPORT. What a piece of a command can have done: the relation `Effect`, said once for each operation, for the state
it ends in and for the state it stops in. -/

namespace Sys2Proof.Machine

/-- From `s` to `t` the engine only acted: it wrote bytes at offsets that satisfy `P` and issued requests that satisfy
`Q`, all of them recorded; the outside world's fields are untouched. Nothing is said of the registers. -/
structure Effect (P : Nat → Prop) (Q : PortReq → Prop) (s t : State) : Prop where
  env : t.env = s.env
  inbox : t.inbox = s.inbox
  answer : t.answer = s.answer
  acts : ∃ new : List Act, t.hist = new ++ s.hist ∧ t.mem = replay new.reverse s.mem ∧
    (∀ a v, Act.write a v ∈ new → P a) ∧ (∀ r, Act.request r ∈ new → Q r)

/-- No request. -/
abbrev NoPort : PortReq → Prop := fun _ => False

theorem Effect.refl (P : Nat → Prop) (Q : PortReq → Prop) (s : State) : Effect P Q s s :=
  ⟨rfl, rfl, rfl, [], by simp [replay]⟩

theorem Effect.trans {P : Nat → Prop} {Q : PortReq → Prop} {s t u : State} (h1 : Effect P Q s t) (h2 : Effect P Q t u) :
    Effect P Q s u := by
  obtain ⟨x, hx, hxm, hxw, hxr⟩ := h1.acts
  obtain ⟨y, hy, hym, hyw, hyr⟩ := h2.acts
  refine ⟨h2.env.trans h1.env, h2.inbox.trans h1.inbox, h2.answer.trans h1.answer, y ++ x, by rw [hy, hx, List.append_assoc], ?_, ?_, ?_⟩
  · rw [List.reverse_append, replay_append, ← hxm, hym]
  · intro a v h
    rcases List.mem_append.1 h with h | h
    · exact hyw a v h
    · exact hxw a v h
  · intro r h
    rcases List.mem_append.1 h with h | h
    · exact hyr r h
    · exact hxr r h

theorem Effect.mono {P P' : Nat → Prop} {Q Q' : PortReq → Prop} {s t : State} (h : Effect P Q s t)
    (hP : ∀ a, P a → P' a) (hQ : ∀ r, Q r → Q' r) : Effect P' Q' s t := by
  obtain ⟨x, hx, hxm, hxw, hxr⟩ := h.acts
  exact ⟨h.env, h.inbox, h.answer, x, hx, hxm, fun a v hv => hP a (hxw a v hv), fun r hr => hQ r (hxr r hr)⟩

/-- A change of registers is invisible to `Effect`. -/
theorem Effect.of_reg {P : Nat → Prop} {Q : PortReq → Prop} {s t : State} (g : Regs) (h : t = { s with reg := g }) :
    Effect P Q s t := by
  subst h
  exact ⟨rfl, rfl, rfl, [], by simp [replay]⟩

/-- Bytes outside the offsets written keep their value. -/
theorem Effect.read_other {P : Nat → Prop} {Q : PortReq → Prop} {s t : State} (h : Effect P Q s t) {a : Nat}
    (ha : ¬ P a) : t.mem.read a = s.mem.read a := by
  obtain ⟨x, -, hxm, hxw, -⟩ := h.acts
  rw [hxm]
  exact read_replay_other _ _ _ fun v hv => ha (hxw a v (List.mem_reverse.1 hv))

/-- A byte with a value afterwards had one before or was written. -/
theorem Effect.mapped {P : Nat → Prop} {Q : PortReq → Prop} {s t : State} (h : Effect P Q s t) {a : Nat} {v : Byte}
    (hv : t.mem.read a = some v) : P a ∨ s.mem.read a = some v := by
  by_cases ha : P a
  · exact .inl ha
  · exact .inr (by rw [← h.read_other ha, hv])

theorem Effect.wf {P : Nat → Prop} {Q : PortReq → Prop} {s t : State} (h : Effect P Q s t) (hs : s.mem.wf = true) :
    t.mem.wf = true := by
  obtain ⟨x, -, hxm, -, -⟩ := h.acts
  rw [hxm]
  exact wf_replay _ _ hs

/-- The acts of the record are the acts done, in order. -/
theorem Effect.actsBetween_spec {P : Nat → Prop} {Q : PortReq → Prop} {s t : State} (h : Effect P Q s t) :
    t.hist = (actsBetween s t).reverse ++ s.hist ∧ replay (actsBetween s t) s.mem = t.mem ∧
      (∀ a v, Act.write a v ∈ actsBetween s t → P a) ∧ (∀ r, Act.request r ∈ actsBetween s t → Q r) := by
  obtain ⟨x, hx, hxm, hxw, hxr⟩ := h.acts
  have hb : actsBetween s t = x.reverse := by simp [actsBetween, hx]
  rw [hb, List.reverse_reverse]
  exact ⟨hx, hxm.symm, fun a v hv => hxw a v (List.mem_reverse.1 hv), fun r hr => hxr r (List.mem_reverse.1 hr)⟩

/-- The port trace grows by the requests among the acts. -/
theorem portTrace_append (s t : State) (new : List Act) (h : t.hist = new ++ s.hist) :
    portTrace t = portTrace s ++ (new.filterMap requestOf).reverse := by
  simp [portTrace, h]

theorem Effect.portTrace_eq {P : Nat → Prop} {s t : State} (h : Effect P NoPort s t) : portTrace t = portTrace s := by
  obtain ⟨x, hx, -, -, hxr⟩ := h.acts
  rw [portTrace_append s t x hx]
  have : x.filterMap requestOf = [] := by
    rw [List.filterMap_eq_nil_iff]
    intro a ha
    cases a with
    | write _ _ => rfl
    | request r => exact (hxr r ha).elim
  simp [this]

theorem memWrite_effect {P : Nat → Prop} {Q : PortReq → Prop} (sp : Space) (o : Nat) (v : Byte) (s : State)
    (h : P (sp.base + o)) : Effect P Q s (memWrite sp o v s) :=
  ⟨rfl, rfl, rfl, [.write (sp.base + o) v], rfl, rfl, by
    intro a w hw
    simp only [List.mem_singleton, Act.write.injEq] at hw
    exact hw.1 ▸ h, by simp⟩

theorem note_effect {P : Nat → Prop} {Q : PortReq → Prop} (r : PortReq) (s : State) (h : Q r) :
    Effect P Q s (note r s) :=
  ⟨rfl, rfl, rfl, [.request r], rfl, rfl, by simp, by
    intro q hq
    simp only [List.mem_singleton, Act.request.injEq] at hq
    exact hq ▸ h⟩

/-! ### Runs -/

/-- A relation between the state before and the state a run ends in or stops in. -/
def Leads (R : State → State → Prop) (s : State) (r : Run State) : Prop :=
  (∀ t, r = .ok t → R s t) ∧ (∀ e, r = .error e → R s e.state)

theorem Leads.ok {R : State → State → Prop} {s t : State} (h : R s t) : Leads R s (.ok t) :=
  ⟨fun _ hu => (by cases hu; exact h), fun _ he => (by cases he)⟩

theorem Leads.error {R : State → State → Prop} {s : State} {e : Stop} (h : R s e.state) : Leads R s (.error e) :=
  ⟨fun _ hu => (by cases hu), fun _ he => (by cases he; exact h)⟩

theorem Leads.mono {R R' : State → State → Prop} {s : State} {r : Run State} (h : Leads R s r)
    (hR : ∀ s t, R s t → R' s t) : Leads R' s r :=
  ⟨fun t ht => hR _ _ (h.1 t ht), fun e he => hR _ _ (h.2 e he)⟩

/-- A read changes nothing, whether it finds a value or stops. -/
theorem Leads.read {R : State → State → Prop} (hrefl : ∀ s, R s s) {sp : Space} {o : Nat} {s : State}
    {f : Byte → Run State} (h : ∀ v, s.mem.read (sp.base + o) = some v → Leads R s (f v)) :
    Leads R s (memRead sp o s >>= f) := by
  unfold memRead
  cases hv : s.mem.read (sp.base + o) with
  | none => exact Leads.error (hrefl s)
  | some v => exact h v hv

/-- Sequencing. -/
theorem Leads.bind {R : State → State → Prop} (htrans : ∀ s t u, R s t → R t u → R s u) {s : State} {r : Run State}
    {f : State → Run State} (h1 : Leads R s r) (h2 : ∀ t, r = .ok t → Leads R t (f t)) : Leads R s (r >>= f) := by
  cases r with
  | ok t =>
    have ht := h1.1 t rfl
    exact ⟨fun u hu => htrans _ _ _ ht ((h2 t rfl).1 u hu), fun e he => htrans _ _ _ ht ((h2 t rfl).2 e he)⟩
  | error e => exact Leads.error (h1.2 e rfl)

theorem Leads.after {R : State → State → Prop} (htrans : ∀ s t u, R s t → R t u → R s u) {s t : State} {r : Run State}
    (h1 : R s t) (h2 : Leads R t r) : Leads R s r :=
  ⟨fun u hu => htrans _ _ _ h1 (h2.1 u hu), fun e he => htrans _ _ _ h1 (h2.2 e he)⟩

theorem Leads.loop {α : Type} {body : α → State → Run State} {R : State → State → Prop} (hrefl : ∀ s, R s s)
    (htrans : ∀ s t u, R s t → R t u → R s u) {xs : List α} (h : ∀ x ∈ xs, ∀ s, Leads R s (body x s)) (s : State) :
    Leads R s (forEach xs body s) :=
  forEach_relates hrefl htrans (fun x hx s t ht => (h x hx s).1 t ht) (fun x hx s e he => (h x hx s).2 e he) s

/-- An effect that leaves every register alone. -/
def Quiet (P : Nat → Prop) (s t : State) : Prop := Effect P NoPort s t ∧ t.reg = s.reg

theorem Quiet.refl (P : Nat → Prop) (s : State) : Quiet P s s := ⟨Effect.refl _ _ s, rfl⟩

theorem Quiet.trans {P : Nat → Prop} (s t u : State) (h1 : Quiet P s t) (h2 : Quiet P t u) : Quiet P s u :=
  ⟨h1.1.trans h2.1, h2.2.trans h1.2⟩

theorem Quiet.mono {P P' : Nat → Prop} {s t : State} (h : Quiet P s t) (hP : ∀ a, P a → P' a) : Quiet P' s t :=
  ⟨h.1.mono hP (fun _ h => h), h.2⟩

theorem memWrite_quiet {P : Nat → Prop} (sp : Space) (o : Nat) (v : Byte) (s : State) (h : P (sp.base + o)) :
    Quiet P s (memWrite sp o v s) := ⟨memWrite_effect sp o v s h, rfl⟩

/-- A loop of quiet passes is quiet. -/
theorem sweep_quiet {α : Type} {P : Nat → Prop} {body : α → State → State} {xs : List α}
    (h : ∀ x ∈ xs, ∀ s, Quiet P s (body x s)) (s : State) : Quiet P s (sweep xs body s) :=
  sweep_relates (Quiet.refl P) Quiet.trans h s

end Sys2Proof.Machine
end

