-- ==== Sys2Proof/Laws/Fills.lean ====
section
/-! SUPPORT. Pieces of a command that fill memory: every write puts at its offset the byte a fixed function `V` gives for
that offset, so the order of the writes does not matter and what is written once stays. -/

namespace Sys2Proof.Machine

/-- From `s` to `t` only offsets in `D` were written, each with the byte `V` gives for it. -/
structure Sets (V : Nat → Option Byte) (D : Nat → Prop) (s t : State) : Prop where
  quiet : Quiet D s t
  keeps : ∀ a, s.mem.read a = V a → t.mem.read a = V a

theorem Sets.refl (V : Nat → Option Byte) (D : Nat → Prop) (s : State) : Sets V D s s := ⟨Quiet.refl D s, fun _ h => h⟩

theorem Sets.trans {V : Nat → Option Byte} {D : Nat → Prop} (s t u : State) (h1 : Sets V D s t) (h2 : Sets V D t u) :
    Sets V D s u :=
  ⟨Quiet.trans s t u h1.quiet h2.quiet, fun a h => h2.keeps a (h1.keeps a h)⟩

theorem Sets.reg {V : Nat → Option Byte} {D : Nat → Prop} {s t : State} (h : Sets V D s t) : t.reg = s.reg := h.quiet.2

theorem Sets.read_other {V : Nat → Option Byte} {D : Nat → Prop} {s t : State} (h : Sets V D s t) {a : Nat}
    (ha : ¬ D a) : t.mem.read a = s.mem.read a := h.quiet.1.read_other ha

theorem memWrite_sets {V : Nat → Option Byte} {D : Nat → Prop} (sp : Space) (o : Nat) (v : Byte) (s : State)
    (hD : D (sp.base + o)) (hV : V (sp.base + o) = some v) : Sets V D s (memWrite sp o v s) :=
  ⟨memWrite_quiet sp o v s hD, by
    intro a ha
    by_cases h : sp.base + o = a
    · subst h
      simp [hV]
    · simpa [h] using ha⟩

/-- A run that completes, sets only offsets in `D`, and has set every offset in `A`. -/
def Fills (V : Nat → Option Byte) (D A : Nat → Prop) (s : State) (r : Run State) : Prop :=
  ∃ t, r = .ok t ∧ Sets V D s t ∧ ∀ a, A a → t.mem.read a = V a

theorem Fills.write {V : Nat → Option Byte} {D A : Nat → Prop} (sp : Space) (o : Nat) (v : Byte) (s : State)
    (hD : D (sp.base + o)) (hV : V (sp.base + o) = some v) (hA : ∀ a, A a → a = sp.base + o) :
    Fills V D A s (.ok (memWrite sp o v s)) :=
  ⟨_, rfl, memWrite_sets sp o v s hD hV, by
    intro a ha
    rw [hA a ha, hV]
    simp⟩

theorem Fills.mono {V : Nat → Option Byte} {D A A' : Nat → Prop} {s : State} {r : Run State} (h : Fills V D A s r)
    (hA : ∀ a, A' a → A a) : Fills V D A' s r := by
  obtain ⟨t, ht, hs, ha⟩ := h
  exact ⟨t, ht, hs, fun a h => ha a (hA a h)⟩

theorem Fills.bind {V : Nat → Option Byte} {D A B : Nat → Prop} {s : State} {r : Run State} {f : State → Run State}
    (h1 : Fills V D A s r) (h2 : ∀ t, Sets V D s t → Fills V D B t (f t)) :
    Fills V D (fun a => A a ∨ B a) s (r >>= f) := by
  obtain ⟨t, rfl, hs, ha⟩ := h1
  obtain ⟨u, hu, hs', hb⟩ := h2 t hs
  refine ⟨u, hu, Sets.trans _ _ _ hs hs', ?_⟩
  rintro a (h | h)
  · exact hs'.keeps a (ha a h)
  · exact hb a h

/-- A loop fills what its passes fill. `I` is what the passes need of a state; it survives the filling. -/
theorem Fills.loop {α : Type} {V : Nat → Option Byte} {D : Nat → Prop} {A : α → Nat → Prop} {I : State → Prop}
    {body : α → State → Run State} {xs : List α} (hI : ∀ s t, I s → Sets V D s t → I t)
    (h : ∀ x ∈ xs, ∀ s, I s → Fills V D (A x) s (body x s)) {s : State} (hs : I s) :
    Fills V D (fun a => ∃ x ∈ xs, A x a) s (forEach xs body s) := by
  induction xs generalizing s with
  | nil => exact ⟨s, rfl, Sets.refl V D s, by simp⟩
  | cons x rest ih =>
    obtain ⟨t, ht, hst, ha⟩ := h x (List.mem_cons_self ..) s hs
    obtain ⟨u, hu, hsu, hb⟩ := ih (fun y hy => h y (List.mem_cons_of_mem _ hy)) (hI s t hs hst)
    refine ⟨u, by rw [forEach_cons_ok ht, hu], Sets.trans _ _ _ hst hsu, ?_⟩
    rintro a ⟨y, hy, hya⟩
    rcases List.mem_cons.1 hy with rfl | hy
    · exact hsu.keeps a (ha a hya)
    · exact hb a ⟨y, hy, hya⟩

/-- A loop that cannot stop, as a run. -/
theorem Fills.sweep {α : Type} {V : Nat → Option Byte} {D : Nat → Prop} {A : α → Nat → Prop}
    {body : α → State → State} {xs : List α} (h : ∀ x ∈ xs, ∀ s, Fills V D (A x) s (.ok (body x s))) (s : State) :
    Fills V D (fun a => ∃ x ∈ xs, A x a) s (.ok (sweep xs body s)) := by
  rw [← forEach_ok_eq_sweep]
  exact Fills.loop (I := fun _ => True) (fun _ _ _ _ => trivial) (fun x hx s _ => h x hx s) trivial

theorem Fills.sets {V : Nat → Option Byte} {D A : Nat → Prop} {s t : State} (h : Fills V D A s (.ok t)) :
    Sets V D s t ∧ ∀ a, A a → t.mem.read a = V a := by
  obtain ⟨u, hu, hs, ha⟩ := h
  cases hu
  exact ⟨hs, ha⟩

end Sys2Proof.Machine
end

