-- ==== Sys2Proof/Laws/Copying.lean ====
section
/-! SUPPORT. What the body of BLKCOPY does (41_compositor.md R139 to R141), and that a decode or a copy, whether it ends or
stops, wrote only its own bytes. -/

namespace Sys2Proof.Machine

/-- The absolute pixel `(x, y)` is copied: it lies under the block of the cursor and in the clip rectangle (R139). -/
def Copied (g : Regs) (x y : Int) : Prop :=
  (copySpan g).x0 ≤ x ∧ x ≤ (copySpan g).x1 ∧ (copySpan g).y0 ≤ y ∧ y ≤ (copySpan g).y1

/-- A copied pixel lies in the block and in the requested rectangle (R140). -/
theorem Copied.bounds {g : Regs} {x y : Int} (h : Copied g x y) :
    blockLeft g ≤ x ∧ x ≤ blockLeft g + 255 ∧ blockTop g ≤ y ∧ y ≤ blockTop g + 255 ∧
    rectLeft g ≤ x ∧ x < rectLeft g + rectWidth g ∧ rectTop g ≤ y ∧ y < rectTop g + rectHeight g ∧
    0 ≤ x ∧ x < u32 g.imgW ∧ 0 ≤ y ∧ y < u32 g.imgH := by
  obtain ⟨h1, h2, h3, h4⟩ := h
  simp only [copySpan, clip] at h1 h2 h3 h4
  omega

/-- The offset in TILE of a pixel of the requested rectangle, by its row and column there (R141). -/
theorem copyTo_eq {g : Regs} {x y : Int} (b : Nat) (hx : rectLeft g ≤ x) (hy : rectTop g ≤ y) :
    copyTo g b x y = b * (rectWidth g * rectHeight g) + (y - rectTop g).toNat * rectWidth g + (x - rectLeft g).toNat := by
  obtain ⟨c, hc⟩ := Int.eq_ofNat_of_zero_le (show 0 ≤ x - rectLeft g by omega)
  obtain ⟨r, hr⟩ := Int.eq_ofNat_of_zero_le (show 0 ≤ y - rectTop g by omega)
  simp only [copyTo, planar, hc, hr]
  norm_cast

/-- The offset in BLK of a pixel of the block, by its row and column there (R141). -/
theorem copyFrom_eq {g : Regs} {x y : Int} (b : Nat) (hx : blockLeft g ≤ x) (hy : blockTop g ≤ y) :
    copyFrom g b x y = b * 65536 + (y - blockTop g).toNat * 256 + (x - blockLeft g).toNat := by
  simp only [copyFrom, planar, Config.blkPlane, Config.subframeDim]
  omega

/-- Band, row and column of an offset of a `w` by `h` band-sequential image, taken apart. -/
theorem planar_apart {w h b r c : Nat} (hr : r < h) (hc : c < w) :
    (b * (w * h) + r * w + c) / (w * h) = b ∧ (b * (w * h) + r * w + c) % (w * h) / w = r ∧
    (b * (w * h) + r * w + c) % w = c := by
  have hlt : r * w + c < w * h := by
    calc r * w + c < r * w + w := by omega
      _ = w * (r + 1) := by ring
      _ ≤ w * h := Nat.mul_le_mul_left w hr
  have hmod : (b * (w * h) + r * w + c) % (w * h) = r * w + c := by
    rw [Nat.add_assoc, Nat.mul_add_mod_self_right, Nat.mod_eq_of_lt hlt]
  refine ⟨?_, ?_, ?_⟩
  · rw [Nat.add_assoc, Nat.add_comm, Nat.add_mul_div_right _ _ (by omega), Nat.div_eq_of_lt hlt, Nat.zero_add]
  · rw [hmod, Nat.add_comm, Nat.add_mul_div_right _ _ (by omega), Nat.div_eq_of_lt hc, Nat.zero_add]
  · rw [show b * (w * h) + r * w + c = c + (b * h + r) * w by ring, Nat.add_mul_mod_self_right, Nat.mod_eq_of_lt hc]

theorem planar_lt {n w h b r c : Nat} (hb : b < n) (hr : r < h) (hc : c < w) :
    b * (w * h) + r * w + c < w * h * n := by
  have h1 : r * w + c < w * h := by
    calc r * w + c < r * w + w := by omega
      _ = w * (r + 1) := by ring
      _ ≤ w * h := Nat.mul_le_mul_left w hr
  calc b * (w * h) + r * w + c < (b + 1) * (w * h) := by rw [Nat.add_mul, Nat.one_mul]; omega
    _ ≤ n * (w * h) := Nat.mul_le_mul_right _ hb
    _ = w * h * n := Nat.mul_comm ..

/-- The offsets a copy of `n` bands writes (R139). -/
def InCopy (n : Nat) (g : Regs) (a : Nat) : Prop :=
  ∃ b < n, ∃ x y, Copied g x y ∧ a = Config.tileBase + copyTo g b x y

/-- They lie in the tile. -/
theorem InCopy.inTile {n : Nat} {g : Regs} {a : Nat} (h : InCopy n g a) :
    Config.tileBase ≤ a ∧ a < Config.tileBase + tileBytes g n := by
  obtain ⟨b, hb, x, y, hxy, rfl⟩ := h
  have := hxy.bounds
  rw [copyTo_eq b (by omega) (by omega)]
  have := planar_lt (n := n) (w := rectWidth g) (h := rectHeight g) hb
    (show (y - rectTop g).toNat < rectHeight g by omega) (show (x - rectLeft g).toNat < rectWidth g by omega)
  simp only [tileBytes]
  omega

/-- What a copy from the block in memory `m` puts at a host offset of TILE. -/
def copyImage (m : Memory) (g : Regs) (a : Nat) : Option Byte :=
  m.read (Config.blkBase + copyFrom g ((a - Config.tileBase) / (rectWidth g * rectHeight g))
    (rectLeft g + ((a - Config.tileBase) % rectWidth g : Nat))
    (rectTop g + ((a - Config.tileBase) % (rectWidth g * rectHeight g) / rectWidth g : Nat)))

theorem copyImage_at {m : Memory} {g : Regs} {x y : Int} (b : Nat) (h : Copied g x y) :
    copyImage m g (Config.tileBase + copyTo g b x y) = m.read (Config.blkBase + copyFrom g b x y) := by
  have hb := h.bounds
  obtain ⟨h1, h2, h3⟩ := planar_apart (b := b) (w := rectWidth g) (h := rectHeight g)
    (show (y - rectTop g).toNat < rectHeight g by omega) (show (x - rectLeft g).toNat < rectWidth g by omega)
  simp only [copyImage, Nat.add_sub_cancel_left]
  rw [copyTo_eq b (by omega) (by omega), h1, h2, h3]
  congr 3 <;> omega

/-- `blkcopy()` completes when every byte it consumes has a value; it copies the block under the clip rectangle to the
tile and writes nothing else (R139 to R141). -/
theorem blkcopyBody_fills {n : Nat} {s : State}
    (hm : ∀ b < n, ∀ x y, Copied s.reg x y → (s.mem.read (Config.blkBase + copyFrom s.reg b x y)).isSome = true)
    (hn : n ≤ 3) :
    Fills (copyImage s.mem s.reg) (InCopy n s.reg) (InCopy n s.reg) s (blkcopyBody n s) := by
  by_cases he : (clip s.reg).isEmpty = true
  · refine ⟨s, by simp [blkcopyBody, he], Sets.refl .., ?_⟩
    rintro a ⟨b, -, x, y, hxy, -⟩
    obtain ⟨h1, h2, h3, h4⟩ := hxy
    simp only [Span.isEmpty, Bool.or_eq_true, decide_eq_true_eq] at he
    simp only [copySpan] at h1 h2 h3 h4
    omega
  · let I : State → Prop := fun u => ∀ a, ¬ InCopy n s.reg a → u.mem.read a = s.mem.read a
    have hI : ∀ u v, I u → Sets (copyImage s.mem s.reg) (InCopy n s.reg) u v → I v :=
      fun u v hu hs a ha => (hs.read_other ha).trans (hu a ha)
    have hrun : blkcopyBody n s = forEach (upToInt (copySpan s.reg).y0 (copySpan s.reg).y1) (fun y =>
        forEach (upToInt (copySpan s.reg).x0 (copySpan s.reg).x1) (fun x =>
          forEach (List.range n) (copyByte s.reg x y))) s := by
      rw [blkcopyBody, if_neg he]
    rw [hrun]
    refine (Fills.loop (I := I) (A := fun y a => ∃ x ∈ upToInt (copySpan s.reg).x0 (copySpan s.reg).x1,
      ∃ b ∈ List.range n, a = Config.tileBase + copyTo s.reg b x y) hI ?_ (fun _ _ => rfl)).mono ?_
    · intro y hy u hu
      refine Fills.loop (I := I) hI ?_ hu
      intro x hx w hw
      refine Fills.loop (I := I) (A := fun b a => a = Config.tileBase + copyTo s.reg b x y) hI ?_ hw
      intro b hb v hv
      have hxy : Copied s.reg x y := ⟨(mem_upToInt.1 hx).1, (mem_upToInt.1 hx).2, (mem_upToInt.1 hy).1, (mem_upToInt.1 hy).2⟩
      have hb' := List.mem_range.1 hb
      obtain ⟨val, hval⟩ := Option.isSome_iff_exists.1 (hm b hb' x y hxy)
      have hout : ¬ InCopy n s.reg (Config.blkBase + copyFrom s.reg b x y) := by
        intro h
        have h1 := h.inTile
        have h2 := hxy.bounds
        rw [copyFrom_eq b h2.1 h2.2.2.1] at h1
        simp only [Config.tileBase, Config.blkBase] at h1
        omega
      have hr : memRead .blk (copyFrom s.reg b x y) v = .ok val := by
        simp only [memRead, base_blk]
        rw [hv _ hout, hval]
      have : copyByte s.reg x y b v = .ok (memWrite .tile (copyTo s.reg b x y) val v) := by
        simp only [copyByte, hr, bind, Except.bind]
      rw [this]
      refine Fills.write .tile _ _ v ⟨b, hb', x, y, hxy, rfl⟩ ?_ (fun _ h => h)
      rw [base_tile, copyImage_at b hxy, hval]
    · rintro a ⟨b, hb, x, y, ⟨h1, h2, h3, h4⟩, rfl⟩
      exact ⟨y, mem_upToInt.2 ⟨h3, h4⟩, x, mem_upToInt.2 ⟨h1, h2⟩, b, List.mem_range.2 hb, rfl⟩

/-- A copy, ended or stopped, wrote only the tile bytes of copied pixels. -/
theorem blkcopyBody_quiet (n : Nat) (s : State) : Leads (Quiet (InCopy n s.reg)) s (blkcopyBody n s) := by
  have hr := Quiet.refl (InCopy n s.reg)
  unfold blkcopyBody
  split
  · exact Leads.ok (hr s)
  · refine Leads.loop hr Quiet.trans (fun y hy u => ?_) s
    refine Leads.loop hr Quiet.trans (fun x hx w => ?_) u
    refine Leads.loop hr Quiet.trans (fun b hb v => ?_) w
    refine Leads.read hr (fun val _ => Leads.ok (memWrite_quiet _ _ _ _ ?_))
    exact ⟨b, List.mem_range.1 hb, x, y,
      ⟨(mem_upToInt.1 hx).1, (mem_upToInt.1 hx).2, (mem_upToInt.1 hy).1, (mem_upToInt.1 hy).2⟩, rfl⟩

end Sys2Proof.Machine
end

