-- ==== Sys2Proof/Laws/Decoding.lean ====
section
/-! SUPPORT. What the body of DECODE does (40_decode.md R110 to R119). -/

namespace Sys2Proof.Machine

/-- The two codes as arithmetic (R111). -/
theorem code1_toNat (b0 b1 : Byte) : (code1 b0 b1).toNat = b0.toNat * 16 + b1.toNat / 16 := by
  have h0 := b0.isLt
  have h1 := b1.isLt
  have hs : b1.toNat >>> 4 = b1.toNat / 16 := Nat.shiftRight_eq_div_pow _ 4
  have hl : b0.toNat <<< 4 = b0.toNat * 16 := Nat.shiftLeft_eq _ 4
  have hor : b0.toNat <<< 4 ||| b1.toNat / 16 = b0.toNat <<< 4 + b1.toNat / 16 :=
    (Nat.shiftLeft_add_eq_or_of_lt (by omega) _).symm
  simp only [code1, BitVec.toNat_or, BitVec.toNat_shiftLeft, BitVec.toNat_ushiftRight, BitVec.truncate_eq_setWidth,
    BitVec.toNat_setWidth]
  rw [Nat.mod_eq_of_lt (show b0.toNat < 2 ^ 12 by omega), Nat.mod_eq_of_lt (show b1.toNat < 2 ^ 12 by omega), hs,
    Nat.mod_eq_of_lt (show b0.toNat <<< 4 < 2 ^ 12 by omega), hor, hl]

theorem code2_toNat (b1 b2 : Byte) : (code2 b1 b2).toNat = b1.toNat % 16 * 256 + b2.toNat := by
  have h1 := b1.isLt
  have h2 := b2.isLt
  have hm : b1.toNat &&& 15 = b1.toNat % 16 := Nat.and_two_pow_sub_one_eq_mod _ 4
  have hl : (b1.toNat % 16) <<< 8 = b1.toNat % 16 * 256 := Nat.shiftLeft_eq _ 8
  have hor : (b1.toNat % 16) <<< 8 ||| b2.toNat = (b1.toNat % 16) <<< 8 + b2.toNat :=
    (Nat.shiftLeft_add_eq_or_of_lt (by omega) _).symm
  simp only [code2, BitVec.toNat_or, BitVec.toNat_shiftLeft, BitVec.toNat_and, BitVec.truncate_eq_setWidth,
    BitVec.toNat_setWidth]
  rw [Nat.mod_eq_of_lt (show b1.toNat < 2 ^ 12 by omega), Nat.mod_eq_of_lt (show b2.toNat < 2 ^ 12 by omega),
    show (0xF : BitVec 12).toNat = 15 from rfl, hm, Nat.mod_eq_of_lt (show (b1.toNat % 16) <<< 8 < 2 ^ 12 by omega), hor, hl]

/-- The planes of BLK that a decode of `n` bands fills (R110). -/
def InPlanes (n a : Nat) : Prop := Config.blkBase ≤ a ∧ a < Config.blkBase + n * 65536

/-- What a decode of the bytes in `m` puts at a host offset of BLK (R114). -/
def blockImage (m : Memory) (a : Nat) : Option Byte :=
  decodedByte m ((a - Config.blkBase) / 65536) ((a - Config.blkBase) % 65536 / 256) ((a - Config.blkBase) % 256)

theorem blockImage_at (m : Memory) (b r c : Nat) (hr : r < 256) (hc : c < 256) :
    blockImage m (Config.blkBase + blkOffset b r c) = decodedByte m b r c := by
  simp only [blockImage, blkOffset, Config.blkBase, Config.blkPlane, Config.subframeDim, Nat.add_sub_cancel_left]
  congr 1 <;> omega

theorem inPlanes_at {n b r c : Nat} (hb : b < n) (hr : r < 256) (hc : c < 256) :
    InPlanes n (Config.blkBase + blkOffset b r c) := by
  simp only [InPlanes, blkOffset, Config.blkBase, Config.blkPlane, Config.subframeDim]
  omega

/-- A state of a decode that began with memory `m`: outside the planes its memory still is `m`. -/
def Decoding (m : Memory) (n : Nat) (s : State) : Prop := ∀ a, ¬ InPlanes n a → s.mem.read a = m.read a

theorem Decoding.keep {m : Memory} {n : Nat} {V : Nat → Option Byte} {s t : State} (h : Decoding m n s)
    (hs : Sets V (InPlanes n) s t) : Decoding m n t := fun a ha => (hs.read_other ha).trans (h a ha)

/-- Every byte the decode of `n` bands consumes has a value in `m`. -/
def Decodable (m : Memory) (n : Nat) : Prop :=
  ∀ b < n, ∀ r < 256, ∀ c < 256, (decodedByte m b r c).isSome = true

theorem memRead_of {sp : Space} {o : Nat} {s : State} {v : Byte} (h : s.mem.read (sp.base + o) = some v) :
    memRead sp o s = .ok v := by
  simp [memRead, h]

/-- The three bytes of a triple (R112). -/
structure Triple (m : Memory) (i j : Nat) (b0 b1 b2 : Byte) : Prop where
  at0 : m.read (Config.cbufBase + tripleAt i j) = some b0
  at1 : m.read (Config.cbufBase + (tripleAt i j + 1)) = some b1
  at2 : m.read (Config.cbufBase + (tripleAt i j + 2)) = some b2

theorem decodedByte_of_triple {m : Memory} {i j : Nat} {b0 b1 b2 : Byte} (h : Triple m i j b0 b1 b2) (b t c : Nat)
    (hi : i % 4 = 0) (hj : j % 8 = 0) (ht : t < 4) (hc : c < 8) :
    decodedByte m b (i + t) (j + c) =
      (m.read (Config.cbBase + (t * 16384 + (groupCode b0 b1 b2 c * 4 + c % 4)))).bind
        (fun idx => m.read (Config.palBase + (idx.toNat * 4 + b))) := by
  have hg : ((i + t) / 4 * 32 + (j + c) / 8) * 3 = tripleAt i j := by
    simp only [tripleAt]
    omega
  have h1 : (i + t) % 4 = t := by omega
  have h2 : (j + c) % 4 = c % 4 := by omega
  have h3 : (j + c) % 8 = c % 8 := by omega
  simp only [decodedByte, hg, h.at0, Nat.add_assoc, h.at1, h.at2, h1, h2, groupCode, h3, Option.bind_eq_bind,
    Option.bind_some]

theorem triple_of_decodable {m : Memory} {n i j : Nat} (hm : Decodable m n) (hn : 0 < n) (hi : i < 256) (hj : j < 256) :
    ∃ b0 b1 b2, Triple m i j b0 b1 b2 := by
  have h := hm 0 hn i hi j hj
  simp only [decodedByte, Option.bind_eq_bind] at h
  have hg : (i / 4 * 32 + j / 8) * 3 = tripleAt i j := rfl
  rw [hg] at h
  cases h0 : m.read (Config.cbufBase + tripleAt i j) with
  | none =>
    rw [h0] at h
    cases h
  | some b0 =>
    cases h1 : m.read (Config.cbufBase + tripleAt i j + 1) with
    | none =>
      rw [h0, Option.bind_some, h1] at h
      cases h
    | some b1 =>
      cases h2 : m.read (Config.cbufBase + tripleAt i j + 2) with
      | none =>
        rw [h0, Option.bind_some, h1, Option.bind_some, h2] at h
        cases h
      | some b2 => exact ⟨b0, b1, b2, h0, h1, h2⟩

/-- One band of one place of the two groups: both bytes are written, and they are the image's (R110). -/
theorem decodeBand_fills {m : Memory} {n i j t e b : Nat} {idx1 idx2 : Byte} {s : State}
    (hs : Decoding m n s) (hb : b < n) (hr : i + t < 256) (hc : j + e + 4 < 256) (hb3 : b < 4)
    {v1 v2 : Byte} (h1 : m.read (Config.palBase + (idx1.toNat * 4 + b)) = some v1)
    (h2 : m.read (Config.palBase + (idx2.toNat * 4 + b)) = some v2)
    (hv1 : decodedByte m b (i + t) (j + e) = some v1) (hv2 : decodedByte m b (i + t) (j + e + 4) = some v2) :
    Fills (blockImage m) (InPlanes n)
      (fun a => a = Config.blkBase + blkOffset b (i + t) (j + e) ∨ a = Config.blkBase + blkOffset b (i + t) (j + e + 4)) s
      (decodeBand i j t e idx1 idx2 b s) := by
  have hpal : ∀ idx : Byte, ¬ InPlanes n (Config.palBase + (idx.toNat * 4 + b)) := by
    intro idx
    have := idx.isLt
    simp only [InPlanes, Config.palBase, Config.blkBase]
    omega
  have hread1 : palLookup idx1 b s = .ok v1 := memRead_of (by rw [base_pal, hs _ (hpal idx1), h1])
  have w1 : Fills (blockImage m) (InPlanes n) (fun a => a = Config.blkBase + blkOffset b (i + t) (j + e)) s
      (.ok (memWrite .blk (blkOffset b (i + t) (j + e)) v1 s)) :=
    Fills.write _ _ _ _ (inPlanes_at hb hr (by omega)) ((blockImage_at _ _ _ _ hr (by omega)).trans hv1) (fun _ h => h)
  have hread2 : palLookup idx2 b (memWrite .blk (blkOffset b (i + t) (j + e)) v1 s) = .ok v2 :=
    memRead_of (by rw [base_pal, (hs.keep w1.sets.1) _ (hpal idx2), h2])
  have w2 : Fills (blockImage m) (InPlanes n) (fun a => a = Config.blkBase + blkOffset b (i + t) (j + e + 4))
      (memWrite .blk (blkOffset b (i + t) (j + e)) v1 s)
      (.ok (memWrite .blk (blkOffset b (i + t) (j + e + 4)) v2 (memWrite .blk (blkOffset b (i + t) (j + e)) v1 s))) :=
    Fills.write _ _ _ _ (inPlanes_at hb hr hc) ((blockImage_at _ _ _ _ hr hc).trans hv2) (fun _ h => h)
  refine ⟨_, ?_, Sets.trans _ _ _ w1.sets.1 w2.sets.1, ?_⟩
  · simp only [decodeBand, hread1, hread2, bind, Except.bind]
  · rintro a (ha | ha)
    · exact w2.sets.1.keeps a (w1.sets.2 a ha)
    · exact w2.sets.2 a ha

/-- One place of the two groups, all bands (R110, R113, R114). -/
theorem decodePlace_fills {m : Memory} {n i j t e : Nat} {b0 b1 b2 : Byte} {s : State} (hs : Decoding m n s)
    (hm : Decodable m n) (hn : 0 < n ∧ n ≤ 3) (htr : Triple m i j b0 b1 b2) (hi : i % 4 = 0 ∧ i < 256)
    (hj : j % 8 = 0 ∧ j < 256) (ht : t < 4) (he : e < 4) :
    Fills (blockImage m) (InPlanes n)
      (fun a => ∃ b < n, a = Config.blkBase + blkOffset b (i + t) (j + e) ∨
        a = Config.blkBase + blkOffset b (i + t) (j + e + 4)) s
      (decodePlace n i j (code1 b0 b1) (code2 b1 b2) t e s) := by
  have hr : i + t < 256 := by omega
  have hc : j + e + 4 < 256 := by omega
  have g1 : groupCode b0 b1 b2 e = (code1 b0 b1).toNat := by
    rw [groupCode, if_pos (by omega), code1_toNat]
  have g2 : groupCode b0 b1 b2 (e + 4) = (code2 b1 b2).toNat := by
    rw [groupCode, if_neg (by omega), code2_toNat]
  have e1 : ∀ b, decodedByte m b (i + t) (j + e) = _ := fun b =>
    decodedByte_of_triple htr b t e hi.1 hj.1 ht (by omega)
  have e2 : ∀ b, decodedByte m b (i + t) (j + e + 4) = _ := fun b =>
    decodedByte_of_triple htr b t (e + 4) hi.1 hj.1 ht (by omega)
  rw [g1, Nat.mod_eq_of_lt he] at e1
  rw [g2, show (e + 4) % 4 = e by omega] at e2
  have s1 := fun b hb => hm b hb (i + t) hr (j + e) (by omega)
  have s2 := fun b hb => hm b hb (i + t) hr (j + e + 4) hc
  have hcb : ∀ c : BitVec 12, ¬ InPlanes n (Config.cbBase + (t * 16384 + (c.toNat * 4 + e))) := by
    intro c
    have := c.isLt
    simp only [InPlanes, Config.cbBase, Config.blkBase]
    omega
  cases hx1 : m.read (Config.cbBase + (t * 16384 + ((code1 b0 b1).toNat * 4 + e))) with
  | none =>
    have := s1 0 hn.1
    rw [e1 0, hx1] at this
    cases this
  | some idx1 =>
    cases hx2 : m.read (Config.cbBase + (t * 16384 + ((code2 b1 b2).toNat * 4 + e))) with
    | none =>
      have := s2 0 hn.1
      rw [e2 0, hx2] at this
      cases this
    | some idx2 =>
      have r1 : cbLookup t (code1 b0 b1) e s = .ok idx1 := memRead_of (by
        rw [base_cb]
        exact (hs _ (hcb (code1 b0 b1))).trans hx1)
      have r2 : cbLookup t (code2 b1 b2) e s = .ok idx2 := memRead_of (by
        rw [base_cb]
        exact (hs _ (hcb (code2 b1 b2))).trans hx2)
      have hrun : decodePlace n i j (code1 b0 b1) (code2 b1 b2) t e s =
          forEach (List.range n) (decodeBand i j t e idx1 idx2) s := by
        simp only [decodePlace, r1, r2, bind, Except.bind]
      rw [hrun]
      refine (Fills.loop (I := Decoding m n) (A := fun b a => a = Config.blkBase + blkOffset b (i + t) (j + e) ∨
        a = Config.blkBase + blkOffset b (i + t) (j + e + 4)) (fun _ _ h h' => h.keep h') ?_ hs).mono ?_
      · intro b hb u hu
        have hbn := List.mem_range.1 hb
        have q1 := s1 b hbn
        have q2 := s2 b hbn
        obtain ⟨v1, hv1⟩ := Option.isSome_iff_exists.1 q1
        obtain ⟨v2, hv2⟩ := Option.isSome_iff_exists.1 q2
        have p1 : m.read (Config.palBase + (idx1.toNat * 4 + b)) = some v1 := by
          rw [e1 b, hx1] at hv1
          exact hv1
        have p2 : m.read (Config.palBase + (idx2.toNat * 4 + b)) = some v2 := by
          rw [e2 b, hx2] at hv2
          exact hv2
        exact decodeBand_fills hu hbn hr hc (by omega) p1 p2 hv1 hv2
      · rintro a ⟨b, hb, h⟩
        exact ⟨b, List.mem_range.2 hb, h⟩

/-- One triple: the two 4×4 groups in every band (R110). -/
theorem decodeTriple_fills {m : Memory} {n i j : Nat} {s : State} (hs : Decoding m n s) (hm : Decodable m n)
    (hn : 0 < n ∧ n ≤ 3) (hi : i % 4 = 0 ∧ i < 256) (hj : j % 8 = 0 ∧ j < 256) :
    Fills (blockImage m) (InPlanes n)
      (fun a => ∃ t < 4, ∃ c < 8, ∃ b < n, a = Config.blkBase + blkOffset b (i + t) (j + c)) s
      (decodeTriple n i j s) := by
  obtain ⟨b0, b1, b2, htr⟩ := triple_of_decodable hm hn.1 hi.2 hj.2
  have hcbuf : ∀ k < 3, ¬ InPlanes n (Config.cbufBase + (tripleAt i j + k)) := by
    intro k hk
    simp only [InPlanes, Config.cbufBase, Config.blkBase, tripleAt]
    omega
  have r0 : memRead .cbuf (tripleAt i j) s = .ok b0 :=
    memRead_of (by rw [base_cbuf]; exact (hs _ (hcbuf 0 (by omega))).trans htr.at0)
  have r1 : memRead .cbuf (tripleAt i j + 1) s = .ok b1 :=
    memRead_of (by rw [base_cbuf, hs _ (hcbuf 1 (by omega)), htr.at1])
  have r2 : memRead .cbuf (tripleAt i j + 2) s = .ok b2 :=
    memRead_of (by rw [base_cbuf, hs _ (hcbuf 2 (by omega)), htr.at2])
  have hrun : decodeTriple n i j s = forEach (upTo 0 3) (fun t => forEach (upTo 0 3) (fun e =>
      decodePlace n i j (code1 b0 b1) (code2 b1 b2) t e)) s := by
    simp only [decodeTriple, r0, r1, r2, bind, Except.bind]
  rw [hrun]
  refine (Fills.loop (I := Decoding m n)
    (A := fun t a => ∃ e ∈ upTo 0 3, ∃ b < n, a = Config.blkBase + blkOffset b (i + t) (j + e) ∨
      a = Config.blkBase + blkOffset b (i + t) (j + e + 4)) (fun _ _ h h' => h.keep h') ?_ hs).mono ?_
  · intro t ht u hu
    have ht' := mem_upTo.1 ht
    refine Fills.loop (I := Decoding m n) (fun _ _ h h' => h.keep h') ?_ hu
    intro e he w hw
    have he' := mem_upTo.1 he
    exact decodePlace_fills hw hm hn htr hi hj (by omega) (by omega)
  · rintro a ⟨t, ht, c, hc, b, hb, rfl⟩
    refine ⟨t, mem_upTo.2 (by omega), c % 4, mem_upTo.2 (by omega), b, hb, ?_⟩
    by_cases h4 : c < 4
    · left
      rw [Nat.mod_eq_of_lt h4]
    · right
      rw [show j + c % 4 + 4 = j + c by omega]

/-- `decode()` completes when every byte it consumes has a value; it fills the planes of BLK with the image of the bytes
it consumes, in the inverse form of R114, and writes nothing else. -/
theorem decodeBody_fills {n : Nat} {s : State} (hm : Decodable s.mem n) (hn : 0 < n ∧ n ≤ 3) :
    Fills (blockImage s.mem) (InPlanes n) (InPlanes n) s (decodeBody n s) := by
  refine (Fills.loop (I := Decoding s.mem n)
    (A := fun i a => ∃ j ∈ upToBy 0 248 8, ∃ t < 4, ∃ c < 8, ∃ b < n, a = Config.blkBase + blkOffset b (i + t) (j + c))
    (fun _ _ h h' => h.keep h') ?_ (fun _ _ => rfl)).mono ?_
  · intro i hi u hu
    refine Fills.loop (I := Decoding s.mem n) (fun _ _ h h' => h.keep h') ?_ hu
    intro j hj w hw
    exact decodeTriple_fills hw hm hn (mem_rowBands.1 hi) (mem_colBands.1 hj)
  · intro a ha
    simp only [InPlanes, Config.blkBase] at ha
    have hr : (a - 262144) % 65536 / 256 < 256 := by omega
    have hc : (a - 262144) % 256 < 256 := by omega
    refine ⟨(a - 262144) % 65536 / 256 / 4 * 4, mem_rowBands.2 (by omega), (a - 262144) % 256 / 8 * 8,
      mem_colBands.2 (by omega), (a - 262144) % 65536 / 256 % 4, by omega, (a - 262144) % 256 % 8, by omega,
      (a - 262144) / 65536, by omega, ?_⟩
    simp only [blkOffset, Config.blkBase, Config.blkPlane, Config.subframeDim]
    omega

end Sys2Proof.Machine
end

