-- ==== Sys2Proof/Laws/Loads.lean ====
section
/-! SUPPORT. What the blank fill and the loads from port answers do. -/

namespace Sys2Proof.Machine

/-- `tfill()` makes every byte of the tile BLANK and writes no other (41_compositor.md R138). -/
theorem tfillBody_fills (n : Nat) (s : State) :
    Fills (fun _ => some s.reg.blank) (fun a => Config.tileBase ≤ a ∧ a < Config.tileBase + tileBytes s.reg n)
      (fun a => Config.tileBase ≤ a ∧ a < Config.tileBase + tileBytes s.reg n) s (.ok (tfillBody n s)) := by
  refine (Fills.sweep (A := fun o a => a = Config.tileBase + o) ?_ s).mono ?_
  · intro o ho u
    have := List.mem_range.1 ho
    refine Fills.write .tile o s.reg.blank u ?_ rfl ?_
    · simp only [base_tile]
      omega
    · intro a ha
      exact ha
  · intro a ha
    exact ⟨a - Config.tileBase, List.mem_range.2 (by omega), by omega⟩

/-- The codebook load writes every byte of CB and no other byte (43_external_ports.md R183). -/
theorem loadCodebook_fills (o : OpenAnswer) (s : State) :
    Fills (fun a => some (o.cb.byte (a - Config.cbBase)))
      (fun a => Config.cbBase ≤ a ∧ a < Config.cbBase + Config.cbSize)
      (fun a => Config.cbBase ≤ a ∧ a < Config.cbBase + Config.cbSize) s (.ok (loadCodebook o s)) := by
  refine (Fills.sweep (A := fun t a => ∃ k ∈ upTo 0 (Config.cbTableBytes - 1),
    a = Config.cbBase + (t * Config.cbTableBytes + k)) ?_ s).mono ?_
  · intro t ht u
    have ht' := (mem_upTo.1 ht).2
    refine Fills.sweep (A := fun k a => a = Config.cbBase + (t * Config.cbTableBytes + k)) ?_ u
    intro k hk w
    have hk' := (mem_upTo.1 hk).2
    simp only [Config.cbTables, Config.cbTableBytes] at ht' hk'
    refine Fills.write .cb _ _ w ?_ ?_ ?_
    · simp only [base_cb, Config.cbBase, Config.cbSize, Config.cbTableBytes]
      omega
    · simp
    · intro a ha
      exact ha
  · intro a ha
    simp only [Config.cbBase, Config.cbSize] at ha
    refine ⟨(a - 65536) / 16384, mem_upTo.2 ?_, (a - 65536) % 16384, mem_upTo.2 ?_, ?_⟩
    · simp only [Config.cbTables]
      omega
    · simp only [Config.cbTableBytes]
      omega
    · simp only [Config.cbBase, Config.cbTableBytes]
      omega

/-- The palette load writes the first BANDS bytes of every entry of PAL and no other byte (R183). -/
theorem loadPalette_fills (n : Nat) (hn : n ≤ 4) (o : OpenAnswer) (s : State) :
    Fills (fun a => some (o.pal.byte (a - Config.palBase)))
      (fun a => Config.palBase ≤ a ∧ a < Config.palBase + Config.palSize ∧ (a - Config.palBase) % 4 < n)
      (fun a => Config.palBase ≤ a ∧ a < Config.palBase + Config.palSize ∧ (a - Config.palBase) % 4 < n) s
      (.ok (loadPalette n o s)) := by
  refine (Fills.sweep (A := fun idx a => ∃ b ∈ List.range n, a = Config.palBase + (idx * 4 + b)) ?_ s).mono ?_
  · intro idx hidx u
    have hidx' := (mem_upTo.1 hidx).2
    refine Fills.sweep (A := fun b a => a = Config.palBase + (idx * 4 + b)) ?_ u
    intro b hb w
    have hb' := List.mem_range.1 hb
    simp only [Config.palEntries] at hidx'
    refine Fills.write .pal _ _ w ?_ ?_ ?_
    · simp only [base_pal, Config.palBase, Config.palSize]
      omega
    · simp
    · intro a ha
      exact ha
  · intro a ha
    simp only [Config.palBase, Config.palSize] at ha
    refine ⟨(a - 131072) / 4, mem_upTo.2 ?_, (a - 131072) % 4, List.mem_range.2 ?_, ?_⟩
    · simp only [Config.palEntries]
      omega
    · omega
    · simp only [Config.palBase]
      omega

/-- The load of a compressed sub-frame writes every byte of CBUF and no other byte (R184). -/
theorem loadCompressed_fills (f : FetchAnswer) (s : State) :
    Fills (fun a => some (f.data.byte (a - Config.cbufBase)))
      (fun a => Config.cbufBase ≤ a ∧ a < Config.cbufBase + Config.cbufSize)
      (fun a => Config.cbufBase ≤ a ∧ a < Config.cbufBase + Config.cbufSize) s (.ok (loadCompressed f s)) := by
  refine (Fills.sweep (A := fun p a => a = Config.cbufBase + p) ?_ s).mono ?_
  · intro p hp u
    have hp' := (mem_upTo.1 hp).2
    simp only [Config.compressedBytes] at hp'
    refine Fills.write .cbuf _ _ u ?_ ?_ ?_
    · simp only [base_cbuf, Config.cbufBase, Config.cbufSize]
      omega
    · simp
    · intro a ha
      exact ha
  · intro a ha
    simp only [Config.cbufBase, Config.cbufSize] at ha
    refine ⟨a - 196608, mem_upTo.2 ?_, ?_⟩
    · simp only [Config.compressedBytes]
      omega
    · simp only [Config.cbufBase]
      omega

end Sys2Proof.Machine
end

