-- ==== Sys2Proof/Laws/Tiles.lean ====
section
/-! SUPPORT. What the parts of `get_tile` can have done, ended or stopped (41_compositor.md R142), and when a port request
is answered (43_external_ports.md R180, R189). -/

namespace Sys2Proof.Machine

/-! ### Requests -/

theorem await_ok {r : PortReq} {s : State} (h : r ∉ s.env.silent) : await r s = .ok (note r s) := if_neg h

theorem await_silent {r : PortReq} {s : State} (h : r ∈ s.env.silent) : await r s = .error ⟨.portHang r, note r s⟩ :=
  if_pos h

theorem catLookup_ok {h : Word} {s : State} (hs : .catLookup h ∉ s.env.silent) :
    catLookup h s = .ok (note (.catLookup h) s, s.env.lookup.answer h) := by
  rw [catLookup, await_ok hs]
  rfl

theorem locExists_ok {fr fc : Nat} {s : State} (hs : .locExists (cell16 fr) (cell16 fc) ∉ s.env.silent) :
    locExists fr fc s =
      .ok (note (.locExists (cell16 fr) (cell16 fc)) s, s.env.present.answer (cell16 fr, cell16 fc)) := by
  rw [locExists, await_ok hs]
  rfl

theorem frmOpen_ok {dr fc : Nat} {s : State} (hs : .frmOpen (cell16 dr) (cell16 fc) ∉ s.env.silent) :
    frmOpen dr fc s = .ok (note (.frmOpen (cell16 dr) (cell16 fc)) s, s.env.frame.answer (cell16 dr, cell16 fc)) := by
  rw [frmOpen, await_ok hs]
  rfl

theorem frmFetch_ok {dr fc sr sc : Nat} {s : State}
    (hs : .frmFetch (cell16 dr) (cell16 fc) (cell3 sr) (cell3 sc) ∉ s.env.silent) :
    frmFetch dr fc sr sc s = .ok (note (.frmFetch (cell16 dr) (cell16 fc) (cell3 sr) (cell3 sc)) s,
      s.env.cell.answer (cell16 dr, cell16 fc, cell3 sr, cell3 sc)) := by
  rw [frmFetch, await_ok hs]
  rfl

/-- A port operation asks one request and gets an answer, or waits for ever. -/
def Asks {α : Type} (r : PortReq) (s : State) (m : Run (State × α)) : Prop :=
  ∃ x, m = if r ∈ s.env.silent then .error ⟨.portHang r, note r s⟩ else .ok (note r s, x)

theorem locExists_asks (fr fc : Nat) (s : State) :
    Asks (.locExists (cell16 fr) (cell16 fc)) s (locExists fr fc s) := by
  refine ⟨s.env.present.answer (cell16 fr, cell16 fc), ?_⟩
  by_cases h : .locExists (cell16 fr) (cell16 fc) ∈ s.env.silent
  · rw [if_pos h, locExists, await_silent h]
  · rw [if_neg h, locExists_ok h]

theorem frmOpen_asks (dr fc : Nat) (s : State) : Asks (.frmOpen (cell16 dr) (cell16 fc)) s (frmOpen dr fc s) := by
  refine ⟨s.env.frame.answer (cell16 dr, cell16 fc), ?_⟩
  by_cases h : .frmOpen (cell16 dr) (cell16 fc) ∈ s.env.silent
  · rw [if_pos h, frmOpen, await_silent h]
  · rw [if_neg h, frmOpen_ok h]

theorem frmFetch_asks (dr fc sr sc : Nat) (s : State) :
    Asks (.frmFetch (cell16 dr) (cell16 fc) (cell3 sr) (cell3 sc)) s (frmFetch dr fc sr sc s) := by
  refine ⟨s.env.cell.answer (cell16 dr, cell16 fc, cell3 sr, cell3 sc), ?_⟩
  by_cases h : .frmFetch (cell16 dr) (cell16 fc) (cell3 sr) (cell3 sc) ∈ s.env.silent
  · rw [if_pos h, frmFetch, await_silent h]
  · rw [if_neg h, frmFetch_ok h]

theorem catLookup_asks (h : Word) (s : State) : Asks (.catLookup h) s (catLookup h s) := by
  refine ⟨s.env.lookup.answer h, ?_⟩
  by_cases hs : .catLookup h ∈ s.env.silent
  · rw [if_pos hs, catLookup, await_silent hs]
  · rw [if_neg hs, catLookup_ok hs]

/-- A request, answered or not, is recorded and changes nothing else; what follows goes on from there. -/
theorem Leads.request {α : Type} {R : State → State → Prop} {r : PortReq} {s : State} {m : Run (State × α)}
    {f : State × α → Run State} (hm : Asks r s m) (hnote : R s (note r s)) (htrans : ∀ s t u, R s t → R t u → R s u)
    (h : ∀ x, Leads R (note r s) (f (note r s, x))) : Leads R s (m >>= f) := by
  obtain ⟨x, rfl⟩ := hm
  split
  · exact Leads.error hnote
  · exact Leads.after htrans hnote (h x)

/-! ### Decode, and the loads -/

theorem decodeBand_quiet {n i j t e b : Nat} (idx1 idx2 : Byte) (s : State) (hb : b < n) (hr : i + t < 256)
    (hc : j + e + 4 < 256) : Leads (Quiet (InPlanes n)) s (decodeBand i j t e idx1 idx2 b s) := by
  have hrefl := Quiet.refl (InPlanes n)
  refine Leads.read hrefl (fun v1 _ => Leads.after Quiet.trans ?_
    (Leads.read hrefl (fun v2 _ => Leads.ok (memWrite_quiet _ _ _ _ (inPlanes_at hb hr hc)))))
  exact memWrite_quiet _ _ _ _ (inPlanes_at hb hr (by omega))

/-- A decode, ended or stopped, wrote only the planes of BLK (40_decode.md R116). -/
theorem decodeBody_quiet (n : Nat) (s : State) : Leads (Quiet (InPlanes n)) s (decodeBody n s) := by
  have hrefl := Quiet.refl (InPlanes n)
  refine Leads.loop hrefl Quiet.trans (fun i hi u => ?_) s
  refine Leads.loop hrefl Quiet.trans (fun j hj w => ?_) u
  have hi := mem_rowBands.1 hi
  have hj := mem_colBands.1 hj
  refine Leads.read hrefl (fun b0 _ => Leads.read hrefl (fun b1 _ => Leads.read hrefl (fun b2 _ => ?_)))
  refine Leads.loop hrefl Quiet.trans (fun t ht x => ?_) w
  refine Leads.loop hrefl Quiet.trans (fun e he y => ?_) x
  have ht := mem_upTo.1 ht
  have he := mem_upTo.1 he
  refine Leads.read hrefl (fun idx1 _ => Leads.read hrefl (fun idx2 _ => ?_))
  refine Leads.loop hrefl Quiet.trans (fun b hb z => ?_) y
  exact decodeBand_quiet idx1 idx2 z (List.mem_range.1 hb) (by omega) (by omega)

/-- The bytes of CB, and of PAL that an open of `n` bands loads (43_external_ports.md R183). -/
def InTables (n a : Nat) : Prop :=
  Space.cb.covers a = true ∨ (Space.pal.covers a = true ∧ (a - Config.palBase) % 4 < n)

theorem loadTables_quiet (n : Nat) (hn : n ≤ 4) (o : OpenAnswer) (s : State) :
    Quiet (InTables n) s (loadTables n o s) := by
  have h1 := (loadCodebook_fills o s).sets.1.quiet
  have h2 := (loadPalette_fills n hn o (loadCodebook o s)).sets.1.quiet
  refine Quiet.trans _ _ _ (h1.mono ?_) (h2.mono ?_)
  · intro a ha
    exact .inl (covers_iff.2 ha)
  · intro a ha
    exact .inr ⟨covers_iff.2 ⟨ha.1, ha.2.1⟩, ha.2.2⟩

theorem loadCompressed_quiet (f : FetchAnswer) (s : State) :
    Quiet (fun a => Space.cbuf.covers a = true) s (loadCompressed f s) :=
  (loadCompressed_fills f s).sets.1.quiet.mono (fun _ ha => covers_iff.2 ha)

/-- After the loads, every byte that a decode of `n` bands consumes has a value: no decode inside `get_tile` stops. -/
theorem decodable_of_loaded {m : Memory} {n : Nat}
    (hcbuf : ∀ p < 6144, (m.read (Config.cbufBase + p)).isSome = true)
    (hcb : ∀ k < 65536, (m.read (Config.cbBase + k)).isSome = true)
    (hpal : ∀ idx < 256, ∀ b < n, (m.read (Config.palBase + (idx * 4 + b))).isSome = true) : Decodable m n := by
  intro b hb r hr c hc
  have hp : (r / 4 * 32 + c / 8) * 3 + 2 < 6144 := by omega
  obtain ⟨b0, h0⟩ := Option.isSome_iff_exists.1 (hcbuf ((r / 4 * 32 + c / 8) * 3) (by omega))
  obtain ⟨b1, h1⟩ := Option.isSome_iff_exists.1 (hcbuf ((r / 4 * 32 + c / 8) * 3 + 1) (by omega))
  obtain ⟨b2, h2⟩ := Option.isSome_iff_exists.1 (hcbuf ((r / 4 * 32 + c / 8) * 3 + 2) hp)
  have hcode : groupCode b0 b1 b2 c < 4096 := by
    have := b0.isLt
    have := b1.isLt
    have := b2.isLt
    simp only [groupCode]
    split <;> omega
  obtain ⟨idx, hi⟩ := Option.isSome_iff_exists.1
    (hcb (r % 4 * 16384 + (groupCode b0 b1 b2 c * 4 + c % 4)) (by omega))
  have hv := hpal idx.toNat idx.isLt b hb
  simp only [decodedByte, Option.bind_eq_bind, Nat.add_assoc, h0, h1, h2, Option.bind_some, hi]
  exact hv

/-! ### The registers `get_tile` writes -/

/-- Every register but those that `get_tile` writes is unchanged (42_facade.md R165). -/
def TileRegs (g h : Regs) : Prop :=
  h = { g with
    empty := h.empty, fopenCnt := h.fopenCnt
    fr0 := h.fr0, fr1 := h.fr1, fc0 := h.fc0, fc1 := h.fc1
    curFr := h.curFr, curFc := h.curFc, curSr := h.curSr, curSc := h.curSc
    sr0 := h.sr0, sr1 := h.sr1, sc0 := h.sc0, sc1 := h.sc1, diskRow := h.diskRow }

theorem TileRegs.refl (g : Regs) : TileRegs g g := rfl

theorem TileRegs.trans {g h k : Regs} (h1 : TileRegs g h) (h2 : TileRegs h k) : TileRegs g k := by
  unfold TileRegs at *
  rw [h2, h1]

theorem TileRegs.frange (g : Regs) : TileRegs g (frangeRegs g) := by
  unfold TileRegs frangeRegs
  split <;> rfl

theorem TileRegs.srange (g : Regs) : TileRegs g (srangeRegs g) := by
  unfold TileRegs srangeRegs
  split <;> rfl

/-- The operands of the addressing rules are unchanged: rectangle and image. -/
theorem TileRegs.clip {g h : Regs} (hk : TileRegs g h) : clip h = clip g := by
  rw [hk]
  rfl

theorem TileRegs.tileBytes {g h : Regs} (hk : TileRegs g h) (n : Nat) : tileBytes h n = tileBytes g n := by
  rw [hk]
  rfl

/-! ### The visits -/

/-- The offsets `get_tile` may write: the scratch of 70_reset_and_hazards.md R235 and the tile (20_memory.md R71). -/
def InScratchOrTile (n : Nat) (g : Regs) (a : Nat) : Prop :=
  InTables n a ∨ Space.cbuf.covers a = true ∨ InPlanes n a ∨
    (Config.tileBase ≤ a ∧ a < Config.tileBase + tileBytes g n)

/-- What a part of a GETTILE with operands `g` can have done: its own bytes, its own registers, any request. -/
def Visits (n : Nat) (g : Regs) (s t : State) : Prop :=
  TileRegs g s.reg → Effect (InScratchOrTile n g) (fun _ => True) s t ∧ TileRegs g t.reg

theorem Visits.refl (n : Nat) (g : Regs) (s : State) : Visits n g s s := fun h => ⟨Effect.refl _ _ s, h⟩

theorem Visits.trans {n : Nat} {g : Regs} (s t u : State) (h1 : Visits n g s t) (h2 : Visits n g t u) :
    Visits n g s u := fun h => ⟨(h1 h).1.trans (h2 (h1 h).2).1, (h2 (h1 h).2).2⟩

theorem Visits.of_quiet {n : Nat} {g : Regs} {P : Nat → Prop} {s t : State} (h : Quiet P s t)
    (hP : ∀ a, P a → InScratchOrTile n g a) : Visits n g s t :=
  fun hg => ⟨h.1.mono hP (fun _ h => h.elim), h.2 ▸ hg⟩

theorem Visits.of_reg {n : Nat} {g : Regs} {s : State} {k : Regs} (h : TileRegs s.reg k) :
    Visits n g s { s with reg := k } :=
  fun hg => ⟨Effect.of_reg k rfl, hg.trans h⟩

theorem Visits.of_effect {n : Nat} {g : Regs} {s u : State} (h : Effect (InScratchOrTile n g) (fun _ => True) s u)
    (hr : u.reg = s.reg) : Visits n g s u := fun hg => ⟨h, hr ▸ hg⟩

theorem blkcopyBody_visits (n : Nat) (g : Regs) (s : State) : Leads (Visits n g) s (blkcopyBody n s) := by
  have hcopy (hg : TileRegs g s.reg) {t : State} (h : Quiet (InCopy n s.reg) s t) :
      Effect (InScratchOrTile n g) (fun _ => True) s t ∧ TileRegs g t.reg := by
    refine Visits.of_quiet h (fun a ha => ?_) hg
    have := ha.inTile
    rw [hg.tileBytes] at this
    exact .inr (.inr (.inr this))
  exact ⟨fun t ht hg => hcopy hg ((blkcopyBody_quiet n s).1 t ht),
    fun e he hg => hcopy hg ((blkcopyBody_quiet n s).2 e he)⟩

theorem visitCell_visits (n dr fc sr sc : Nat) (g : Regs) (s : State) :
    Leads (Visits n g) s (visitCell n dr fc sr sc s) := by
  refine Leads.request (frmFetch_asks dr fc sr sc s) (Visits.of_effect (note_effect _ s trivial) rfl) Visits.trans ?_
  intro x
  by_cases hx : x.ok = true
  · simp only [hx, if_true]
    refine Leads.after Visits.trans (Visits.of_quiet (loadCompressed_quiet x _) (fun a ha => .inr (.inl ha))) ?_
    refine Leads.bind Visits.trans
      ((decodeBody_quiet n _).mono (fun u v h => Visits.of_quiet h (fun a ha => .inr (.inr (.inl ha))))) ?_
    intro t _
    exact Leads.after Visits.trans (Visits.of_reg (by rfl)) (blkcopyBody_visits n g _)
  · simp only [hx]
    exact Leads.ok (Visits.refl n g _)

theorem visitCells_visits (n dr fc : Nat) (g : Regs) (s : State) : Leads (Visits n g) s (visitCells n dr fc s) :=
  Leads.loop (Visits.refl n g) Visits.trans
    (fun _ _ u => Leads.loop (Visits.refl n g) Visits.trans (fun _ _ w => visitCell_visits n dr fc _ _ g w) u) s

theorem visitPresent_visits (n dr fc : Nat) (hn : n ≤ 4) (g : Regs) (s : State) :
    Leads (Visits n g) s (visitPresent n dr fc s) := by
  refine Leads.request (frmOpen_asks dr fc s) (Visits.of_effect (note_effect _ s trivial) rfl) Visits.trans ?_
  intro x
  have hcount (u : State) : Visits n g u (countOpen u) := Visits.of_reg (by rfl)
  by_cases hx : x.ok = true
  · simp only [hx, if_true]
    refine Leads.after Visits.trans (hcount _) (Leads.after Visits.trans
      (Visits.of_quiet (loadTables_quiet n hn x _) (fun a ha => .inl ha)) ?_)
    refine Leads.bind Visits.trans (visitCells_visits n dr fc g _) ?_
    intro t _
    exact Leads.ok (Visits.of_effect (note_effect _ t trivial) rfl)
  · simp only [hx]
    exact Leads.ok (hcount _)

theorem visitFrame_visits (n fr fc : Nat) (hn : n ≤ 4) (g : Regs) (s : State) :
    Leads (Visits n g) s (visitFrame n fr fc s) := by
  refine Leads.request (locExists_asks fr fc s) (Visits.of_effect (note_effect _ s trivial) rfl) Visits.trans ?_
  intro x
  by_cases hx : x = true
  · simp only [hx, if_true]
    refine Leads.after Visits.trans (t := aimAtFrame fr fc _) (Visits.of_reg (TileRegs.trans ?_ (TileRegs.srange _)))
      (visitPresent_visits n _ fc hn g _)
    rfl
  · simp only [hx]
    exact Leads.ok (Visits.refl n g _)

theorem visitFrames_visits (n : Nat) (hn : n ≤ 4) (g : Regs) (s : State) : Leads (Visits n g) s (visitFrames n s) :=
  Leads.loop (Visits.refl n g) Visits.trans
    (fun _ _ u => Leads.loop (Visits.refl n g) Visits.trans (fun _ _ w => visitFrame_visits n _ _ hn g w) u) s

/-- `get_tile()`, ended or stopped, wrote only its own bytes and registers (R142, 42_facade.md R165). -/
theorem getTileBody_visits (n : Nat) (hn : n ≤ 4) (s : State) : Leads (Visits n s.reg) s (getTileBody n s) := by
  have hpro : Visits n s.reg s (getTilePrologue n s) := by
    refine Visits.trans _ { s with reg := { s.reg with fopenCnt := 0 } } _ (Visits.of_reg (by rfl)) ?_
    have hfill := (tfillBody_fills n { s with reg := { s.reg with fopenCnt := 0 } }).sets.1.quiet
    exact Visits.trans _ _ _ (Visits.of_quiet hfill (fun a ha => .inr (.inr (.inr ha))))
      (Visits.of_reg (TileRegs.frange _))
  simp only [getTileBody]
  refine Leads.after Visits.trans hpro ?_
  split
  · exact Leads.ok (Visits.refl n s.reg _)
  · exact visitFrames_visits n hn s.reg _

end Sys2Proof.Machine
end

