-- ==== Sys2Proof/Laws/Commands.lean ====
section
/-! SUPPORT. The checks a command makes before its body, case by case (60_exceptions.md R206), and the addressing results
case by case (41_compositor.md R131 to R137). -/

namespace Sys2Proof.Machine

/-- Every command is its run of the engine, concluded. -/
theorem exec_eq (i : Instr) (s : State) : exec i s = conclude (runInstr i s) := by
  cases i <;> rfl

theorem conclude_ok (s : State) : conclude (.ok s) = .next s := rfl

theorem conclude_error (e : Stop) : conclude (.error e) = .fault e.why := rfl

/-- A command that answers a next state ran to its end. -/
theorem conclude_eq_next {r : Run State} {t : State} (h : conclude r = .next t) : r = .ok t := by
  cases r with
  | ok u => exact congrArg Except.ok (Host.Outcome.next.inj h)
  | error e => cases h

theorem conclude_eq_fault {r : Run State} {f : Fault} (h : conclude r = .fault f) : ∃ u, r = .error ⟨f, u⟩ := by
  cases r with
  | ok u => cases h
  | error e => exact ⟨e.state, congrArg Except.error (by cases h; rfl)⟩

/-! ### A command cut short by reset (R230) -/

theorem abandon_ok (n : Nat) (s t : State) : abandon n s (.ok t) = .next (cutAfter ((actsBetween s t).take n) s) := rfl

theorem abandon_hang (n : Nat) (s t : State) (r : PortReq) :
    abandon n s (.error ⟨.portHang r, t⟩) = .next (cutAfter ((actsBetween s t).take n) s) := rfl

/-- Reset comes before the byte without a value is consumed, or the command stops for it. -/
theorem abandon_unwritten (n : Nat) (s t : State) (a : Nat) : abandon n s (.error ⟨.unwrittenByte a, t⟩) =
    if n ≤ (actsBetween s t).length then .next (cutAfter ((actsBetween s t).take n) s) else .fault (.unwrittenByte a) := rfl

/-- What is left of the acts that had happened, with every register at its reset value. -/
theorem cutAfter_spec (acts : List Act) (s : State) : cutAfter acts s = { s with
    reg := Regs.reset, mem := replay acts s.mem, hist := acts.reverse ++ s.hist, answer := none } := rfl

/-! ### The checks -/

theorem whenOpen_opened {s : State} (h : s.reg.state = .opened) (body : State → Run State) : whenOpen s body = body s :=
  if_pos h

theorem whenOpen_other {s : State} (h : s.reg.state ≠ .opened) (body : State → Run State) :
    whenOpen s body = .ok (raiseErr .notOpen s) := if_neg h

theorem withBands_some {s : State} {n : Nat} (h : bands s.reg.product = some n) (body : Nat → Run State) :
    withBands s body = body n := by
  simp only [withBands, h]

theorem whenFits_fit {n : Nat} {s : State} (h : TileFits n s) (body : State → Run State) : whenFits n s body = body s :=
  if_neg (Nat.not_lt.2 h)

theorem whenFits_over {n : Nat} {s : State} (h : Config.tileCap < rectWidth s.reg * rectHeight s.reg * n)
    (body : State → Run State) : whenFits n s body = .ok (raiseErr .tileCap s) := if_pos h

/-- A product has one band or three. -/
theorem bands_cases {p : ProductType} {n : Nat} (h : bands p = some n) : n = 1 ∨ n = 3 := by
  cases p <;> simp_all [bands]

theorem frameInGrid_iff {g : Regs} :
    frameInGrid g = true ↔ u32 g.curFr < u32 g.framesV ∧ u32 g.curFc < u32 g.framesH := by
  simp only [frameInGrid, Bool.and_eq_true, decide_eq_true_eq]

theorem subInFrame_iff {g : Regs} : subInFrame g = true ↔ u32 g.curSr < 6 ∧ u32 g.curSc < 6 := by
  simp only [subInFrame, Bool.and_eq_true, decide_eq_true_eq]
  exact Iff.rfl

/-! ### FRANGE and SRANGE -/

theorem emptyOfImage_iff {g : Regs} : emptyOfImage g = true ↔ (clip g).x1 < (clip g).x0 ∨ (clip g).y1 < (clip g).y0 := by
  simp only [emptyOfImage, Span.isEmpty, Bool.or_eq_true, decide_eq_true_eq]

theorem emptyOfFrame_iff {g : Regs} : emptyOfFrame g = true ↔
    ((clip g).x1 < (clip g).x0 ∨ (clip g).y1 < (clip g).y0) ∨
      ((frameSpan g).x1 < (frameSpan g).x0 ∨ (frameSpan g).y1 < (frameSpan g).y0) := by
  simp only [emptyOfFrame, frameSpan, Span.isEmpty, Bool.or_eq_true, decide_eq_true_eq]

theorem frangeRegs_empty {g : Regs} (h : emptyOfImage g = true) :
    frangeRegs g = { g with empty := true, fr0 := 0, fr1 := 0, fc0 := 0, fc1 := 0 } := if_pos h

theorem frangeRegs_covered {g : Regs} (h : ¬ emptyOfImage g = true) : frangeRegs g =
    { g with
      empty := false
      fr0 := wordOf ((clip g).y0 / 1536)
      fr1 := wordOf ((clip g).y1 / 1536)
      fc0 := wordOf ((clip g).x0 / 1536)
      fc1 := wordOf ((clip g).x1 / 1536) } := if_neg h

theorem srangeRegs_empty {g : Regs} (h : emptyOfFrame g = true) : srangeRegs g =
    { g with diskRow := wordOf (diskRowOf g), empty := true, sr0 := 0, sr1 := 0, sc0 := 0, sc1 := 0 } := if_pos h

theorem srangeRegs_covered {g : Regs} (h : ¬ emptyOfFrame g = true) : srangeRegs g =
    { g with
      diskRow := wordOf (diskRowOf g)
      empty := false
      sr0 := wordOf (localRow g (frameSpan g).y0 / 256)
      sr1 := wordOf (localRow g (frameSpan g).y1 / 256)
      sc0 := wordOf (localCol g (frameSpan g).x0 / 256)
      sc1 := wordOf (localCol g (frameSpan g).x1 / 256) } := if_neg h

/-- A value that fits a register is stored whole (log entry 12). -/
theorem u32_wordOf {v : Int} (h0 : 0 ≤ v) (h : v < 4294967296) : (u32 (wordOf v) : Int) = v := by
  simp only [u32, wordOf, BitVec.toNat_ofInt]
  omega

theorem u32_wordOfNat {v : Nat} (h : v < 4294967296) : u32 (wordOfNat v) = v := by
  simp only [u32, wordOfNat, BitVec.toNat_ofNat]
  omega

end Sys2Proof.Machine
end

