-- ==== Sys2Proof/Laws/Lines.lean ====
section
/-! SUPPORT. What one line of a host's program does (30_encoding.md R97). -/

namespace Sys2Proof.Machine

/-- The offset a line writes is the register's own (10_state.md R20). -/
theorem regAt_regOffset (r : RegName) : regAt (regOffset r) = some r := by
  cases r <;> decide

/-- A `WR` line of an RW register changes that register, by `writeReg`, and nothing else. -/
theorem step_writeReg (s : State) (r : RegName) (v : Int) (rest : List Event) (h : s.inbox = writeRegEvent r v :: rest)
    (ha : regAccess r = .rw) :
    step s = .next { s with reg := writeReg r (wordOf v) s.reg, inbox := rest, answer := some ⟨.okay, 0⟩ } := by
  simp only [step, h, serve, writeRegEvent, serveBus, if_true, serveWrite32]
  cases r <;> first | (cases ha; done) | rfl

end Sys2Proof.Machine
end

