-- ==== Sys2Proof/Laws/PerInstr.lean ====
section
/-! SUPPORT. A statement proved of each command: the word the encoder writes is one that the command's own row of the
opcode table selects (30_encoding.md R93). -/

namespace Sys2Proof.Laws.RowMatch

/-- The command's row of the opcode table selects its word. -/
def Statement (i : Instr) : Prop :=
  WellFormed i = true → ∃ row, opcodeTable[rowIndex i]? = some row ∧ row.selects (encode i) = true

theorem openSource : Statement .openSource := fun _ => ⟨_, rfl, by decide⟩

theorem closeSource : Statement .closeSource := fun _ => ⟨_, rfl, by decide⟩

/-- The mask of GETTILE's row leaves the level out, so its row selects the word of every level. -/
theorem getTile (level : Nat) : Statement (.getTile level) := by
  intro _
  refine ⟨_, rfl, ?_⟩
  have h : ∀ v : BitVec 8, Row.selects ⟨"GETTILE", 0xFFFFFF00, 0x03000000⟩ ((0x03 : BitVec 8) ++ (0 : BitVec 16) ++ v) = true := by
    decide
  exact h (BitVec.ofNat 8 level)

theorem getImageRect : Statement .getImageRect := fun _ => ⟨_, rfl, by decide⟩

theorem decode : Statement .decode := fun _ => ⟨_, rfl, by decide⟩

theorem frange : Statement .frange := fun _ => ⟨_, rfl, by decide⟩

theorem srange : Statement .srange := fun _ => ⟨_, rfl, by decide⟩

theorem tfill : Statement .tfill := fun _ => ⟨_, rfl, by decide⟩

theorem blkcopy : Statement .blkcopy := fun _ => ⟨_, rfl, by decide⟩

end Sys2Proof.Laws.RowMatch
end

