-- ==== Sys2Proof/Tests/Slice0.lean ====
section
/-! SUPPORT. Tests of the model against the vectors of spec/95_test_vectors.md (named V-…, P…, S…), and for each statement
with hypotheses a state and operands that meet them (`witness_…`). -/

namespace Sys2Proof.Tests

open Sys2Proof.Machine

/-! ### Helpers -/

/-- The state an outcome goes on in. -/
def after (o : Host.Outcome State Fault Refusal) : Option State :=
  match o with
  | .next t => some t
  | .fault _ => none
  | .refused _ => none

/-- What the host reads of some registers in the state an outcome goes on in. -/
def reads (rs : List RegName) (o : Host.Outcome State Fault Refusal) : Option (List Nat) :=
  (after o).map (fun t => rs.map (fun r => (readReg r t.reg).toNat))

/-- What `n` bytes of memory from an offset hold in the state an outcome goes on in. -/
def bytes (a n : Nat) (o : Host.Outcome State Fault Refusal) : Option (List (Option Byte)) :=
  (after o).map (fun t => (List.range n).map (fun k => t.mem.read (a + k)))

/-- An environment that answers every request, and always yes, with byte 0 of each table `v` (after ENV_SYN of §0). -/
def yesEnv (v : Byte) : Env where
  lookup := { rows := [(0x00010207, ⟨true, 7, 2, 1⟩)], other := ⟨true, 3, 2, 1⟩ }
  present := { rows := [], other := true }
  frame := { rows := [], other := ⟨true, ⟨v, []⟩, ⟨v, []⟩⟩ }
  cell := { rows := [], other := ⟨true, ⟨v, []⟩⟩ }
  silent := []

/-- An environment that never answers a request for handle 0. -/
def muteEnv : Env := { yesEnv 0 with silent := [.catLookup 0] }

/-- A source open on an image of `h` by `v` frames, with a rectangle and BLANK = 0x55. -/
def opened (p : ProductType) (h v : Nat) (x y w ht : Word) : State :=
  { State.reset with
    reg := { Regs.reset with
      state := .opened, product := p, blank := 0x55
      framesH := wordOfNat h, framesV := wordOfNat v, imgW := wordOfNat (h * 1536), imgH := wordOfNat (v * 1536)
      rectX0 := x, rectY0 := y, rectW := w, rectH := ht } }

/-- The cursor set. -/
def aimed (fr fc sr sc : Word) (s : State) : State :=
  { s with reg := { s.reg with curFr := fr, curFc := fc, curSr := sr, curSc := sc } }

/-- Bytes stored from an offset. -/
def stored (a : Nat) (vs : List Byte) (s : State) : State :=
  { s with mem := (vs.zipIdx a).foldl (fun m p => m.write p.2 p.1) s.mem }

/-- The next transaction of the host. -/
def asked (d : Dir) (width : Nat) (a data : Word) (s : State) : State := { s with inbox := [.bus ⟨d, width, a, data⟩] }

/-! ### Well-formed commands, command words -/

/-- The one check of WellFormed refuses a level that does not fit imm8 (R92). -/
theorem test_level_256_is_ill_formed : WellFormed (.getTile 256) = false := by decide

theorem test_level_255_is_well_formed : WellFormed (.getTile 255) = true := by decide

/-- V-E1 to V-E10, bit by bit from format C of R91: op, zero16, imm8. -/
theorem test_decode_open : decode 0b00000001000000000000000000000000#32 = .command .openSource := by decide
theorem test_decode_close : decode 0b00000010000000000000000000000000#32 = .command .closeSource := by decide
theorem test_decode_gettile : decode 0b00000011000000000000000011111111#32 = .command (.getTile 255) := by decide
theorem test_decode_getimagerect : decode 0b00000100000000000000000000000000#32 = .command .getImageRect := by decide
theorem test_decode_decode : decode 0b00010000000000000000000000000000#32 = .command .decode := by decide
theorem test_decode_frange : decode 0b00010001000000000000000000000000#32 = .command .frange := by decide
theorem test_decode_srange : decode 0b00010010000000000000000000000000#32 = .command .srange := by decide
theorem test_decode_tfill : decode 0b00010011000000000000000000000000#32 = .command .tfill := by decide
theorem test_decode_blkcopy : decode 0b00010100000000000000000000000000#32 = .command .blkcopy := by decide

/-- V-E11 to V-E19. -/
theorem test_illegal_words :
    [0x00000000, 0xFFFFFFFF, 0x01000001, 0x03000100, 0x03800000, 0x05000000, 0x0F000000, 0x15000000, 0x20000000,
      0x80000000, 0x00000001, 0x10000100].map decode =
    [.illegal .opcode, .illegal .zero16, .illegal .imm8, .illegal .zero16, .illegal .zero16, .illegal .opcode,
      .illegal .opcode, .illegal .opcode, .illegal .opcode, .illegal .opcode, .illegal .imm8, .illegal .zero16] := by
  decide

/-- No word is selected by two rows of the opcode table (R93): any two rows differ in a bit that both fix. -/
theorem test_rows_do_not_overlap :
    opcodeTable.Pairwise (fun r q => r.pattern &&& q.mask &&& r.mask ≠ q.pattern &&& r.mask &&& q.mask) := by decide

/-- V-E4 through the host's numbering. -/
theorem test_decodeTableWord : decodeTableWord 32 0x030000FF = some (.getTile 255) ∧ decodeTableWord 32 0x05000000 = none := by
  decide

/-! ### The host bus and the registers -/

/-- V-H1 to V-H7. -/
theorem test_bus_registers :
    [asked .read 32 0x00 0, asked .write 32 0x00 7, asked .read 32 0x04 0, asked .read 8 0x08 0, asked .read 32 0x80 0,
      asked .read 32 0x100 0, asked .write 32 0x38 5].map (fun f => (after (step (f State.reset))).map (fun t => (t.answer, t.reg))) =
    [⟨.okay, 0x56510001⟩, ⟨.error, 0⟩, ⟨.okay, 0⟩, ⟨.error, 0⟩, ⟨.error, 0⟩, ⟨.error, 0⟩, ⟨.error, 0⟩].map
      (fun a => some (some a, Regs.reset)) := by decide +kernel

/-- R70: byte 0 of a word lies lowest. -/
theorem test_word_is_little_endian :
    bytes 0x40000 4 (step (asked .write 32 0x40000 0xE8E9EAEB State.reset)) = some [some 0xEB, some 0xEA, some 0xE9, some 0xE8] := by
  decide +kernel

/-- V-T12: BLANK keeps bits [7:0]. -/
theorem test_blank_keeps_eight_bits : reads [.blank] (step (asked .write 32 0x14 0x155 State.reset)) = some [0x55] := by
  decide +kernel

/-- U1: a byte that nothing has written has no value. -/
theorem test_unwritten_byte_stops : step (asked .read 8 0x40000 0 State.reset) = .fault (.unwrittenByte 0x40000) := by rfl

/-- V-E16, V-P5: an illegal word sets ERR = 5 and is acknowledged. -/
theorem test_illegal_word_sets_err :
    (after (step (asked .write 32 0x04 0x03000100 State.reset))).map (fun t => (t.answer, statusWord t.reg)) =
      some (some ⟨.okay, 0⟩, 0x500) := by decide +kernel

/-- The host's first-instruction step: `withFetchWord` puts the command at the next step (log entry 1). -/
theorem test_fetch_word_runs_next : reads [.status] (step (State.reset.withFetchWord 32 0x04000000)) = some [0x200] := by
  decide +kernel

/-- R230, R232: reset clears the registers and keeps the bytes; power-up takes them away. -/
theorem test_reset_keeps_bytes :
    (after (step { stored 0x40000 [9] (opened .rgb 2 1 0 0 1 1) with inbox := [.reset] })).map
      (fun t => (t.reg, t.mem.read 0x40000)) = some (Regs.reset, some 9) := by decide +kernel

theorem test_power_up_clears_bytes :
    (after (step { stored 0x40000 [9] (opened .rgb 2 1 0 0 1 1) with inbox := [.powerUp] })).map
      (fun t => (t.reg, t.mem.read 0x40000)) = some (Regs.reset, none) := by decide +kernel

/-- R230, log entry 8: reset after three bytes of a fill leaves three bytes. -/
theorem test_reset_cuts_fill :
    bytes 0x800000 5 (step { opened .grayscale 1 1 0 0 4 3 with inbox := [.resetDuring 0x13000000 3] }) =
      some [some 0x55, some 0x55, some 0x55, none, none] := by decide +kernel

/-- P6 line 3, P1 lines 3 and 4, P2 line 3: lines as bus transactions. -/
theorem test_lines :
    [Line.setRect (-50) (-50) 8 2, .openH 0x00010203, .ww .cbuf 0 0x00021000, .command (.getTile 3)].flatMap expand =
    [.bus ⟨.write, 32, 0x18, 0xFFFFFFCE⟩, .bus ⟨.write, 32, 0x1C, 0xFFFFFFCE⟩, .bus ⟨.write, 32, 0x20, 8⟩,
      .bus ⟨.write, 32, 0x24, 2⟩, .bus ⟨.write, 32, 0x10, 0x00010203⟩, .bus ⟨.write, 32, 0x04, 0x01000000⟩,
      .bus ⟨.write, 32, 0x30000, 0x00021000⟩, .bus ⟨.write, 32, 0x04, 0x03000003⟩] := by decide +kernel

/-- P2 line 21, in the state after reset: the statement of an ERR? line. -/
theorem test_err_line :
    (after (step (State.reset.withProgram [.errIs 0]))).map (fun t => (holdsAfter (.errIs 0) t, holdsAfter (.errIs 2) t)) =
      some (true, false) := by decide +kernel

/-- P1 line 1: the value that an RD line states. -/
theorem test_read_line :
    (after (step (State.reset.withProgram [.rd .id none]))).map (fun t => holdsAfter (.rd .id (some 0x56510001)) t) = some true := by
  decide +kernel

/-! ### The decoder -/

/-- V-U1, V-U7, V-U8. -/
theorem test_codes : (code1 0xAB 0xCD, code2 0xCD 0xEF, code1 0x00 0x0F, code2 0x0F 0xFF, code1 0xFF 0xF0, code2 0xF0 0x00) =
    (0xABC, 0xDEF, 0x000, 0xFFF, 0xFFF, 0x000) := by decide

/-- R112, the table of §2.2. -/
theorem test_triple_places : [tripleAt 0 0, tripleAt 0 8, tripleAt 0 248, tripleAt 4 0, tripleAt 252 0, tripleAt 252 248] =
    [0, 3, 93, 96, 6048, 6141] := by decide

/-- Memory with the bytes of V-D1 that row 0 and row 3 of the first triple consume. -/
def vd1 : State :=
  let s := stored 0x30000 [3, 34, 65] (opened .grayscale 1 1 0 0 1 1)
  let tables := [0, 1, 2, 3].foldl (fun s t =>
    stored (0x10000 + t * 16384 + 2308) ((List.range 4).map (fun e => BitVec.ofNat 8 (5 * (2308 + e) + 67 * t + 9)))
      (stored (0x10000 + t * 16384 + 200) ((List.range 4).map (fun e => BitVec.ofNat 8 (5 * (200 + e) + 67 * t + 9))) s)) s
  (List.range 256).foldl (fun s idx => stored (0x20000 + idx * 4) [BitVec.ofNat 8 (3 * idx)] s) tables

/-- V-D1, V-D4: rows 0 and 3 and the start of row 1 of the first triple. -/
theorem test_first_triple :
    (match decodeTriple 1 0 0 vd1 with
      | .ok t => (List.range 8).map (fun c => t.mem.read (0x40000 + c)) ++ [t.mem.read (0x40000 + 256)] ++
          (List.range 8).map (fun c => t.mem.read (0x40000 + 768 + c))
      | .error _ => []) =
    [some 211, some 226, some 241, some 0, some 87, some 102, some 117, some 132, some 156,
      some 46, some 61, some 76, some 91, some 178, some 193, some 208, some 223] := by decide +kernel

/-- V-D2, second half. -/
theorem test_decode_closed : reads [.status] (exec .decode State.reset) = some [0x200] := by decide +kernel

/-! ### The compositor -/

/-- What the vectors of §2.4 read. -/
def frangeReads (s : State) : Option (List Nat) := reads [.flags, .fr0, .fr1, .fc0, .fc1] (exec .frange s)

/-- V-F1, V-F2, V-F4, V-F8: inside the image, at its frame boundaries and its last pixel. -/
theorem test_frange_inside :
    [opened .rgb 2 1 1400 0 300 300, opened .rgb 2 1 0 0 1536 1536, opened .rgb 2 2 1535 1535 2 2,
      opened .rgb 2 1 3071 1535 10 10].map frangeReads =
    [some [0, 0, 0, 0, 1], some [0, 0, 0, 0, 0], some [0, 0, 1, 0, 1], some [0, 0, 0, 1, 1]] := by decide +kernel

/-- V-F5, V-F6, V-F7, V-F10, V-F11: signed and extreme operands. -/
theorem test_frange_outside :
    [opened .rgb 2 1 0xFFFFFF9C 0xFFFFFF9C 50 50, opened .rgb 2 1 0xFFFFFF9C 0xFFFFFF9C 101 101,
      opened .rgb 2 1 3072 0 10 10, opened .rgb 2 1 0x80000000 0x80000000 0xFFFFFFFF 0xFFFFFFFF,
      opened .rgb 2 1 0x7FFFFFFF 0x7FFFFFFF 0xFFFFFFFF 0xFFFFFFFF].map frangeReads =
    [some [1, 0, 0, 0, 0], some [0, 0, 0, 0, 0], some [1, 0, 0, 0, 0], some [0, 0, 0, 0, 1], some [1, 0, 0, 0, 0]] := by
  decide +kernel

/-- What the vectors of §2.5 read. -/
def srangeReads (s : State) : Option (List Nat) := reads [.flags, .sr0, .sr1, .sc0, .sc1, .diskRow] (exec .srange s)

/-- V-S1, V-S3, V-S4, V-S6, V-S7. -/
theorem test_srange :
    [opened .rgb 2 1 1400 0 300 300, aimed 1 1 0 0 (opened .rgb 2 2 0 0 1537 1537), opened .rgb 2 2 0 0 1537 1537,
      opened .rgb 2 2 2000 2000 100 100, aimed 1 1 0 0 (opened .rgb 2 3 1600 1700 700 900)].map srangeReads =
    [some [0, 0, 1, 5, 5, 0], some [0, 0, 0, 0, 0, 0], some [0, 0, 5, 0, 5, 1], some [1, 0, 0, 0, 0, 1],
      some [0, 0, 4, 0, 2, 1]] := by decide +kernel

/-- V-S8 to V-S10, V-P6. -/
theorem test_srange_errors :
    [aimed 1 0 0 0 (opened .rgb 2 1 0 0 1 1), aimed 0 2 0 0 (opened .rgb 2 1 0 0 1 1),
      aimed 0xFFFFFFFF 0 0 0 (opened .rgb 2 1 0 0 1 1), aimed 7 0 0 0 State.reset].map (fun s => reads [.status] (exec .srange s)) =
    [some [0x90A], some [0x90A], some [0x90A], some [0x200]] := by decide +kernel

/-- V-T2: twelve bytes, and no thirteenth. -/
theorem test_tfill : bytes 0x800000 13 (exec .tfill (opened .grayscale 1 1 0 0 4 3)) =
    some (List.replicate 12 (some 0x55) ++ [none]) := by decide +kernel

/-- V-T5, V-T7, V-T9: the product is exact. -/
theorem test_tfill_too_large :
    [opened .grayscale 1 1 0 0 4096 2049, opened .rgb 1 1 0 0 1673 1672, opened .rgb 1 1 0 0 0xFFFFFFFF 0xFFFFFFFF].map
      (fun s => reads [.status] (exec .tfill s)) = [some [0x806], some [0x80A], some [0x80A]] := by decide +kernel

/-- V-B3, V-B5: a rectangle across the block's right edge, and one partly outside the image. -/
theorem test_blkcopy_edges :
    bytes 0x800000 4 (exec .blkcopy (stored 0x800000 [0x55, 0x55, 0x55, 0x55]
      (stored 0x400FE [253, 252] (opened .grayscale 1 1 254 0 4 1)))) = some [some 253, some 252, some 0x55, some 0x55] ∧
    bytes 0x800000 8 (exec .blkcopy (stored 0x40000 [251, 250] (opened .grayscale 1 1 0xFFFFFFFE 0xFFFFFFFF 4 2))) =
      some [none, none, none, none, none, none, some 251, some 250] := by decide +kernel

/-- V-B6, V-P4, V-B8. -/
theorem test_blkcopy_errors :
    [aimed 0 0 0 6 (opened .grayscale 1 1 0 0 4096 2049), aimed 1 0 0 0 (opened .rgb 2 1 0 0 0xFFFFFFFF 0xFFFFFFFF),
      opened .grayscale 1 1 0 0 4096 2049].map (fun s => reads [.status] (exec .blkcopy s)) =
    [some [0x906], some [0x90A], some [0x806]] := by decide +kernel

/-! ### The facade -/

/-- A closed machine with a handle. -/
def handed (h : Word) : State := { State.reset with env := yesEnv 0, reg := { Regs.reset with handle := h } }

/-- V-O1, V-O3. -/
theorem test_open :
    [handed 0x00010203, handed 0x00010207].map (fun s => reads [.status, .framesH, .framesV, .imgW, .imgH] (exec .openSource s)) =
    [some [0x00A, 2, 1, 3072, 1536], some [0x100, 0, 0, 0, 0]] := by decide +kernel

/-- V-O6: no request. -/
theorem test_open_twice : (after (exec .openSource (opened .rgb 2 1 0 0 1 1))).map (fun t => (statusWord t.reg, portTrace t)) =
    some (0x60A, []) := by decide +kernel

/-- V-O11, V-O12. -/
theorem test_close :
    [opened .rgb 2 1 5 6 7 8, State.reset].map (fun s => reads [.status, .imgW, .framesH, .rectX0] (exec .closeSource s)) =
    [some [0, 0, 0, 5], some [0x200, 0, 0, 0]] := by decide +kernel

/-- V-O9, V-O10. -/
theorem test_getimagerect :
    [opened .rgb 2 1 0 0 1 1, State.reset].map (fun s => reads [.status, .irX0, .irY0, .irW, .irH] (exec .getImageRect s)) =
    [some [0x00A, 0, 0, 3072, 1536], some [0x200, 0, 0, 0, 0]] := by decide +kernel

/-- V-P1 to V-P3: state, then level, then capacity. -/
theorem test_gettile_checks :
    [exec (.getTile 3) State.reset, exec (.getTile 3) (opened .rgb 2 1 0 0 0xFFFFFFFF 0xFFFFFFFF),
      exec (.getTile 0) (opened .rgb 2 1 0 0 0xFFFFFFFF 0xFFFFFFFF)].map (reads [.status]) =
    [some [0x200], some [0x70A], some [0x80A]] := by decide +kernel

/-- P6 line 4: out of the image; and a rectangle on two frames that are missing (rows from the top, R143). -/
theorem test_gettile_blank :
    ((after (exec (.getTile 0) (opened .grayscale 1 1 0xFFFFFFCE 0xFFFFFFCE 8 2))).map
      (fun t => (t.reg.empty, portTrace t, t.mem.read 0x80000F, t.mem.read 0x800010))) = some (true, [], some 0x55, none) ∧
    ((after (exec (.getTile 0) (opened .rgb 2 1 1535 0 2 1))).map
      (fun t => (t.reg.fopenCnt, portTrace t, t.mem.read 0x800005))) =
      some (0, [.locExists 0 0, .locExists 0 1], some 0x55) := by decide +kernel

/-! ### Witnesses: states and operands that meet the hypotheses of the statements -/

/-- V-F1's state, with an environment that always says yes. -/
def inside : State := { opened .rgb 2 1 1400 0 300 300 with env := yesEnv 7 }

/-- The same source with a rectangle on the last pixel of the image, and one that misses the image by one pixel. -/
def lastPixel : State := { opened .grayscale 2 1 3071 1535 1 1 with env := yesEnv 7 }
def missed : State := { opened .grayscale 2 1 3072 0 1 1 with env := yesEnv 7 }

/-- A source whose frames are all missing. -/
def bare : State := opened .rgb 2 1 1535 0 2 1

/-- A source open on a grid that the catalog can give meets the invariant. -/
theorem opened_inv {p : ProductType} {h v : Nat} (hp : p ≠ .unknown) (hh : h ≤ 65535) (hv : v ≤ 65535) (x y w ht : Word) :
    Inv (opened p h v x y w ht) where
  memCanonical := rfl
  memMapped := fun _ _ h => by cases h
  notOpening := nofun
  openProduct := fun _ => hp
  closedImage := nofun
  framesFit := by
    simp only [opened, u32_wordOfNat (show h < 4294967296 by omega), u32_wordOfNat (show v < 4294967296 by omega)]
    omega
  imageIsFrames := by
    simp only [opened, u32_wordOfNat (show h < 4294967296 by omega), u32_wordOfNat (show v < 4294967296 by omega),
      u32_wordOfNat (show h * 1536 < 4294967296 by omega), u32_wordOfNat (show v * 1536 < 4294967296 by omega), and_self]
  errWritten := ⟨nofun, nofun⟩
  frameRange := ⟨Nat.le_refl _, Nat.zero_le _, Nat.le_refl _, Nat.zero_le _⟩
  subRange := ⟨Nat.le_refl _, Nat.zero_le _, Nat.le_refl _, Nat.zero_le _⟩
  diskRowFits := Nat.zero_le _

theorem inside_inv : Inv inside := { opened_inv (p := .rgb) (h := 2) (v := 1) nofun (by omega) (by omega) 1400 0 300 300 with }

theorem bare_inv : Inv bare := opened_inv (p := .rgb) (h := 2) (v := 1) nofun (by omega) (by omega) 1535 0 2 1

/-- For GetTileCompletes, GetTilePixels, GetTileRequestOrder, GetTileCountsOpens, GetTileRegistersAfter, GetTileScratchAfter and
GetTileIdempotent (both states this one). -/
theorem witness_get_tile : Inv inside ∧ OpenWith 3 inside ∧ TileFits 3 inside ∧ AllAnswered inside :=
  ⟨inside_inv, ⟨rfl, rfl⟩, by unfold TileFits; decide, fun _ h => by cases h⟩

/-- For GetTileRegistersAfter and GetTileScratchAfter: the last frame and cell of the same GETTILE (V-F1 and V-S1 give the
ranges); no frame, hence no cell; a frame that exists and is not opened; a rectangle that misses the image. -/
theorem witness_last_cell :
    (presentFrames inside.env inside.reg).getLast? = some (0, 1) ∧ (openedFrames inside.env inside.reg).getLast? = some (0, 1) ∧
    (fetchedCells inside.env inside.reg).getLast? = some (0, 1, 1, 0) ∧
    (presentFrames bare.env bare.reg).getLast? = none ∧ (openedFrames bare.env bare.reg).getLast? = none ∧
    (fetchedCells bare.env bare.reg).getLast? = none ∧
    (presentFrames { Env.refusing with present := ⟨[], true⟩ } bare.reg).getLast? = some (0, 1) ∧
    (openedFrames { Env.refusing with present := ⟨[], true⟩ } bare.reg).getLast? = none ∧
    (clip missed.reg).x1 < (clip missed.reg).x0 := by decide

theorem witness_missed : Inv missed ∧ OpenWith 1 missed ∧ TileFits 1 missed ∧ AllAnswered missed :=
  ⟨{ opened_inv (p := .grayscale) (h := 2) (v := 1) nofun (by omega) (by omega) 3072 0 1 1 with }, ⟨rfl, rfl⟩,
    by unfold TileFits; decide, fun _ h => by cases h⟩

/-- For GetTileIdempotent with two states that differ: the second remembers other results and other memory. -/
theorem witness_idempotent_other : ∃ s : State, s ≠ inside ∧ Inv s ∧ s.reg.state = .opened ∧ s.env = inside.env ∧
    s.reg = { inside.reg with irW := 5 } :=
  ⟨{ inside with reg := { inside.reg with irW := 5 } }, by decide, { inside_inv with }, rfl, rfl, rfl⟩

/-- For GetTileWithNoFramePresent: both covered frames are missing. -/
theorem witness_no_frame_present : Inv bare ∧ OpenWith 3 bare ∧ TileFits 3 bare ∧ AllAnswered bare ∧
    coveredRows bare.reg = [0] ∧ coveredCols bare.reg = [0, 1] ∧
    ∀ fr ∈ coveredRows bare.reg, ∀ fc ∈ coveredCols bare.reg, bare.env.present.answer (cell16 fr, cell16 fc) = false :=
  ⟨bare_inv, ⟨rfl, rfl⟩, by unfold TileFits; decide, (fun _ h => by cases h), by decide, by decide, by decide⟩

/-- For GetTileOutOfImage, FrangeResult (empty case), FrangeCoversExactlyTheFrames: one pixel past the right edge. -/
theorem witness_out_of_image : OpenWith 1 missed ∧ TileFits 1 missed ∧ ¬ ∃ x y, Requested missed.reg x y := by
  refine ⟨⟨rfl, rfl⟩, by unfold TileFits; decide, ?_⟩
  rintro ⟨x, y, h1, -, -, -, -, h6, -⟩
  have hl : rectLeft missed.reg = 3072 := by decide
  have hw : u32 missed.reg.imgW = 3072 := by decide
  omega

/-- For FrangeResult (other case), FrangeCoversExactlyTheFrames: the last pixel of the image. -/
theorem witness_last_pixel : lastPixel.reg.state = .opened ∧ Requested lastPixel.reg 3071 1535 :=
  ⟨rfl, by unfold Requested; decide⟩

/-- For GetTileWritesOnlyItsBytes and RecordReplaysMemory: a GETTILE that completes. -/
theorem witness_get_tile_ends : OpenWith 3 bare ∧ ∃ t, exec (.getTile 0) bare = .next t := by
  refine ⟨⟨rfl, rfl⟩, ?_⟩
  have h : (after (exec (.getTile 0) bare)).isSome = true := by decide +kernel
  cases he : exec (.getTile 0) bare with
  | next t => exact ⟨t, rfl⟩
  | fault f =>
    rw [he] at h
    cases h
  | refused r =>
    rw [he] at h
    cases h

/-- For GetTileLevelRefused: the boundary levels. -/
theorem witness_levels : inside.reg.state = .opened ∧ (1 : Nat) ≠ 0 ∧ (255 : Nat) ≠ 0 := by decide

/-- For WhoWritesWhichRegister, WhoTouchesTileAndPorts, RecordReplaysMemory: commands that end with a next state. -/
theorem witness_commands_end :
    (∃ t, exec .closeSource inside = .next t) ∧ (∃ t, exec .getImageRect inside = .next t) ∧
    (∃ t, exec .frange inside = .next t) ∧ (∃ t, exec .srange inside = .next t) ∧
    (∃ t, exec .openSource (handed 0x00010203) = .next t) ∧ (∃ t, exec .decode State.reset = .next t) :=
  ⟨⟨_, rfl⟩, ⟨_, rfl⟩, ⟨_, rfl⟩, ⟨_, rfl⟩, ⟨_, rfl⟩, ⟨_, rfl⟩⟩

/-- For FailingCommandChangesOnlyErr and PossibleErrorCodes: a refused command, a failing OPEN, an illegal word. -/
theorem witness_failures :
    (∃ t, exec .closeSource State.reset = .next t ∧ t.reg.err ≠ .ok) ∧
    (∃ t, exec .openSource (handed 0x00010207) = .next t ∧ t.reg.err = .config) ∧
    (∃ t, decode 0x05000000 = .illegal .opcode ∧ runWord 0x05000000 State.reset = .next t) :=
  ⟨⟨_, rfl, by decide⟩, ⟨_, rfl, by decide⟩, ⟨_, by decide, rfl⟩⟩

/-- For ConfigurationGate. -/
theorem witness_gate : Instr.getTile 9 ≠ .openSource ∧ State.reset.reg.state ≠ .opened := by decide

/-- For OpenResult: not Closed; Closed and answered, with tag 3, with tag 7 (and 1, and a failing lookup, by other tables). -/
theorem witness_open : inside.reg.state ≠ .closed ∧
    (handed 0x00010203).reg.state = .closed ∧ .catLookup 0x00010203 ∉ (handed 0x00010203).env.silent ∧
    ((yesEnv 0).lookup.answer 0x00010203).ok = true ∧ ((yesEnv 0).lookup.answer 0x00010203).tag = 3 ∧
    ((yesEnv 0).lookup.answer 0x00010207).tag = 7 ∧
    ((⟨[], ⟨true, 1, 1, 1⟩⟩ : Table Word CatAnswer).answer 5).ok = true ∧
    ((⟨[], ⟨true, 1, 1, 1⟩⟩ : Table Word CatAnswer).answer 5).tag = 1 ∧
    (Env.refusing.lookup.answer 5).ok = false := by decide

/-- For CloseResult and GetImageRectResult: both cases. -/
theorem witness_open_and_closed : inside.reg.state = .opened ∧ State.reset.reg.state ≠ .opened := by decide

/-- For OnlySilenceStopsPorts: a lookup that is never answered; a GETTILE that waits for ever on its first request. -/
theorem witness_silence :
    ({ handed 0 with env := muteEnv }).reg.state = .closed ∧ .catLookup 0 ∈ muteEnv.silent ∧
    OpenWith 3 { inside with env := { yesEnv 0 with silent := [.locExists 0 0] } } ∧
    exec (.getTile 0) { opened .rgb 2 1 1535 0 1 1 with env := { yesEnv 0 with silent := [.locExists 0 0] } } =
      .fault (.portHang (.locExists 0 0)) :=
  ⟨rfl, by decide, ⟨rfl, rfl⟩, by rfl⟩

/-- For StepKeepsInvariant and BandsAlwaysDefined: a step of a state that meets the invariant. -/
theorem witness_step_from_inv :
    Inv { inside with inbox := [commandEvent 0x11000000] } ∧
    ∃ t, step { inside with inbox := [commandEvent 0x11000000] } = .next t :=
  ⟨{ inside_inv with }, ⟨_, rfl⟩⟩

/-- For IllegalWordOnlySetsErr: a word of each of the three kinds, next at CMD. -/
theorem witness_illegal_words :
    (∃ why, decode 0x00000000 = .illegal why) ∧ (∃ why, decode 0x01000001 = .illegal why) ∧
    (∃ why, decode 0x03000100 = .illegal why) ∧
    ({ inside with inbox := [commandEvent 0x03000100] }).inbox = commandEvent 0x03000100 :: [] :=
  ⟨⟨.opcode, by decide⟩, ⟨.imm8, by decide⟩, ⟨.zero16, by decide⟩, rfl⟩

/-- For StepRunsDecodedCommand. -/
theorem witness_command_next : ({ inside with inbox := [commandEvent 0x11000000] }).inbox = commandEvent 0x11000000 :: [] ∧
    decode 0x11000000 = .command .frange := ⟨rfl, by decide⟩

/-- For IdleAndEnvironmentSteps, ResetKeepsMemories, ProgramLinesWriteTheirRegisters: each kind of event next, or none. -/
theorem witness_events : State.reset.inbox = [] ∧
    ({ inside with inbox := [.envChange Env.refusing] }).inbox = .envChange Env.refusing :: [] ∧
    ({ inside with inbox := [.reset] }).inbox = .reset :: [] ∧ ({ inside with inbox := [.powerUp] }).inbox = .powerUp :: [] :=
  ⟨rfl, rfl, rfl, rfl⟩

/-- For ResetDuringCommand: a fill of one byte, cut before it, at its end and past it. -/
theorem witness_reset_during : decode 0x13000000 = .command .tfill ∧
    ∃ t, exec .tfill (opened .grayscale 1 1 0 0 1 1) = .next t ∧
      (actsBetween (opened .grayscale 1 1 0 0 1 1) t).length = 1 ∧
      ∀ n ∈ [0, 1, 2], ({ opened .grayscale 1 1 0 0 1 1 with inbox := [.resetDuring 0x13000000 n] }).inbox =
        .resetDuring 0x13000000 n :: [] :=
  ⟨by decide, _, rfl, by decide +kernel, fun _ _ => rfl⟩

/-- V-B3's rectangle with only the first of its two bytes of BLK. -/
def halfEdge : State := stored 0x400FE [253] (opened .grayscale 1 1 254 0 4 1)

/-- For ResetDuringCommand: a copy that stops after one act, for the second byte; at most one act is cut, two are not. And an
illegal word, V-E14. -/
theorem witness_reset_during_stop : decode 0x14000000 = .command .blkcopy ∧
    exec .blkcopy halfEdge = .fault (.unwrittenByte 0x400FF) ∧
    (match runInstr .blkcopy halfEdge with
      | .ok _ => none
      | .error e => some (actsBetween halfEdge e.state)) = some [.write 0x800000 253] ∧
    ([1, 2].map fun n => bytes 0x800000 2 (step { halfEdge with inbox := [.resetDuring 0x14000000 n] })) =
      [some [some 253, none], none] ∧
    (∃ why, decode 0x03000100 = .illegal why) :=
  ⟨by decide, by rfl, by decide +kernel, by decide +kernel, .zero16, by decide⟩

/-- For ResetEndsHang: an OPEN, and a GETTILE that has blanked its tile of one byte before it waits. -/
theorem witness_hang : decode 0x01000000 = .command .openSource ∧
    exec .openSource { handed 0 with env := muteEnv } = .fault (.portHang (.catLookup 0)) := ⟨by decide, by rfl⟩

/-- A GETTILE's source that never answers its first request. -/
def stuck : State := { opened .grayscale 1 1 0 0 1 1 with env := { yesEnv 0 with silent := [.locExists 0 0] } }

theorem witness_hang_with_acts : decode 0x03000000 = .command (.getTile 0) ∧
    exec (.getTile 0) stuck = .fault (.portHang (.locExists 0 0)) ∧
    (match runInstr (.getTile 0) stuck with
      | .ok _ => none
      | .error e => some (actsBetween stuck e.state)) = some [.write 0x800000 0x55, .request (.locExists 0 0)] ∧
    ([0, 1, 2, 3].map fun n => bytes 0x800000 1 (step { stuck with inbox := [.resetDuring 0x03000000 n] })) =
      [some [none], some [some 0x55], some [some 0x55], some [some 0x55]] :=
  ⟨by decide, by rfl, by decide +kernel, by decide +kernel⟩

/-- For BusErrorsAreExactlyR68: a transaction of each of its six cases, and two next to them that are no errors. -/
theorem witness_bus_errors :
    IsBusError ⟨.read, 32, 0x100, 0⟩ ∧ IsBusError ⟨.read, 32, 0x80, 0⟩ ∧ IsBusError ⟨.write, 32, 0xFC, 0⟩ ∧
    IsBusError ⟨.read, 32, 0x10002, 0⟩ ∧ IsBusError ⟨.read, 8, 0xFF, 0⟩ ∧ IsBusError ⟨.write, 32, 0x7C, 0⟩ ∧
    IsBusError ⟨.read, 16, 0x10000, 0⟩ := by
  refine ⟨?_, ?_, ?_, ?_, ?_, ?_, ?_⟩ <;> simp only [IsBusError, Mapped] <;> decide

theorem witness_no_bus_error :
    ¬ IsBusError ⟨.read, 32, 0x7C, 0⟩ ∧ ¬ IsBusError ⟨.write, 8, 0x10000, 0⟩ ∧ ¬ IsBusError ⟨.write, 32, 0x04, 0⟩ ∧
    ∃ t, step (asked .read 32 0x7C 0 inside) = .next t := by
  refine ⟨?_, ?_, ?_, ⟨_, rfl⟩⟩ <;> simp only [IsBusError, Mapped] <;> decide

/-- The last offset of each space of R61 and the one after it. -/
theorem witness_mapped : [0xFF, 0x100, 0x1FFFF, 0x20400, 0x317FF, 0x31800, 0x6FFFF, 0x70000, 0xFFFFFF, 0x1000000].map
    (fun a => decide (a ≤ 0xFF) || isMemory a) = [true, false, true, false, true, false, true, false, true, false] := by decide

/-- For RegisterOffsetsAtTheBus: a read and a write that are next. -/
theorem witness_offset_accesses :
    (asked .read 32 0x18 0 inside).inbox = .bus ⟨.read, 32, 0x18, 0⟩ :: [] ∧
    (asked .write 32 0x14 0x155 inside).inbox = .bus ⟨.write, 32, 0x14, 0x155⟩ :: [] := ⟨rfl, rfl⟩

/-- For ReadsHaveNoSideEffect. -/
theorem witness_read : (asked .read 32 0 0 inside).inbox = .bus ⟨.read, 32, 0, 0⟩ :: [] ∧
    ∃ t, step (asked .read 32 0 0 inside) = .next t := ⟨rfl, ⟨_, rfl⟩⟩

/-- For WordAccessIsLittleEndian: the first word of CB and the last word of TILE; and four bytes with values before. -/
theorem witness_word_access :
    (0x10000 : Word).toNat % 4 = 0 ∧ isMemory (0x10000 : Word).toNat = true ∧
    (0xFFFFFC : Word).toNat % 4 = 0 ∧ isMemory (0xFFFFFC : Word).toNat = true ∧
    (asked .write 32 0xFFFFFC 5 inside).inbox = .bus ⟨.write, 32, 0xFFFFFC, 5⟩ :: [] ∧
    (∀ k < 4, ((stored 0x10000 [1, 2, 3, 4] inside).mem.read ((0x10000 : Word).toNat + k)).isSome = true) := by
  decide

/-- For ByteAccess: a byte with a value and one without, the first of PAL and the last of CBUF. -/
theorem witness_byte_access :
    isMemory (0x20000 : Word).toNat = true ∧ isMemory (0x317FF : Word).toNat = true ∧
    (stored 0x20000 [6] inside).mem.read 0x20000 = some 6 ∧ inside.mem.read 0x317FF = none ∧
    (asked .write 8 0x20000 5 inside).inbox = .bus ⟨.write, 8, 0x20000, 5⟩ :: [] ∧
    (asked .read 8 0x317FF 5 inside).inbox = .bus ⟨.read, 8, 0x317FF, 5⟩ :: [] := by
  decide

/-- For RegisterWriteThenRead: BLANK and another register. -/
theorem witness_register_write :
    regAt (0x14 : Word).toNat = some .blank ∧ regAccess .blank = .rw ∧
    regAt (0x10 : Word).toNat = some .handle ∧ regAccess .handle = .rw ∧
    (asked .write 32 0x14 0x155 inside).inbox = .bus ⟨.write, 32, 0x14, 0x155⟩ :: [] := by decide

/-! The bytes that a decode of all-zero codes consumes, each with the value 0. -/

/-- A run of zero bytes. -/
def zeros (a n : Nat) : List Host.Cell := (List.range' a n).map (fun k => (k, 0))

theorem readCells_zeros (a n x : Nat) (h : a ≤ x ∧ x < a + n) : readCells (zeros a n) x = some 0 := by
  induction n generalizing a with
  | zero => omega
  | succ n ih =>
    show readCells ((a, 0) :: zeros (a + 1) n) x = some 0
    by_cases hx : a = x
    · simp [readCells, hx]
    · rw [readCells, if_neg hx]
      exact ih (a + 1) (by omega)

theorem readCells_zeros_some (a n x : Nat) (v : Byte) (h : readCells (zeros a n) x = some v) : a ≤ x ∧ x < a + n := by
  induction n generalizing a with
  | zero => cases h
  | succ n ih =>
    have h' : (if a = x then some 0 else readCells (zeros (a + 1) n) x) = some v := h
    split at h'
    · omega
    · have := ih (a + 1) h'
      omega

theorem rising_zeros (a n : Nat) : risingCells (zeros a n) = true := by
  induction n generalizing a with
  | zero => rfl
  | succ n ih =>
    cases n with
    | zero => rfl
    | succ n =>
      show (decide (a < a + 1) && risingCells (zeros (a + 1) (n + 1))) = true
      simp [ih]

theorem readCells_append_of_lt (l k : List Host.Cell) (x b : Nat) (h : ∀ d ∈ l, d.1 < b) (hx : b ≤ x) :
    readCells (l ++ k) x = readCells k x := by
  induction l with
  | nil => rfl
  | cons c rest ih =>
    have hc := h c (List.mem_cons_self ..)
    rw [List.cons_append, readCells, if_neg (by omega), ih fun d hd => h d (List.mem_cons_of_mem _ hd)]

theorem readCells_append_of_some (l k : List Host.Cell) (x : Nat) (v : Byte) (h : readCells l x = some v) :
    readCells (l ++ k) x = some v := by
  induction l with
  | nil => cases h
  | cons c rest ih =>
    rw [readCells] at h
    rw [List.cons_append, readCells]
    split
    · rename_i hc
      rwa [if_pos hc] at h
    · rename_i hc
      rw [if_neg hc] at h
      exact ih h

/-- Entries 0 of the four codebook tables and of the palette. -/
def tableCells : List Host.Cell := zeros 0x10000 4 ++ zeros 0x14000 4 ++ zeros 0x18000 4 ++ zeros 0x1C000 4 ++ zeros 0x20000 4

/-- An open source with those bytes and a zero CBUF. -/
def filled (p : ProductType) : State := { opened p 1 1 0 0 1 1 with mem := ⟨tableCells ++ zeros 0x30000 6144⟩ }

theorem filled_decodes (p : ProductType) (b : Nat) (hb : b < 4) (r : Nat) (hr : r < 256) (c : Nat) (hc : c < 256) :
    (decodedByte (filled p).mem b r c).isSome = true := by
  have hbuf (q : Nat) (hq : q < 6144) : (filled p).mem.read (Config.cbufBase + q) = some 0 := by
    show readCells (tableCells ++ zeros 0x30000 6144) (0x30000 + q) = some 0
    rw [readCells_append_of_lt _ _ _ 0x30000 (by decide) (by omega)]
    exact readCells_zeros _ _ _ (by omega)
  have htab : ∀ t < 4, ∀ e < 4, readCells tableCells (0x10000 + (t * 16384 + (0 * 4 + e))) = some 0 := by decide
  have hpal : ∀ b < 4, readCells tableCells (0x20000 + (0 * 4 + b)) = some 0 := by decide
  have hcb : (filled p).mem.read (Config.cbBase + (r % 4 * 16384 + (0 * 4 + c % 4))) = some 0 :=
    readCells_append_of_some _ _ _ _ (htab _ (by omega) _ (by omega))
  have hp : (filled p).mem.read (Config.palBase + ((0 : Byte).toNat * 4 + b)) = some 0 :=
    readCells_append_of_some _ _ _ _ (hpal b hb)
  have hg : groupCode 0 0 0 c = 0 := by
    simp [groupCode]
  simp only [decodedByte, Option.bind_eq_bind, Nat.add_assoc, hbuf ((r / 4 * 32 + c / 8) * 3) (by omega),
    hbuf ((r / 4 * 32 + c / 8) * 3 + 1) (by omega), hbuf ((r / 4 * 32 + c / 8) * 3 + 2) (by omega), Option.bind_some, hg]
  rw [hcb, Option.bind_some, hp]
  rfl

/-- For DecodeFillsBlock, in both products. -/
theorem witness_decode_fills :
    OpenWith 1 (filled .grayscale) ∧ OpenWith 3 (filled .rgb) ∧
    ∀ p, ∀ b < 3, ∀ r < 256, ∀ c < 256, (decodedByte (filled p).mem b r c).isSome = true :=
  ⟨⟨rfl, rfl⟩, ⟨rfl, rfl⟩, fun p b hb r hr c hc => filled_decodes p b (by omega) r hr c hc⟩

/-- For DecodeWritesEachByteOnce and PlaneZeroIsGrayscale: a DECODE that ends, from states with the same CBUF, CB and PAL. -/
theorem witness_decode_ends : OpenWith 3 (filled .rgb) ∧ OpenWith 1 (filled .grayscale) ∧
    (filled .rgb).mem = (filled .grayscale).mem ∧ ∃ t, exec .decode (filled .rgb) = .next t := by
  refine ⟨⟨rfl, rfl⟩, ⟨rfl, rfl⟩, rfl, ?_⟩
  obtain ⟨t, ht, -, -⟩ := decodeBody_fills (n := 3) (s := filled .rgb)
    (fun b hb r hr c hc => filled_decodes .rgb b (by omega) r hr c hc) (by omega)
  refine ⟨Machine.done t, ?_⟩
  show conclude (decodeBody 3 (filled .rgb) >>= fun t => .ok (Machine.done t)) = _
  rw [ht]
  rfl

/-- For DecodeStopsOnUnwrittenByte: the first byte consumed, never written. -/
theorem witness_decode_stops : OpenWith 1 missed ∧ ∃ b < 1, ∃ r < 256, ∃ c < 256, decodedByte missed.mem b r c = none :=
  ⟨⟨rfl, rfl⟩, 0, by omega, 0, by omega, 0, by omega, rfl⟩

/-- For SrangeCoversExactlyTheSubframes: a covered frame (the last of its row) and one in the grid that is not covered. -/
theorem witness_srange :
    [aimed 0 1 0 0 inside, opened .rgb 2 2 2000 2000 100 100].map (fun s =>
      (s.reg.state, decide (u32 s.reg.curFr < u32 s.reg.framesV), decide (u32 s.reg.curFc < u32 s.reg.framesH),
        (after (exec .srange s)).map (fun t => t.reg.empty))) =
    [(.opened, true, true, some false), (.opened, true, true, some true)] := by decide +kernel

/-- For SrangeBadArgument: the row, and the column, one past the grid. -/
theorem witness_srange_bad :
    inside.reg.state = .opened ∧
    u32 (aimed 1 0 0 0 inside).reg.framesV ≤ u32 (aimed 1 0 0 0 inside).reg.curFr ∧
    u32 (aimed 0 2 0 0 inside).reg.framesH ≤ u32 (aimed 0 2 0 0 inside).reg.curFc := by decide

/-- For RowInversion: the first and the last row of three. -/
theorem witness_rows : u32 (aimed 0 0 0 0 (opened .rgb 1 3 0 0 1 1)).reg.curFr < u32 (opened .rgb 1 3 0 0 1 1).reg.framesV ∧
    u32 (aimed 2 0 0 0 (opened .rgb 1 3 0 0 1 1)).reg.curFr < u32 (opened .rgb 1 3 0 0 1 1).reg.framesV := by decide

/-- For TileOffsetsAreDistinct: the first and the last byte of a tile of 4 by 3 in RGB. -/
theorem witness_offsets : (0 < 3 ∧ 0 < 3 ∧ 0 < 4) ∧ (2 < 3 ∧ 2 < 3 ∧ 3 < 4) := by decide

/-- For TfillBlanksTheTile: V-T4, exactly TILE_CAP; and a tile of no bytes, V-T3. -/
theorem witness_tile_fits :
    OpenWith 1 (opened .grayscale 1 1 0 0 4096 2048) ∧ TileFits 1 (opened .grayscale 1 1 0 0 4096 2048) ∧
    TileFits 1 (opened .grayscale 1 1 0 0 0 4294967295) :=
  ⟨⟨rfl, rfl⟩, by unfold TileFits; decide, by unfold TileFits; decide⟩

/-- For TileTooLarge: V-T8, three bytes over at one more column, with the cursor in the grid. -/
theorem witness_too_large :
    OpenWith 3 (opened .rgb 1 1 0 0 2796203 1) ∧
    Config.tileCap < rectWidth (opened .rgb 1 1 0 0 2796203 1).reg * rectHeight (opened .rgb 1 1 0 0 2796203 1).reg * 3 ∧
    u32 (opened .rgb 1 1 0 0 2796203 1).reg.curFr < u32 (opened .rgb 1 1 0 0 2796203 1).reg.framesV ∧
    u32 (opened .rgb 1 1 0 0 2796203 1).reg.curFc < u32 (opened .rgb 1 1 0 0 2796203 1).reg.framesH :=
  ⟨⟨rfl, rfl⟩, by decide, by decide, by decide⟩

/-- For BlkcopyBadArgument: each part of the cursor one past its grid. -/
theorem witness_blkcopy_bad :
    u32 (aimed 1 0 0 0 inside).reg.framesV ≤ u32 (aimed 1 0 0 0 inside).reg.curFr ∧
    u32 (aimed 0 2 0 0 inside).reg.framesH ≤ u32 (aimed 0 2 0 0 inside).reg.curFc ∧
    6 ≤ u32 (aimed 0 0 6 0 inside).reg.curSr ∧ 6 ≤ u32 (aimed 0 0 0 6 inside).reg.curSc := by decide

/-- V-B3's rectangle with its two bytes of BLK. -/
def edge : State := stored 0x400FE [253, 252] (opened .grayscale 1 1 254 0 4 1)

/-- For BlkcopyCopiesTheClippedBlock: columns 254 and 255 are the block's, 256 and 257 are not. -/
theorem witness_blkcopy : OpenWith 1 edge ∧ TileFits 1 edge ∧
    u32 edge.reg.curFr < u32 edge.reg.framesV ∧ u32 edge.reg.curFc < u32 edge.reg.framesH ∧
    u32 edge.reg.curSr < 6 ∧ u32 edge.reg.curSc < 6 ∧
    (Requested edge.reg 254 0 ∧ InCell 0 0 0 0 254 0) ∧ (Requested edge.reg 256 0 ∧ ¬ InCell 0 0 0 0 256 0) ∧
    ∀ b < 1, ∀ x y, Requested edge.reg x y → InCell 0 0 0 0 x y →
      (edge.mem.read (Config.blkBase + (b * 65536 + (y - (0 * 1536 + 0 * 256 : Nat)).toNat * 256 +
        (x - (0 * 1536 + 0 * 256 : Nat)).toNat))).isSome = true := by
  refine ⟨⟨rfl, rfl⟩, by unfold TileFits; decide, by decide, by decide, by decide, by decide, by unfold Requested InCell; decide,
    by unfold Requested InCell; decide, ?_⟩
  intro b hb x y h1 h2
  have hx : 254 ≤ x ∧ x < 256 ∧ y = 0 := by
    have hl : rectLeft edge.reg = 254 := by decide
    have ht : rectTop edge.reg = 0 := by decide
    have hh : rectHeight edge.reg = 1 := by decide
    unfold Requested at h1
    unfold InCell at h2
    omega
  obtain ⟨hx1, hx2, rfl⟩ := hx
  have hb0 : b = 0 := by omega
  subst hb0
  interval_cases x <;> decide

/-- The same rectangle at the next cell to the right, with that cell's first two bytes of BLK. -/
def nextEdge : State := aimed 0 0 0 1 (stored 0x40000 [1, 2] (opened .grayscale 1 1 254 0 4 1))

/-- For CellsPartitionTheImage: two cursors of one rectangle, each with a copy that ends, and what each writes. -/
theorem witness_two_cursors :
    (edge.reg.rectX0, edge.reg.rectY0, edge.reg.rectW, edge.reg.rectH) =
      (nextEdge.reg.rectX0, nextEdge.reg.rectY0, nextEdge.reg.rectW, nextEdge.reg.rectH) ∧
    (edge.reg.curFr, edge.reg.curFc, edge.reg.curSr, edge.reg.curSc) ≠
      (nextEdge.reg.curFr, nextEdge.reg.curFc, nextEdge.reg.curSr, nextEdge.reg.curSc) ∧
    [edge, nextEdge].map (fun s => (after (exec .blkcopy s)).map (actsBetween s)) =
      [some [.write 0x800000 253, .write 0x800001 252], some [.write 0x800002 1, .write 0x800003 2]] :=
  ⟨by decide, by decide, by decide +kernel⟩

/-- One pixel, the image's last, with a value in every byte of plane 0. -/
def fullBlock : State := { opened .grayscale 1 1 1535 1535 1 1 with mem := ⟨zeros 0x40000 65536⟩ }

theorem fullBlock_inv : Inv fullBlock :=
  { opened_inv (p := .grayscale) (h := 1) (v := 1) nofun (by omega) (by omega) 1535 1535 1 1 with
    memCanonical := rising_zeros _ _
    memMapped := fun a v h => by
      have h' : 0x40000 ≤ a ∧ a < 0x40000 + 65536 := readCells_zeros_some _ _ _ _ h
      have hc : Space.blk.covers a = true := by
        rw [covers_iff]
        simp only [Space.base, Space.size, Config.blkBase, Config.blkSize]
        omega
      simp [isMemory, hc] }

/-- For CellsPartitionTheImage, second half. -/
theorem witness_full_block : Inv fullBlock ∧ OpenWith 1 fullBlock ∧ TileFits 1 fullBlock ∧
    Requested fullBlock.reg 1535 1535 ∧
    ∀ b < 1, ∀ k < 65536, (fullBlock.mem.read (Config.blkBase + (b * 65536 + k))).isSome = true := by
  refine ⟨fullBlock_inv, ⟨rfl, rfl⟩, by unfold TileFits; decide, by unfold Requested; decide, fun b hb k hk => ?_⟩
  have h : fullBlock.mem.read (Config.blkBase + (b * 65536 + k)) = some 0 :=
    readCells_zeros _ _ _ (by simp only [Config.blkBase]; omega)
  rw [h]
  rfl

/-- The same rectangle with nothing in BLK. -/
def bareEdge : State := opened .grayscale 1 1 254 0 4 1

/-- For BlkcopyStopsOnUnwrittenByte. -/
theorem witness_blkcopy_stops : OpenWith 1 bareEdge ∧ TileFits 1 bareEdge ∧
    u32 bareEdge.reg.curFr < u32 bareEdge.reg.framesV ∧ u32 bareEdge.reg.curFc < u32 bareEdge.reg.framesH ∧
    Requested bareEdge.reg 255 0 ∧ InCell 0 0 0 0 255 0 ∧ bareEdge.mem.read (Config.blkBase + 255) = none :=
  ⟨⟨rfl, rfl⟩, by unfold TileFits; decide, by decide, by decide, by unfold Requested; decide, by unfold InCell; decide, rfl⟩

end Sys2Proof.Tests
end

