-- ==== Sys2Proof/Proofs/BandCounts.lean ====
section
/-! SUPPORT. Why a piece of a command can stop: no body of a command asks for a band count, so `bands(Unknown)` is needed only
by the check `withBands` (00_scope.md R13). -/

namespace Sys2Proof.Machine

/-! ### Runs that never need `bands(Unknown)` -/

/-- If the run stops, it does not stop for want of a band count (log entry 10). -/
structure NeedsNoBands {α : Type} (r : Run α) : Prop where
  why_ne : ∀ e, r = .error e → e.why ≠ .bandsUndefined

theorem NeedsNoBands.ok {α : Type} (a : α) : NeedsNoBands (.ok a : Run α) :=
  ⟨fun _ he => by cases he⟩

/-- A stop for a byte without a value, or for a port, is none for want of a band count. -/
theorem NeedsNoBands.error {α : Type} {e : Stop} (h : e.why ≠ .bandsUndefined) : NeedsNoBands (.error e : Run α) :=
  ⟨fun _ he => Except.error.inj he ▸ h⟩

/-- Sequencing. -/
theorem NeedsNoBands.bind {α β : Type} {r : Run α} {f : α → Run β} (h1 : NeedsNoBands r) (h2 : ∀ a, NeedsNoBands (f a)) :
    NeedsNoBands (r >>= f) := by
  cases r with
  | ok a => exact h2 a
  | error e => exact NeedsNoBands.error (h1.why_ne e rfl)

theorem NeedsNoBands.loop {α : Type} {xs : List α} {body : α → State → Run State}
    (h : ∀ x s, NeedsNoBands (body x s)) (s : State) : NeedsNoBands (forEach xs body s) := by
  refine ⟨fun e he => ?_⟩
  obtain ⟨x, -, u, -, hu⟩ := forEach_stop (P := fun _ => True) trivial (fun _ _ _ _ _ _ => trivial) he
  exact (h x u).why_ne e hu

theorem memRead_needsNoBands (sp : Space) (o : Nat) (s : State) : NeedsNoBands (memRead sp o s) := by
  unfold memRead
  split
  · exact NeedsNoBands.ok _
  · exact NeedsNoBands.error nofun

/-- A port operation stops only to wait (43_external_ports.md R189). -/
theorem Asks.needsNoBands {α : Type} {r : PortReq} {s : State} {m : Run (State × α)} (h : Asks r s m) : NeedsNoBands m := by
  obtain ⟨x, rfl⟩ := h
  split
  · exact NeedsNoBands.error nofun
  · exact NeedsNoBands.ok _

/-! ### The bodies of the commands -/

theorem decodeBand_needsNoBands (i j t e : Nat) (idx1 idx2 : Byte) (b : Nat) (s : State) :
    NeedsNoBands (decodeBand i j t e idx1 idx2 b s) :=
  (memRead_needsNoBands ..).bind fun _ => (memRead_needsNoBands ..).bind fun _ => .ok _

theorem decodePlace_needsNoBands (n i j : Nat) (c1 c2 : BitVec 12) (t e : Nat) (s : State) :
    NeedsNoBands (decodePlace n i j c1 c2 t e s) :=
  (memRead_needsNoBands ..).bind fun _ => (memRead_needsNoBands ..).bind fun _ =>
    .loop (fun _ _ => decodeBand_needsNoBands ..) s

theorem decodeTriple_needsNoBands (n i j : Nat) (s : State) : NeedsNoBands (decodeTriple n i j s) :=
  (memRead_needsNoBands ..).bind fun _ => (memRead_needsNoBands ..).bind fun _ => (memRead_needsNoBands ..).bind fun _ =>
    .loop (fun _ u => .loop (fun _ _ => decodePlace_needsNoBands ..) u) s

/-- DECODE's body is given its band count (40_decode.md R110). -/
theorem decodeBody_needsNoBands (n : Nat) (s : State) : NeedsNoBands (decodeBody n s) :=
  .loop (fun _ u => .loop (fun _ _ => decodeTriple_needsNoBands ..) u) s

/-- BLKCOPY's body is given its band count (41_compositor.md R139). -/
theorem blkcopyBody_needsNoBands (n : Nat) (s : State) : NeedsNoBands (blkcopyBody n s) := by
  have hbyte (x y : Int) (b : Nat) (u : State) : NeedsNoBands (copyByte s.reg x y b u) :=
    (memRead_needsNoBands ..).bind fun _ => .ok _
  unfold blkcopyBody
  split
  · exact .ok s
  · exact .loop (fun _ u => .loop (fun _ v => .loop (fun _ _ => hbyte ..) v) u) s

theorem visitCell_needsNoBands (n dr fc sr sc : Nat) (s : State) : NeedsNoBands (visitCell n dr fc sr sc s) := by
  refine (frmFetch_asks dr fc sr sc s).needsNoBands.bind fun ⟨t, f⟩ => ?_
  dsimp only
  split
  · exact (decodeBody_needsNoBands ..).bind fun _ => blkcopyBody_needsNoBands ..
  · exact .ok t

theorem visitCells_needsNoBands (n dr fc : Nat) (s : State) : NeedsNoBands (visitCells n dr fc s) :=
  .loop (fun _ u => .loop (fun _ _ => visitCell_needsNoBands ..) u) s

theorem visitPresent_needsNoBands (n dr fc : Nat) (s : State) : NeedsNoBands (visitPresent n dr fc s) := by
  refine (frmOpen_asks dr fc s).needsNoBands.bind fun ⟨t, o⟩ => ?_
  dsimp only
  split
  · exact (visitCells_needsNoBands ..).bind fun _ => .ok _
  · exact .ok _

theorem visitFrame_needsNoBands (n fr fc : Nat) (s : State) : NeedsNoBands (visitFrame n fr fc s) := by
  refine (locExists_asks fr fc s).needsNoBands.bind fun ⟨t, present⟩ => ?_
  dsimp only
  split
  · exact visitPresent_needsNoBands ..
  · exact .ok t

/-- GETTILE's body is given its band count (R142). -/
theorem getTileBody_needsNoBands (n : Nat) (s : State) : NeedsNoBands (getTileBody n s) := by
  unfold getTileBody
  dsimp only
  split
  · exact .ok _
  · exact .loop (fun _ u => .loop (fun _ _ => visitFrame_needsNoBands ..) u) _

/-! ### The checks and the commands -/

/-- The state check passes on to the body only in Open (60_exceptions.md R206). -/
theorem whenOpen_needsNoBands {s : State} {body : State → Run State} (h : s.reg.state = .opened → NeedsNoBands (body s)) :
    NeedsNoBands (whenOpen s body) := by
  by_cases ho : s.reg.state = .opened
  · rw [whenOpen_opened ho]
    exact h ho
  · rw [whenOpen_other ho]
    exact .ok _

/-- A known product has a band count (00_scope.md R13). -/
theorem bands_of_known {p : ProductType} (h : p ≠ .unknown) : ∃ n, bands p = some n := by
  cases p with
  | unknown => exact absurd rfl h
  | grayscale => exact ⟨1, rfl⟩
  | rgb => exact ⟨3, rfl⟩

/-- The one place that evaluates BANDS does not stop on a known product (R13). -/
theorem withBands_needsNoBands {s : State} {body : Nat → Run State} (hp : s.reg.product ≠ .unknown)
    (h : ∀ n, NeedsNoBands (body n)) : NeedsNoBands (withBands s body) := by
  obtain ⟨n, hn⟩ := bands_of_known hp
  rw [withBands_some hn]
  exact h n

theorem whenFits_needsNoBands {n : Nat} {s : State} {body : State → Run State} (h : NeedsNoBands (body s)) :
    NeedsNoBands (whenFits n s body) := by
  unfold whenFits
  split
  · exact .ok _
  · exact h

/-- Where Open implies a known product (10_state.md R25), no command needs `bands(Unknown)`. -/
theorem runInstr_needsNoBands {s : State} (h : s.reg.state = .opened → s.reg.product ≠ .unknown) (i : Instr) :
    NeedsNoBands (runInstr i s) := by
  cases i with
  | openSource =>
    simp only [runInstr, runOpen]
    split
    · exact .ok _
    · exact (catLookup_asks ..).needsNoBands.bind fun _ => .ok _
  | closeSource =>
    apply whenOpen_needsNoBands
    exact fun _ => .ok _
  | getTile level =>
    apply whenOpen_needsNoBands
    intro ho
    split
    · exact .ok _
    · exact withBands_needsNoBands (h ho) fun n =>
        whenFits_needsNoBands ((getTileBody_needsNoBands n s).bind fun _ => .ok _)
  | getImageRect =>
    apply whenOpen_needsNoBands
    exact fun _ => .ok _
  | decode =>
    apply whenOpen_needsNoBands
    exact fun ho => withBands_needsNoBands (h ho) fun n => (decodeBody_needsNoBands n s).bind fun _ => .ok _
  | frange =>
    apply whenOpen_needsNoBands
    exact fun _ => .ok _
  | srange =>
    apply whenOpen_needsNoBands
    intro _
    split <;> exact .ok _
  | tfill =>
    apply whenOpen_needsNoBands
    exact fun ho => withBands_needsNoBands (h ho) fun _ => whenFits_needsNoBands (.ok _)
  | blkcopy =>
    apply whenOpen_needsNoBands
    intro ho
    split
    · exact withBands_needsNoBands (h ho) fun n =>
        whenFits_needsNoBands ((blkcopyBody_needsNoBands n s).bind fun _ => .ok _)
    · exact .ok _

/-! ### Why an event can stop -/

/-- A sequence stops in its first part or in what follows. -/
theorem bind_eq_error {ε α β : Type} {r : Except ε α} {f : α → Except ε β} {e : ε} (h : r >>= f = .error e) :
    r = .error e ∨ ∃ a, r = .ok a ∧ f a = .error e := by
  cases r with
  | ok a => exact .inr ⟨a, rfl, h⟩
  | error e' => exact .inl (congrArg Except.error (Except.error.inj h))

/-- A host read of a byte stops only for a byte without a value (70_reset_and_hazards.md R232). -/
theorem hostByte_error {a : Nat} {s : State} {f : Fault} (h : hostByte a s = .error f) : f = .unwrittenByte a := by
  unfold hostByte at h
  split at h
  · cases h
  · exact (Except.error.inj h).symm

/-- A Read32 of a memory stops only for one of its four bytes. -/
theorem hostWord_error {a : Nat} {s : State} {f : Fault} (h : hostWord a s = .error f) : ∃ k, f = .unwrittenByte k := by
  obtain h | ⟨_, -, h⟩ := bind_eq_error h
  · exact ⟨_, hostByte_error h⟩
  obtain h | ⟨_, -, h⟩ := bind_eq_error h
  · exact ⟨_, hostByte_error h⟩
  obtain h | ⟨_, -, h⟩ := bind_eq_error h
  · exact ⟨_, hostByte_error h⟩
  obtain h | ⟨_, -, h⟩ := bind_eq_error h
  · exact ⟨_, hostByte_error h⟩
  cases h

theorem busError_ne_fault (s : State) (f : Fault) : busError s ≠ .fault f := nofun

theorem busOkay_ne_fault (d : Word) (s : State) (f : Fault) : busOkay d s ≠ .fault f := nofun

theorem answerRead_fault {r : Except Fault Word} {s : State} {f : Fault} (h : answerRead r s = .fault f) : r = .error f := by
  cases r with
  | ok d => exact absurd h (busOkay_ne_fault d s f)
  | error f' => exact congrArg Except.error (Host.Outcome.fault.inj h)

theorem acknowledge_fault {o : Host.Outcome State Fault Refusal} {f : Fault} (h : acknowledge o = .fault f) :
    o = .fault f := by
  cases o with
  | next t => cases h
  | fault f' => exact h
  | refused r => cases h

/-- A word written to CMD stops only where its command stops. -/
theorem runWord_fault {w : Word} {s : State} {f : Fault} (h : runWord w s = .fault f) :
    ∃ i u, runInstr i s = .error ⟨f, u⟩ := by
  unfold runWord at h
  split at h
  case h_1 i _ =>
    rw [exec_eq] at h
    exact ⟨i, conclude_eq_fault h⟩
  case h_2 => cases h

/-- A command cut short by reset stops only for the fault of its own run (R230). -/
theorem abandon_fault {n : Nat} {s : State} {r : Run State} {f : Fault} (h : abandon n s r = .fault f) :
    ∃ u, r = .error ⟨f, u⟩ := by
  unfold abandon at h
  split at h
  case h_1 => cases h
  case h_2 => cases h
  case h_3 why t _ =>
    split at h
    · cases h
    · exact ⟨t, by rw [Host.Outcome.fault.inj h]⟩

theorem serveRead8_fault {a : Nat} {s : State} {f : Fault} (h : serveRead8 a s = .fault f) : ∃ k, f = .unwrittenByte k := by
  unfold serveRead8 at h
  split at h
  · have hr := answerRead_fault h
    cases hb : hostByte a s with
    | ok v =>
      rw [hb] at hr
      cases hr
    | error f' =>
      rw [hb] at hr
      exact ⟨a, (Except.error.inj hr) ▸ hostByte_error hb⟩
  · cases h

theorem serveRead32_fault {a : Nat} {s : State} {f : Fault} (h : serveRead32 a s = .fault f) :
    ∃ k, f = .unwrittenByte k := by
  unfold serveRead32 at h
  split at h
  · cases h
  split at h
  · split at h <;> cases h
  split at h
  · exact hostWord_error (answerRead_fault h)
  · cases h

theorem serveWrite8_ne_fault (a : Nat) (d : Word) (s : State) (f : Fault) : serveWrite8 a d s ≠ .fault f := by
  unfold serveWrite8
  split
  · exact busOkay_ne_fault _ _ f
  · exact busError_ne_fault _ f

/-- A Write32 stops only at CMD, where it runs a command (10_state.md R22). -/
theorem serveWrite32_fault {a : Nat} {d : Word} {s : State} {f : Fault} (h : serveWrite32 a d s = .fault f) :
    ∃ i u, runInstr i s = .error ⟨f, u⟩ := by
  unfold serveWrite32 at h
  split at h
  · cases h
  split at h
  · split at h
    · unfold serveRegWrite at h
      split at h
      case h_1 => cases h
      case h_2 => cases h
      case h_3 => exact runWord_fault (acknowledge_fault h)
    · cases h
  split at h <;> cases h

/-- Why a transaction can stop: a byte that the host reads has no value, or the command it starts stops. -/
theorem serveBus_fault {t : Txn} {s : State} {f : Fault} (h : serveBus t s = .fault f) :
    (∃ k, f = .unwrittenByte k) ∨ ∃ i u, runInstr i s = .error ⟨f, u⟩ := by
  unfold serveBus at h
  split at h
  · split at h
    · exact .inl (serveRead32_fault h)
    · exact .inr (serveWrite32_fault h)
  split at h
  · split at h
    · exact .inl (serveRead8_fault h)
    · exact absurd h (serveWrite8_ne_fault _ _ s f)
  · cases h

/-- Why an event can stop: the same, for a command that runs to its end or is cut short. -/
theorem serve_fault {e : Event} {s : State} {f : Fault} (h : serve e s = .fault f) :
    (∃ k, f = .unwrittenByte k) ∨ ∃ i u, runInstr i s = .error ⟨f, u⟩ := by
  cases e with
  | bus t => exact serveBus_fault h
  | reset => cases h
  | resetDuring w n =>
    simp only [serve, serveResetDuring] at h
    split at h
    case h_1 i _ => exact .inr ⟨i, abandon_fault h⟩
    case h_2 => cases h
  | powerUp => cases h
  | envChange env => cases h

end Sys2Proof.Machine

open Sys2Proof.Machine

/-- Settles O56: a stop for want of a band count would be the stop of a command's run, and the invariant gives an open source
its product. -/
theorem bandsAlwaysDefined : Obligations.BandsAlwaysDefined := by
  intro s hinv h
  unfold step at h
  split at h
  case h_1 => cases h
  case h_2 e rest _ =>
    obtain ⟨k, hk⟩ | ⟨i, u, hu⟩ := serve_fault h
    · cases hk
    · have hdef := runInstr_needsNoBands (s := { s with inbox := rest }) hinv.openProduct i
      exact hdef.why_ne _ hu rfl
end

