-- ==== Sys2Proof/Proofs/CellPartition.lean ====
section
/-! SUPPORT. Which bytes a BLKCOPY records as written: those of the copied pixels, and all of them (41_compositor.md R139 to
R141). With R137 the cursor of a copied pixel is the cell the pixel lies in, so the cells partition the image. -/

namespace Sys2Proof.Machine

/-! ### What a loop has recorded -/

/-- Every host offset: of an effect whose offsets do not matter. -/
abbrev AnyOffset : Nat → Prop := fun _ => True

/-- Among the acts recorded from `s` to `t` is a write at the host offset `a`. -/
def Wrote (a : Nat) (s t : State) : Prop := ∃ new, t.hist = new ++ s.hist ∧ ∃ v, Act.write a v ∈ new

theorem memWrite_wrote (sp : Space) (o : Nat) (v : Byte) (s : State) : Wrote (sp.base + o) s (memWrite sp o v s) :=
  ⟨[.write (sp.base + o) v], rfl, v, List.mem_singleton.2 rfl⟩

theorem Wrote.mem_actsBetween {a : Nat} {s t : State} (h : Wrote a s t) : ∃ v, Act.write a v ∈ actsBetween s t := by
  obtain ⟨new, ht, v, hv⟩ := h
  exact ⟨v, by simpa [actsBetween, ht] using hv⟩

/-- What follows a write keeps it on record. -/
theorem Wrote.before {P : Nat → Prop} {Q : PortReq → Prop} {a : Nat} {s t u : State} (h : Wrote a s t)
    (htu : Effect P Q t u) : Wrote a s u := by
  obtain ⟨new, ht, v, hv⟩ := h
  obtain ⟨more, hu, -⟩ := htu.acts
  exact ⟨more ++ new, by rw [hu, ht, List.append_assoc], v, List.mem_append_right more hv⟩

theorem Wrote.after {P : Nat → Prop} {Q : PortReq → Prop} {a : Nat} {s t u : State} (hst : Effect P Q s t)
    (h : Wrote a t u) : Wrote a s u := by
  obtain ⟨less, ht, -⟩ := hst.acts
  obtain ⟨new, hu, v, hv⟩ := h
  exact ⟨new ++ less, by rw [hu, ht, List.append_assoc], v, List.mem_append_left less hv⟩

/-- A loop that completes has written what one of its passes writes. -/
theorem forEach_wrote {α : Type} {P : Nat → Prop} {body : α → State → Run State} {xs : List α} {x : α} {a : Nat}
    (hx : x ∈ xs) (hquiet : ∀ y s, Leads (Quiet P) s (body y s))
    (hpass : ∀ s t, body x s = .ok t → Wrote a s t) {s t : State} (h : forEach xs body s = .ok t) : Wrote a s t := by
  induction xs generalizing s with
  | nil => cases hx
  | cons y rest ih =>
    cases hb : body y s with
    | error e =>
      rw [forEach_cons_error hb] at h
      cases h
    | ok u =>
      rw [forEach_cons_ok hb] at h
      rcases List.mem_cons.1 hx with rfl | hmem
      · have hrest := (Leads.loop (Quiet.refl P) Quiet.trans (fun y _ v => hquiet y v) u).1 t h
        exact (hpass s u hb).before hrest.1
      · exact (ih hmem h).after ((hquiet y s).1 u hb).1

/-! ### The body of BLKCOPY -/

/-- A copied pixel is a requested one under the block of the cursor (R131, R139). -/
theorem copied_iff {g : Regs} {x y : Int} : Copied g x y ↔ Requested g x y ∧
    blockLeft g ≤ x ∧ x ≤ blockLeft g + 255 ∧ blockTop g ≤ y ∧ y ≤ blockTop g + 255 := by
  simp only [Copied, copySpan, clip, Requested, max_le_iff, le_min_iff, Int.le_sub_one_iff, lt_min_iff]
  constructor
  · rintro ⟨⟨hl, hrl, h0⟩, ⟨hr, hrr, hw⟩, ⟨ht, hrt, h0'⟩, hb, hrb, hh⟩
    exact ⟨⟨hrl, hrr, hrt, hrb, h0, hw, h0', hh⟩, hl, hr, ht, hb⟩
  · rintro ⟨⟨hrl, hrr, hrt, hrb, h0, hw, h0', hh⟩, hl, hr, ht, hb⟩
    exact ⟨⟨hl, hrl, h0⟩, ⟨hr, hrr, hw⟩, ⟨ht, hrt, h0'⟩, hb, hrb, hh⟩

/-- Where a pixel is copied the clip rectangle is not empty. -/
theorem Copied.clip_nonempty {g : Regs} {x y : Int} (h : Copied g x y) : ¬ (clip g).isEmpty = true := by
  obtain ⟨hx0, hx1, hy0, hy1⟩ := h
  simp only [copySpan] at hx0 hx1 hy0 hy1
  change ¬ emptyOfImage g = true
  rw [emptyOfImage_iff]
  omega

theorem copyByte_quiet (g : Regs) (x y : Int) (b : Nat) (s : State) : Leads (Quiet AnyOffset) s (copyByte g x y b s) :=
  Leads.read (Quiet.refl _) fun _ _ => Leads.ok (memWrite_quiet _ _ _ _ trivial)

theorem copyByte_wrote {g : Regs} {x y : Int} {b : Nat} {s t : State} (h : copyByte g x y b s = .ok t) :
    Wrote (Config.tileBase + copyTo g b x y) s t := by
  unfold copyByte at h
  cases hv : memRead .blk (copyFrom g b x y) s with
  | error e =>
    rw [hv] at h
    cases h
  | ok v =>
    rw [hv] at h
    cases h
    exact memWrite_wrote .tile _ v s

/-- A copy that completes has written every byte of every copied pixel (R139). -/
theorem blkcopyBody_wrote {n b : Nat} {x y : Int} {s t : State} (h : blkcopyBody n s = .ok t) (hb : b < n)
    (hxy : Copied s.reg x y) : Wrote (Config.tileBase + copyTo s.reg b x y) s t := by
  rw [blkcopyBody, if_neg hxy.clip_nonempty] at h
  obtain ⟨hx0, hx1, hy0, hy1⟩ := hxy
  have hpixel (x y : Int) (u : State) : Leads (Quiet AnyOffset) u (forEach (List.range n) (copyByte s.reg x y) u) :=
    Leads.loop (Quiet.refl _) Quiet.trans (fun _ _ _ => copyByte_quiet ..) u
  refine forEach_wrote (mem_upToInt.2 ⟨hy0, hy1⟩)
    (fun y u => Leads.loop (Quiet.refl _) Quiet.trans (fun x _ w => hpixel x y w) u) (fun u w hrow => ?_) h
  refine forEach_wrote (mem_upToInt.2 ⟨hx0, hx1⟩) (fun x v => hpixel x y v) (fun v z hpx => ?_) hrow
  refine forEach_wrote (List.mem_range.2 hb) (fun b v => copyByte_quiet s.reg x y b v) (fun _ _ hbyte => ?_) hpx
  exact copyByte_wrote hbyte

/-! ### The command -/

/-- A command behind the state check that ends: it took E_NOTOPEN, or its body ended (60_exceptions.md R206). -/
theorem whenOpen_eq_ok {s t : State} {body : State → Run State} (h : whenOpen s body = .ok t) :
    t = raiseErr .notOpen s ∨ body s = .ok t := by
  by_cases ho : s.reg.state = .opened
  · rw [whenOpen_opened ho] at h
    exact .inr h
  · rw [whenOpen_other ho] at h
    exact .inl (Except.ok.inj h).symm

theorem withBands_eq_ok {s t : State} {body : Nat → Run State} (h : withBands s body = .ok t) :
    ∃ n, bands s.reg.product = some n ∧ body n = .ok t := by
  unfold withBands at h
  split at h
  case h_1 n hn => exact ⟨n, hn, h⟩
  case h_2 => cases h

theorem whenFits_eq_ok {n : Nat} {s t : State} {body : State → Run State} (h : whenFits n s body = .ok t) :
    t = raiseErr .tileCap s ∨ body s = .ok t := by
  unfold whenFits at h
  split at h
  · exact .inl (Except.ok.inj h).symm
  · exact .inr h

/-- A body that ends the command with success. -/
theorem bind_done_eq_ok {r : Run State} {t : State} (h : (r >>= fun u => .ok (done u)) = .ok t) :
    ∃ u, r = .ok u ∧ t = done u := by
  cases r with
  | ok u => exact ⟨u, rfl, (Except.ok.inj h).symm⟩
  | error e => cases h

/-- How a BLKCOPY can end: with a command error and no other effect, or with its body done for a cursor in the sub-frame grid
(R139, R206). -/
theorem blkcopy_next {s t : State} (h : exec .blkcopy s = .next t) : (∃ e, t = raiseErr e s) ∨
    (subInFrame s.reg = true ∧ ∃ n u, blkcopyBody n s = .ok u ∧ t = done u) := by
  rw [exec_eq] at h
  have hrun : runBlkcopy s = .ok t := conclude_eq_next h
  obtain hclosed | hrun := whenOpen_eq_ok hrun
  · exact .inl ⟨_, hclosed⟩
  split at hrun
  case isFalse => exact .inl ⟨_, (Except.ok.inj hrun).symm⟩
  case isTrue hcursor =>
    obtain ⟨n, -, hrun⟩ := withBands_eq_ok hrun
    obtain hover | hrun := whenFits_eq_ok hrun
    · exact .inl ⟨_, hover⟩
    · exact .inr ⟨(Bool.and_eq_true_iff.1 hcursor).2, n, bind_done_eq_ok hrun⟩

/-- A BLKCOPY that wrote a byte had a cursor in the grid, and the byte is one of a copied pixel. -/
theorem blkcopy_write {s t : State} {a : Nat} {v : Byte} (h : exec .blkcopy s = .next t)
    (hw : Act.write a v ∈ actsBetween s t) :
    subInFrame s.reg = true ∧ ∃ b x y, Copied s.reg x y ∧ a = Config.tileBase + copyTo s.reg b x y := by
  obtain ⟨e, rfl⟩ | ⟨hsub, n, u, hbody, rfl⟩ := blkcopy_next h
  · simp [actsBetween] at hw
  · have hquiet := (blkcopyBody_quiet n s).1 u hbody
    obtain ⟨-, -, hwrites, -⟩ := hquiet.1.actsBetween_spec
    obtain ⟨b, -, x, y, hxy, ha⟩ := hwrites a v hw
    exact ⟨hsub, b, x, y, hxy, ha⟩

/-! ### Two cursors of one rectangle -/

/-- An offset in TILE names one pixel of the rectangle (R141). -/
theorem copyTo_pixel_inj {g h : Regs} (hx0 : rectLeft h = rectLeft g) (hy0 : rectTop h = rectTop g)
    (hw : rectWidth h = rectWidth g) (hh : rectHeight h = rectHeight g) {b c : Nat} {x y x' y' : Int}
    (hg : Requested g x y) (hh' : Requested h x' y') (heq : copyTo g b x y = copyTo h c x' y') : x = x' ∧ y = y' := by
  obtain ⟨hl, hr, ht, hb, -⟩ := hg
  obtain ⟨hl', hr', ht', hb', -⟩ := hh'
  rw [copyTo_eq b hl ht, copyTo_eq c hl' ht', hx0, hy0, hw, hh] at heq
  obtain ⟨-, hrow, hcol⟩ := planar_apart (b := b) (w := rectWidth g) (h := rectHeight g)
    (show (y - rectTop g).toNat < rectHeight g by omega) (show (x - rectLeft g).toNat < rectWidth g by omega)
  obtain ⟨-, hrow', hcol'⟩ := planar_apart (b := c) (w := rectWidth g) (h := rectHeight g)
    (show (y' - rectTop g).toNat < rectHeight g by omega) (show (x' - rectLeft g).toNat < rectWidth g by omega)
  rw [heq] at hrow hcol
  have hrows := hrow.symm.trans hrow'
  have hcols := hcol.symm.trans hcol'
  omega

/-- The four cursor registers. -/
def cursor (g : Regs) : Word × Word × Word × Word := (g.curFr, g.curFc, g.curSr, g.curSc)

/-- The blocks of two cursors share no pixel: a pixel lies in one frame and in one sub-frame of it (00_scope.md R15, R137). -/
theorem cursor_eq_of_copied {g h : Regs} (hg : subInFrame g = true) (hh : subInFrame h = true) {x y : Int}
    (hgxy : Copied g x y) (hhxy : Copied h x y) : cursor g = cursor h := by
  obtain ⟨hsr, hsc⟩ := subInFrame_iff.1 hg
  obtain ⟨hsr', hsc'⟩ := subInFrame_iff.1 hh
  obtain ⟨-, hl, hr, ht, hb⟩ := copied_iff.1 hgxy
  obtain ⟨-, hl', hr', ht', hb'⟩ := copied_iff.1 hhxy
  simp only [blockLeft, blockTop, Config.frameDim, Config.subframeDim] at hl hr ht hb hl' hr' ht' hb'
  have hfr : u32 g.curFr = u32 h.curFr := by omega
  have hfc : u32 g.curFc = u32 h.curFc := by omega
  have hsr : u32 g.curSr = u32 h.curSr := by omega
  have hsc : u32 g.curSc = u32 h.curSc := by omega
  simp only [cursor, BitVec.eq_of_toNat_eq hfr, BitVec.eq_of_toNat_eq hfc, BitVec.eq_of_toNat_eq hsr,
    BitVec.eq_of_toNat_eq hsc]

/-- Two BLKCOPYs of one rectangle that write the same byte have the same cursor. -/
theorem cursor_eq_of_common_write {s1 s2 t1 t2 : State} (hx0 : s2.reg.rectX0 = s1.reg.rectX0)
    (hy0 : s2.reg.rectY0 = s1.reg.rectY0) (hw : s2.reg.rectW = s1.reg.rectW) (hh : s2.reg.rectH = s1.reg.rectH)
    (h1 : exec .blkcopy s1 = .next t1) (h2 : exec .blkcopy s2 = .next t2) {a : Nat} {v1 v2 : Byte}
    (hw1 : Act.write a v1 ∈ actsBetween s1 t1) (hw2 : Act.write a v2 ∈ actsBetween s2 t2) :
    cursor s1.reg = cursor s2.reg := by
  obtain ⟨hsub1, b, x, y, hxy, ha⟩ := blkcopy_write h1 hw1
  obtain ⟨hsub2, c, x', y', hxy', ha'⟩ := blkcopy_write h2 hw2
  obtain ⟨rfl, rfl⟩ := copyTo_pixel_inj (by rw [rectLeft, hx0, rectLeft]) (by rw [rectTop, hy0, rectTop])
    (by rw [rectWidth, hw, rectWidth]) (by rw [rectHeight, hh, rectHeight]) (copied_iff.1 hxy).1 (copied_iff.1 hxy').1
    (Nat.add_left_cancel (ha.symm.trans ha'))
  exact cursor_eq_of_copied hsub1 hsub2 hxy hxy'

/-! ### The cell of a pixel -/

/-- The state with the cursor at the cell `(fr, fc, sr, sc)` (10_state.md R32). -/
def atCell (cell : Nat × Nat × Nat × Nat) (s : State) : State :=
  { s with reg := { s.reg with
      curFr := wordOfNat cell.1, curFc := wordOfNat cell.2.1
      curSr := wordOfNat cell.2.2.1, curSc := wordOfNat cell.2.2.2 } }

/-- The cell is one of the frame grid and of the 6 × 6 sub-frame grid (R139). -/
def InGrid (g : Regs) (cell : Nat × Nat × Nat × Nat) : Prop :=
  cell.1 < u32 g.framesV ∧ cell.2.1 < u32 g.framesH ∧ cell.2.2.1 < 6 ∧ cell.2.2.2 < 6

/-- The cell a pixel of the image lies in (00_scope.md R15, R133). -/
def cellAt (x y : Int) : Nat × Nat × Nat × Nat :=
  ((y / 1536).toNat, (x / 1536).toNat, (y % 1536 / 256).toNat, (x % 1536 / 256).toNat)

/-- A cell of the grid is stored whole in the cursor registers. -/
theorem u32_cursor_atCell {s : State} (hinv : Inv s) {cell : Nat × Nat × Nat × Nat} (h : InGrid s.reg cell) :
    u32 (atCell cell s).reg.curFr = cell.1 ∧ u32 (atCell cell s).reg.curFc = cell.2.1 ∧
    u32 (atCell cell s).reg.curSr = cell.2.2.1 ∧ u32 (atCell cell s).reg.curSc = cell.2.2.2 := by
  obtain ⟨hfr, hfc, hsr, hsc⟩ := h
  obtain ⟨hframesH, hframesV⟩ := hinv.framesFit
  exact ⟨u32_wordOfNat (by omega), u32_wordOfNat (by omega), u32_wordOfNat (by omega), u32_wordOfNat (by omega)⟩

/-- Different cells of the grid are different cursors. -/
theorem cell_eq_of_cursor_eq {s : State} (hinv : Inv s) {c d : Nat × Nat × Nat × Nat} (hc : InGrid s.reg c)
    (hd : InGrid s.reg d) (h : cursor (atCell c s).reg = cursor (atCell d s).reg) : c = d := by
  obtain ⟨hfr, hfc, hsr, hsc⟩ := u32_cursor_atCell hinv hc
  obtain ⟨hfr', hfc', hsr', hsc'⟩ := u32_cursor_atCell hinv hd
  simp only [cursor, Prod.mk.injEq] at h
  obtain ⟨efr, efc, esr, esc⟩ := h
  rw [efr, hfr'] at hfr
  rw [efc, hfc'] at hfc
  rw [esr, hsr'] at hsr
  rw [esc, hsc'] at hsc
  simp only [Prod.ext_iff]
  exact ⟨hfr.symm, hfc.symm, hsr.symm, hsc.symm⟩

/-- A pixel of the image lies in a cell of the grid (R15, 10_state.md R33). -/
theorem cellAt_inGrid {s : State} (hinv : Inv s) {x y : Int} (h : Requested s.reg x y) : InGrid s.reg (cellAt x y) := by
  obtain ⟨-, -, -, -, hx0, hx1, hy0, hy1⟩ := h
  obtain ⟨hw, hh⟩ := hinv.imageIsFrames
  simp only [InGrid, cellAt]
  omega

/-- With the cursor at its cell a requested pixel is copied (R139). -/
theorem copied_atCell {s : State} (hinv : Inv s) {x y : Int} (h : Requested s.reg x y) :
    Copied (atCell (cellAt x y) s).reg x y := by
  obtain ⟨hfr, hfc, hsr, hsc⟩ := u32_cursor_atCell hinv (cellAt_inGrid hinv h)
  have hpos : 0 ≤ x ∧ 0 ≤ y := ⟨h.2.2.2.2.1, h.2.2.2.2.2.2.1⟩
  refine copied_iff.2 ⟨h, ?_⟩
  simp only [blockLeft, blockTop, hfr, hfc, hsr, hsc, Config.frameDim, Config.subframeDim]
  simp only [cellAt]
  omega

/-- With a value in every byte of the planes and a tile that fits, a BLKCOPY at a cell of the grid runs its body to the end
(R139). -/
theorem blkcopy_atCell_completes {s : State} {n : Nat} (hinv : Inv s) (hopen : OpenWith n s) (hfits : TileFits n s)
    (hblk : ∀ b < n, ∀ k < 65536, (s.mem.read (Config.blkBase + (b * 65536 + k))).isSome = true)
    {cell : Nat × Nat × Nat × Nat} (hcell : InGrid s.reg cell) :
    ∃ t, blkcopyBody n (atCell cell s) = .ok t ∧ exec .blkcopy (atCell cell s) = .next (done t) := by
  obtain ⟨hfr, hfc, hsr, hsc⟩ := u32_cursor_atCell hinv hcell
  obtain ⟨gfr, gfc, gsr, gsc⟩ := hcell
  have hframe : frameInGrid (atCell cell s).reg = true := frameInGrid_iff.2 ⟨hfr.trans_lt gfr, hfc.trans_lt gfc⟩
  have hsub : subInFrame (atCell cell s).reg = true := subInFrame_iff.2 ⟨hsr.trans_lt gsr, hsc.trans_lt gsc⟩
  have hvalues (b : Nat) (hb : b < n) (x y : Int) (hxy : Copied (atCell cell s).reg x y) :
      ((atCell cell s).mem.read (Config.blkBase + copyFrom (atCell cell s).reg b x y)).isSome = true := by
    obtain ⟨-, hl, hr, ht, hb'⟩ := copied_iff.1 hxy
    rw [copyFrom_eq b hl ht, Nat.add_assoc (b * 65536)]
    exact hblk b hb _ (by omega)
  have hn : n ≤ 3 := by
    have := bands_cases hopen.2
    omega
  obtain ⟨t, hbody, -⟩ := blkcopyBody_fills hvalues hn
  refine ⟨t, hbody, ?_⟩
  have hrun : runBlkcopy (atCell cell s) = .ok (done t) := by
    rw [runBlkcopy, whenOpen_opened (s := atCell cell s) hopen.1, hframe, hsub, Bool.and_self, if_pos rfl,
      withBands_some (s := atCell cell s) hopen.2, whenFits_fit (s := atCell cell s) hfits, hbody]
    rfl
  rw [exec_eq]
  exact congrArg conclude hrun

/-- The BLKCOPY at the cell of a requested pixel ends, and writes each band of the pixel to its place in the tile (R141). -/
theorem blkcopy_at_cellAt {s : State} {n : Nat} (hinv : Inv s) (hopen : OpenWith n s) (hfits : TileFits n s)
    (hblk : ∀ b < n, ∀ k < 65536, (s.mem.read (Config.blkBase + (b * 65536 + k))).isSome = true) {x y : Int}
    (hxy : Requested s.reg x y) {b : Nat} (hb : b < n) :
    ∃ t v, exec .blkcopy (atCell (cellAt x y) s) = .next t ∧
      Act.write (Config.tileBase + (b * (rectWidth s.reg * rectHeight s.reg) +
        (y - rectTop s.reg).toNat * rectWidth s.reg + (x - rectLeft s.reg).toNat)) v
          ∈ actsBetween (atCell (cellAt x y) s) t := by
  obtain ⟨t, hbody, hexec⟩ := blkcopy_atCell_completes hinv hopen hfits hblk (cellAt_inGrid hinv hxy)
  obtain ⟨v, hv⟩ := (blkcopyBody_wrote hbody hb (copied_atCell hinv hxy)).mem_actsBetween
  obtain ⟨hl, -, ht, -⟩ := hxy
  rw [copyTo_eq (g := (atCell (cellAt x y) s).reg) b hl ht] at hv
  exact ⟨done t, v, hexec, hv⟩

end Sys2Proof.Machine

open Sys2Proof Sys2Proof.Machine

/-- Settles O28: a byte of the tile names its pixel (R141), and a pixel lies under the block of one cursor only (R137); the
copy at that cursor completes and writes the byte. -/
theorem cellsPartitionTheImage : Obligations.CellsPartitionTheImage := by
  constructor
  · intro s1 s2 t1 t2 hx0 hy0 hw hh hne h1 h2 a v1 v2 hw1 hw2
    exact hne (cursor_eq_of_common_write hx0 hy0 hw hh h1 h2 hw1 hw2)
  · intro s n x y hinv hopen hfits hxy hblk b hb
    obtain ⟨t, v, hexec, hwrite⟩ := blkcopy_at_cellAt hinv hopen hfits hblk hxy hb
    have hgrid := cellAt_inGrid hinv hxy
    obtain ⟨hfr, hfc, hsr, hsc⟩ := hgrid
    refine ⟨cellAt x y, ⟨hfr, hfc, hsr, hsc, _, t, v, rfl, hexec, hwrite⟩, ?_⟩
    rintro cell ⟨gfr, gfc, gsr, gsc, _, t', v', rfl, hexec', hwrite'⟩
    have hcursor := cursor_eq_of_common_write (s1 := atCell cell s) (s2 := atCell (cellAt x y) s) rfl rfl rfl rfl
      hexec' hexec hwrite' hwrite
    exact cell_eq_of_cursor_eq hinv ⟨gfr, gfc, gsr, gsc⟩ ⟨hfr, hfc, hsr, hsc⟩ hcursor
end

