-- ==== Sys2Proof/Proofs/RegisterAccess.lean ====
section
/-! SUPPORT. The registers as the host sees them (10_state.md R20 to R39, R49): which offsets have a register, what the bus
answers there, what a write changes, and the fields of STATUS and FLAGS. -/

namespace Sys2Proof.Machine

/-! ### One event -/

/-- A step with an event to come serves that event. -/
theorem step_serve {s : State} {e : Event} {rest : List Event} (h : s.inbox = e :: rest) :
    step s = serve e { s with inbox := rest } := by
  simp only [step, h]

theorem runWord_command {w : Word} {i : Instr} (h : decode w = .command i) (s : State) : runWord w s = exec i s := by
  simp only [runWord, h]

/-! ### The offsets of the registers (R20) -/

theorem regAt_isSome_iff {a : Nat} : (regAt a).isSome = true ↔ a % 4 = 0 ∧ a ≤ 0x7C := by
  unfold regAt
  split
  case isTrue hal =>
    rw [isSome_getElem?, show regNames.length = 32 from rfl]
    omega
  case isFalse hal => simp [hal]

/-- An offset with a register is an aligned offset of space REG. -/
theorem regAt_aligned {a : Nat} {r : RegName} (h : regAt a = some r) : a % 4 = 0 ∧ isReg a = true := by
  obtain ⟨hal, hle⟩ := regAt_isSome_iff.1 (Option.isSome_of_eq_some h)
  exact ⟨hal, decide_eq_true (by omega)⟩

theorem regAt_offsetWord (r : RegName) : regAt (BitVec.ofNat 32 (regOffset r)).toNat = some r := by
  cases r <;> decide

/-- A Read32 at a register's offset answers that register (R72). -/
theorem serve_read32_reg {a : Word} {r : RegName} (h : regAt a.toNat = some r) (d : Word) (s : State) :
    serve (.bus ⟨.read, 32, a, d⟩) s = busOkay (readReg r s.reg) s := by
  obtain ⟨hal, hreg⟩ := regAt_aligned h
  simp [serve, serveBus, serveRead32, hal, hreg, h]

/-- A Write32 at a register's offset is served by that register (R72). -/
theorem serve_write32_reg {a : Word} {r : RegName} (h : regAt a.toNat = some r) (d : Word) (s : State) :
    serve (.bus ⟨.write, 32, a, d⟩) s = serveRegWrite r d s := by
  obtain ⟨hal, hreg⟩ := regAt_aligned h
  simp [serve, serveBus, serveWrite32, hal, hreg, h]

theorem serveRegWrite_rw {r : RegName} (h : regAccess r = .rw) (d : Word) (s : State) :
    serveRegWrite r d s = busOkay 0 { s with reg := writeReg r d s.reg } := by
  simp only [serveRegWrite, h]

/-- A write of a word to CMD runs it and is then acknowledged (R22). -/
theorem serve_commandEvent (w : Word) (s : State) : serve (commandEvent w) s = acknowledge (runWord w s) :=
  serve_write32_reg (r := .cmd) rfl w s

/-! ### Read after write (R30, R72) -/

/-- BLANK keeps the low eight bits (R30). -/
theorem zeroExtend_setWidth_eight (d : Word) : (d.setWidth 8).zeroExtend 32 = d &&& 0xFF := by
  apply BitVec.eq_of_toNat_eq
  have hmask : d.toNat &&& 255 = d.toNat % 256 := Nat.and_two_pow_sub_one_eq_mod _ 8
  simp only [BitVec.truncate_eq_setWidth, BitVec.toNat_setWidth, BitVec.toNat_and, BitVec.reduceToNat, hmask]
  omega

theorem readReg_writeReg_same {r : RegName} (h : regAccess r = .rw) (d : Word) (g : Regs) :
    readReg r (writeReg r d g) = if r = .blank then d &&& 0xFF else d := by
  cases r
  case blank => exact zeroExtend_setWidth_eight d
  all_goals cases h <;> rfl

/-- A register that is not RW is not written by the host (R20). -/
theorem writeReg_not_rw {r : RegName} (h : regAccess r ≠ .rw) (d : Word) (g : Regs) : writeReg r d g = g := by
  cases r with
  | handle | blank | rectX0 | rectY0 | rectW | rectH | curFr | curFc | curSr | curSc => exact absurd rfl h
  | _ => rfl

theorem readReg_writeReg_other {q r : RegName} (h : q ≠ r) (d : Word) (g : Regs) :
    readReg q (writeReg r d g) = readReg q g := by
  by_cases hrw : regAccess r = .rw
  · cases r <;> cases hrw <;> cases q <;> first | rfl | exact absurd rfl h
  · rw [writeReg_not_rw hrw]

/-! ### The fields of STATUS (R23, 60_exceptions.md R201) -/

theorem facadeCode_lt (x : FacadeState) : facadeCode x < 3 := by cases x <;> decide

theorem productCode_lt (x : ProductType) : productCode x < 3 := by cases x <;> decide

theorem errCode_lt (x : ErrCode) : errCode x < 10 := by cases x <;> decide

theorem statusWord_toNat (g : Regs) :
    (statusWord g).toNat = facadeCode g.state + productCode g.product * 4 + errCode g.err * 256 := by
  have hs := facadeCode_lt g.state
  have hp := productCode_lt g.product
  have he := errCode_lt g.err
  rw [statusWord, BitVec.toNat_ofNat]
  omega

/-- A field of STATUS by arithmetic on its three codes. -/
theorem statusWord_field (g : Regs) (start len : Nat) : (statusWord g).extractLsb' start len =
    BitVec.ofNat len ((facadeCode g.state + productCode g.product * 4 + errCode g.err * 256) / 2 ^ start) := by
  apply BitVec.eq_of_toNat_eq
  rw [BitVec.extractLsb'_toNat, BitVec.toNat_ofNat, statusWord_toNat, Nat.shiftRight_eq_div_pow]

theorem statusWord_state (g : Regs) : (statusWord g).extractLsb' 0 2 = BitVec.ofNat 2 (facadeCode g.state) := by
  have hs := facadeCode_lt g.state
  rw [statusWord_field]
  apply BitVec.eq_of_toNat_eq
  simp only [BitVec.toNat_ofNat]
  omega

theorem statusWord_product (g : Regs) : (statusWord g).extractLsb' 2 2 = BitVec.ofNat 2 (productCode g.product) := by
  have hs := facadeCode_lt g.state
  have hp := productCode_lt g.product
  rw [statusWord_field]
  apply BitVec.eq_of_toNat_eq
  simp only [BitVec.toNat_ofNat]
  omega

theorem statusWord_err (g : Regs) : (statusWord g).extractLsb' 8 8 = BitVec.ofNat 8 (errCode g.err) := by
  have hs := facadeCode_lt g.state
  have hp := productCode_lt g.product
  rw [statusWord_field]
  apply BitVec.eq_of_toNat_eq
  simp only [BitVec.toNat_ofNat]
  omega

/-- The bits of STATUS between PRODUCT and ERR and those above ERR read zero (R23). -/
theorem statusWord_reserved (g : Regs) :
    (statusWord g).extractLsb' 4 4 = 0 ∧ (statusWord g).extractLsb' 16 16 = 0 := by
  have hs := facadeCode_lt g.state
  have hp := productCode_lt g.product
  have he := errCode_lt g.err
  constructor <;>
  · rw [statusWord_field]
    apply BitVec.eq_of_toNat_eq
    simp only [BitVec.toNat_ofNat, BitVec.reduceToNat]
    omega

theorem flagsWord_fields (g : Regs) : (flagsWord g).getLsbD 0 = g.empty ∧ (flagsWord g).extractLsb' 1 31 = 0 := by
  unfold flagsWord
  cases g.empty <;> decide

theorem readReg_blank_fields (g : Regs) :
    (readReg .blank g).extractLsb' 0 8 = g.blank ∧ (readReg .blank g).extractLsb' 8 24 = 0 := by
  have hlt := g.blank.isLt
  have hread : (readReg .blank g).toNat = g.blank.toNat := by
    simp only [readReg, BitVec.truncate_eq_setWidth, BitVec.toNat_setWidth]
    omega
  constructor <;>
  · apply BitVec.eq_of_toNat_eq
    simp only [BitVec.extractLsb'_toNat, hread, Nat.shiftRight_eq_div_pow, BitVec.reduceToNat]
    omega

end Sys2Proof.Machine

open Sys2Proof Sys2Proof.Machine

/-- Settles O5: the event at CMD is `runWord`, acknowledged. -/
theorem stepRunsDecodedCommand : Obligations.StepRunsDecodedCommand := by
  intro s rest w i hinbox hdec
  rw [step_serve hinbox, serve_commandEvent, runWord_command hdec]
  cases exec i { s with inbox := rest } <;> rfl

/-- Settles O7: every register but ID is stored as zero. -/
theorem resetValues : Obligations.ResetValues := by
  refine ⟨rfl, rfl, rfl, fun r hr => ?_, fun _ => rfl⟩
  cases r
  case id => exact absurd rfl hr
  all_goals rfl

/-- Settles O15: the write is served by `writeReg`. -/
theorem registerWriteThenRead : Obligations.RegisterWriteThenRead := by
  intro s a d r rest hat hrw hinbox
  refine ⟨{ s with reg := writeReg r d s.reg, inbox := rest, answer := some ⟨.okay, 0⟩ }, ?_, rfl, rfl, rfl,
    readReg_writeReg_same hrw d s.reg, fun q hq => readReg_writeReg_other hq d s.reg⟩
  rw [step_serve hinbox, serve_write32_reg hat, serveRegWrite_rw hrw]
  rfl

/-- Settles O16, field by field from the codes' bounds. -/
theorem statusAndFlagsFields : Obligations.StatusAndFlagsFields := by
  intro g
  obtain ⟨hres, hres'⟩ := statusWord_reserved g
  obtain ⟨hempty, hflags⟩ := flagsWord_fields g
  obtain ⟨hblank, hblank'⟩ := readReg_blank_fields g
  refine ⟨?_, ?_, hres, ?_, hres', hempty, hflags, rfl, rfl, rfl, rfl, hblank, hblank'⟩
  · rw [statusWord_state]
    cases g.state <;> rfl
  · rw [statusWord_product]
    cases g.product <;> rfl
  · rw [statusWord_err]
    cases g.err <;> rfl

/-- Settles O55: after reset the facade is Closed, every register is zero and no byte has a value. -/
theorem resetMeetsInvariant : Obligations.ResetMeetsInvariant where
  memCanonical := rfl
  memMapped := nofun
  notOpening := nofun
  openProduct := nofun
  closedImage _ := ⟨rfl, rfl, rfl, rfl, rfl⟩
  framesFit := by decide
  imageIsFrames := by decide
  errWritten := by decide
  frameRange := by decide
  subRange := by decide
  diskRowFits := by decide

/-- Settles O57, the map of R20 and R61. -/
theorem registerMap : Obligations.RegisterMap := by
  refine ⟨by decide, fun _ => regAt_isSome_iff, fun a => ?_, fun g => ?_, fun d g => ?_⟩
  · simp only [covers_iff, base_cb, size_cb, base_pal, size_pal, base_cbuf, size_cbuf, base_blk, size_blk, base_tile,
      size_tile, Config.cbBase, Config.cbSize, Config.palBase, Config.palSize, Config.cbufBase, Config.cbufSize,
      Config.blkBase, Config.blkSize, Config.tileBase, Config.tileCap]
    omega
  · simp only [readReg, and_self]
  · have hblank : d.setWidth 8 = d.extractLsb' 0 8 := BitVec.setWidth_eq_extractLsb' (by decide)
    simp only [writeReg, hblank, and_self]

/-- Settles O58: each offset of R20 is its register's, so the bus answers that register and writes that register. -/
theorem registerOffsetsAtTheBus : Obligations.RegisterOffsetsAtTheBus := by
  intro s d rest
  constructor
  · intro p hp hinbox
    change p ∈ List.map (fun r => (BitVec.ofNat 32 (regOffset r), readReg r s.reg))
      [.handle, .rectX0, .rectY0, .rectW, .rectH, .curFr, .curFc, .curSr, .curSc, .imgW, .imgH, .framesH, .framesV, .irX0,
        .irY0, .irW, .irH, .fr0, .fr1, .fc0, .fc1, .sr0, .sr1, .sc0, .sc1, .diskRow, .fopenCnt, .id, .cmd, .status,
        .flags, .blank] at hp
    obtain ⟨r, -, rfl⟩ := List.mem_map.1 hp
    rw [step_serve hinbox, serve_read32_reg (regAt_offsetWord r)]
    rfl
  · intro p hp hinbox
    change p ∈ List.map (fun r => (BitVec.ofNat 32 (regOffset r), writeReg r d s.reg))
      [.handle, .blank, .rectX0, .rectY0, .rectW, .rectH, .curFr, .curFc, .curSr, .curSc] at hp
    obtain ⟨r, hr, rfl⟩ := List.mem_map.1 hp
    have hrw : ∀ r ∈ [.handle, .blank, .rectX0, .rectY0, .rectW, .rectH, .curFr, .curFc, .curSr, .curSc],
        regAccess r = .rw := by decide
    rw [step_serve hinbox, serve_write32_reg (regAt_offsetWord r), serveRegWrite_rw (hrw r hr)]
    rfl
end

