-- ==== Sys2Proof/Proofs/CoveredCells.lean ====
section
/-! SUPPORT. Which frames FRANGE finds and which sub-frames SRANGE finds (41_compositor.md R131 to R136): those that hold a
pixel of the rectangle and the image. Columns and rows are independent, so the facts are about one coordinate. -/

namespace Sys2Proof.Machine

/-! ### One coordinate -/

/-- The cells of side `d` from that of `lo` to that of `hi` are the cells that hold a coordinate from `lo` to `hi` (R133). -/
theorem cell_touched_iff {lo hi d : Int} (hd : 0 < d) (hle : lo ≤ hi) (k : Int) :
    lo / d ≤ k ∧ k ≤ hi / d ↔ ∃ v, (lo ≤ v ∧ v ≤ hi) ∧ k * d ≤ v ∧ v < (k + 1) * d := by
  rw [← Int.lt_add_one_iff, Int.ediv_lt_iff_lt_mul hd, Int.le_ediv_iff_mul_le hd]
  have hnext : (k + 1) * d = k * d + d := by rw [Int.add_mul, Int.one_mul]
  constructor
  · rintro ⟨hlo, hhi⟩
    exact ⟨max lo (k * d), by omega, by omega, by omega⟩
  · rintro ⟨v, hv, hlo, hhi⟩
    omega

/-- A frame that starts at `start` holds a coordinate from `lo` to `hi`. -/
def Meets (lo hi : Int) (start : Nat) : Prop := max lo start ≤ min hi (start + 1535)

theorem meets_iff {lo hi : Int} {start : Nat} (hle : lo ≤ hi) :
    Meets lo hi start ↔ ∃ v, (lo ≤ v ∧ v ≤ hi) ∧ (start : Int) ≤ v ∧ v < start + 1536 := by
  unfold Meets
  constructor
  · intro h
    exact ⟨max lo start, by omega, by omega, by omega⟩
  · rintro ⟨v, hv, hlo, hhi⟩
    omega

/-- The first and the last sub-frame that such a frame shares with the coordinates are two of its six, in order (R136). -/
theorem Meets.subs {lo hi : Int} {start : Nat} (h : Meets lo hi start) :
    firstSub lo start ≤ lastSub hi start ∧ lastSub hi start ≤ 5 ∧
    (firstSub lo start : Int) = (max lo start - start) / 256 ∧
    (lastSub hi start : Int) = (min hi (start + 1535) - start) / 256 := by
  unfold Meets at h
  simp only [firstSub, lastSub]
  omega

/-- The sub-frames between them are those of the frame that hold a coordinate from `lo` to `hi`. -/
theorem Meets.sub_touched_iff {lo hi : Int} {start : Nat} (h : Meets lo hi start) (k : Nat) :
    firstSub lo start ≤ k ∧ k ≤ lastSub hi start ↔
      k < 6 ∧ ∃ v, (lo ≤ v ∧ v ≤ hi) ∧ (start : Int) + k * 256 ≤ v ∧ v < start + (k + 1) * 256 := by
  obtain ⟨-, hfive, hfirst, hlast⟩ := h.subs
  have hcells := cell_touched_iff (lo := max lo start - start) (hi := min hi (start + 1535) - start) (d := 256)
    (by decide) (by unfold Meets at h; omega) k
  rw [← hfirst, ← hlast] at hcells
  constructor
  · rintro ⟨hk, hk'⟩
    obtain ⟨v, hv, hlo, hhi⟩ := hcells.1 ⟨Int.ofNat_le.2 hk, Int.ofNat_le.2 hk'⟩
    clear hcells
    exact ⟨hk'.trans_lt (Nat.lt_succ_of_le hfive), v + start, by omega, by omega, by omega⟩
  · rintro ⟨hk, v, hv, hlo, hhi⟩
    have hlocal : (max lo start - start ≤ v - start ∧ v - start ≤ min hi (start + 1535) - start) ∧
        (k : Int) * 256 ≤ v - start ∧ v - start < (k + 1) * 256 := by
      clear hcells
      omega
    obtain ⟨hk, hk'⟩ := hcells.2 ⟨_, hlocal⟩
    exact ⟨Int.ofNat_le.1 hk, Int.ofNat_le.1 hk'⟩

/-! ### The clip rectangle -/

/-- The pixels of the rectangle and the image are those of the clip rectangle (R131). -/
theorem requested_iff {g : Regs} {x y : Int} : Requested g x y ↔
    ((clip g).x0 ≤ x ∧ x ≤ (clip g).x1) ∧ ((clip g).y0 ≤ y ∧ y ≤ (clip g).y1) := by
  simp only [Requested, clip]
  omega

/-- A clip rectangle that is not empty lies in the image. -/
theorem clip_covered {g : Regs} (h : ¬ emptyOfImage g = true) :
    0 ≤ (clip g).x0 ∧ (clip g).x0 ≤ (clip g).x1 ∧ (clip g).x1 < u32 g.imgW ∧
    0 ≤ (clip g).y0 ∧ (clip g).y0 ≤ (clip g).y1 ∧ (clip g).y1 < u32 g.imgH := by
  rw [emptyOfImage_iff] at h
  simp only [clip] at h ⊢
  omega

/-- EMPTY, as FRANGE sets it, says that there is no shared pixel (10_state.md R27). -/
theorem emptyOfImage_iff_no_pixel {g : Regs} : emptyOfImage g = true ↔ ¬ ∃ x y, Requested g x y := by
  constructor
  · rintro h ⟨x, y, hxy⟩
    obtain ⟨hx, hy⟩ := requested_iff.1 hxy
    rw [emptyOfImage_iff] at h
    omega
  · intro h
    by_contra hne
    obtain ⟨-, hx, -, -, hy, -⟩ := clip_covered hne
    exact h ⟨_, _, requested_iff.2 ⟨⟨le_refl _, hx⟩, le_refl _, hy⟩⟩

/-- A frame holds a shared pixel when it meets the columns and the rows of the clip rectangle. -/
theorem frame_pixel_iff {g : Regs} (h : ¬ emptyOfImage g = true) {fr fc : Nat} :
    (∃ x y, Requested g x y ∧ InFrame fr fc x y) ↔
      Meets (clip g).x0 (clip g).x1 (fc * 1536) ∧ Meets (clip g).y0 (clip g).y1 (fr * 1536) := by
  obtain ⟨-, hx, -, -, hy, -⟩ := clip_covered h
  rw [meets_iff hx, meets_iff hy]
  constructor
  · rintro ⟨x, y, hxy, hl, hr, ht, hb⟩
    obtain ⟨hcx, hcy⟩ := requested_iff.1 hxy
    exact ⟨⟨x, hcx, by omega, by omega⟩, ⟨y, hcy, by omega, by omega⟩⟩
  · rintro ⟨⟨x, hcx, hl, hr⟩, ⟨y, hcy, ht, hb⟩⟩
    exact ⟨x, y, requested_iff.2 ⟨hcx, hcy⟩, by omega, by omega, by omega, by omega⟩

/-- The frame rows or columns from that of `lo` to that of `hi` are those whose frames meet them (R132). -/
theorem frame_meets_iff {lo hi : Int} (hle : lo ≤ hi) {k : Nat} :
    lo / 1536 ≤ k ∧ k ≤ hi / 1536 ↔ Meets lo hi (k * 1536) := by
  rw [cell_touched_iff (by decide) hle, meets_iff hle]
  push_cast
  simp only [Int.add_mul, Int.one_mul]

/-! ### FRANGE -/

theorem u32_lt (w : Word) : u32 w < 4294967296 := w.isLt

theorem exec_frange {s : State} (h : s.reg.state = .opened) : exec .frange s = .next (done (frangeBody s)) := by
  change conclude (runFrange s) = _
  rw [runFrange, whenOpen_opened h]
  rfl

/-- The values of FR0..FC1 after FRANGE found a shared pixel (R132). -/
theorem frangeRegs_values {g : Regs} (h : ¬ emptyOfImage g = true) :
    (u32 (frangeRegs g).fr0 : Int) = (clip g).y0 / 1536 ∧ (u32 (frangeRegs g).fr1 : Int) = (clip g).y1 / 1536 ∧
    (u32 (frangeRegs g).fc0 : Int) = (clip g).x0 / 1536 ∧ (u32 (frangeRegs g).fc1 : Int) = (clip g).x1 / 1536 := by
  obtain ⟨hx0, hx, hx1, hy0, hy, hy1⟩ := clip_covered h
  have hw := u32_lt g.imgW
  have hh := u32_lt g.imgH
  rw [frangeRegs_covered h]
  exact ⟨u32_wordOf (by omega) (by omega), u32_wordOf (by omega) (by omega), u32_wordOf (by omega) (by omega),
    u32_wordOf (by omega) (by omega)⟩

theorem frangeRegs_empty_eq (g : Regs) : (frangeRegs g).empty = emptyOfImage g := by
  by_cases h : emptyOfImage g = true
  · rw [frangeRegs_empty h, h]
  · rw [frangeRegs_covered h, Bool.eq_false_of_not_eq_true h]

/-! ### SRANGE -/

theorem exec_srange {s : State} (h : s.reg.state = .opened) (hg : frameInGrid s.reg = true) :
    exec .srange s = .next (done (srangeBody s)) := by
  change conclude (runSrange s) = _
  rw [runSrange, whenOpen_opened h, if_pos hg]
  rfl

/-- SRANGE writes its seven results and no other register (R136). -/
theorem srangeRegs_frame (g : Regs) : srangeRegs g = { g with
    empty := (srangeRegs g).empty
    sr0 := (srangeRegs g).sr0, sr1 := (srangeRegs g).sr1, sc0 := (srangeRegs g).sc0, sc1 := (srangeRegs g).sc1
    diskRow := (srangeRegs g).diskRow } := by
  unfold srangeRegs
  split <;> rfl

theorem srangeRegs_empty_eq (g : Regs) : (srangeRegs g).empty = emptyOfFrame g := by
  by_cases h : emptyOfFrame g = true
  · rw [srangeRegs_empty h, h]
  · rw [srangeRegs_covered h, Bool.eq_false_of_not_eq_true h]

/-- The inverted row of a frame of the grid, stored whole (R134). -/
theorem srangeRegs_diskRow {g : Regs} (h : u32 g.curFr < u32 g.framesV) :
    u32 (srangeRegs g).diskRow = u32 g.framesV - 1 - u32 g.curFr := by
  have hrow : (srangeRegs g).diskRow = wordOf (diskRowOf g) := by
    unfold srangeRegs
    split <;> rfl
  have hv := u32_lt g.framesV
  have hval := u32_wordOf (v := diskRowOf g) (by simp only [diskRowOf]; omega) (by simp only [diskRowOf]; omega)
  rw [hrow]
  simp only [diskRowOf] at hval ⊢
  omega

/-- SRANGE finds a shared pixel when the clip rectangle is not empty and the frame of the cursor meets it. -/
theorem not_emptyOfFrame_iff {g : Regs} : ¬ emptyOfFrame g = true ↔ ¬ emptyOfImage g = true ∧
    Meets (clip g).x0 (clip g).x1 (u32 g.curFc * 1536) ∧ Meets (clip g).y0 (clip g).y1 (u32 g.curFr * 1536) := by
  simp only [emptyOfFrame_iff, emptyOfImage_iff, frameSpan, clipToFrame, Config.frameDim, Meets]
  push_cast
  omega

/-- EMPTY, as SRANGE sets it, says that rectangle, image and frame share no pixel (10_state.md R27). -/
theorem emptyOfFrame_iff_no_pixel {g : Regs} :
    emptyOfFrame g = true ↔ ¬ ∃ x y, Requested g x y ∧ InFrame (u32 g.curFr) (u32 g.curFc) x y := by
  rw [← not_iff_not, not_not, not_emptyOfFrame_iff]
  by_cases h : emptyOfImage g = true
  · have hnone := emptyOfImage_iff_no_pixel.1 h
    exact ⟨fun hne => absurd h hne.1, fun ⟨x, y, hxy, _⟩ => absurd ⟨x, y, hxy⟩ hnone⟩
  · rw [frame_pixel_iff h]
    exact ⟨And.right, fun hm => ⟨h, hm⟩⟩

/-- The values of SR0..SC1 after SRANGE found a shared pixel (R136). -/
theorem srangeRegs_values {g : Regs} (h : ¬ emptyOfFrame g = true) :
    u32 (srangeRegs g).sr0 = firstSub (clip g).y0 (u32 g.curFr * 1536) ∧
    u32 (srangeRegs g).sr1 = lastSub (clip g).y1 (u32 g.curFr * 1536) ∧
    u32 (srangeRegs g).sc0 = firstSub (clip g).x0 (u32 g.curFc * 1536) ∧
    u32 (srangeRegs g).sc1 = lastSub (clip g).x1 (u32 g.curFc * 1536) := by
  obtain ⟨-, hmx, hmy⟩ := not_emptyOfFrame_iff.1 h
  obtain ⟨hx, hx5, hfx, hlx⟩ := hmx.subs
  obtain ⟨hy, hy5, hfy, hly⟩ := hmy.subs
  have hstore (k : Nat) (v : Int) (hv : (k : Int) = v) (h5 : k ≤ 5) : u32 (wordOf v) = k := by
    have := u32_wordOf (v := v) (by omega) (by omega)
    omega
  rw [srangeRegs_covered h]
  simp only [localRow, localCol, frameSpan, clipToFrame, Config.frameDim]
  push_cast at *
  exact ⟨hstore _ _ hfy (by omega), hstore _ _ hly (by omega), hstore _ _ hfx (by omega), hstore _ _ hlx (by omega)⟩

/-- A sub-frame of a frame that meets the clip rectangle holds a shared pixel when its row and its column do. -/
theorem cell_pixel_iff {g : Regs} {fr fc : Nat} (hx : Meets (clip g).x0 (clip g).x1 (fc * 1536))
    (hy : Meets (clip g).y0 (clip g).y1 (fr * 1536)) (sr sc : Nat) :
    (firstSub (clip g).y0 (fr * 1536) ≤ sr ∧ sr ≤ lastSub (clip g).y1 (fr * 1536)) ∧
      (firstSub (clip g).x0 (fc * 1536) ≤ sc ∧ sc ≤ lastSub (clip g).x1 (fc * 1536)) ↔
    sr < 6 ∧ sc < 6 ∧ ∃ x y, Requested g x y ∧ InCell fr fc sr sc x y := by
  rw [hx.sub_touched_iff, hy.sub_touched_iff]
  push_cast
  constructor
  · rintro ⟨⟨hsr, y, hcy, ht, hb⟩, ⟨hsc, x, hcx, hl, hr⟩⟩
    exact ⟨hsr, hsc, x, y, requested_iff.2 ⟨hcx, hcy⟩, hl, hr, ht, hb⟩
  · rintro ⟨hsr, hsc, x, y, hxy, hl, hr, ht, hb⟩
    obtain ⟨hcx, hcy⟩ := requested_iff.1 hxy
    exact ⟨⟨hsr, y, hcy, ht, hb⟩, hsc, x, hcx, hl, hr⟩

end Sys2Proof.Machine

open Sys2Proof Sys2Proof.Machine

/-- Settles O24: a frame is in the range exactly when it meets the clip rectangle. -/
theorem frangeCoversExactlyTheFrames : Obligations.FrangeCoversExactlyTheFrames := by
  intro s hopen
  refine ⟨_, exec_frange hopen, ?_, fun hfull fr fc => ?_⟩
  · exact (frangeRegs_empty_eq s.reg) ▸ emptyOfImage_iff_no_pixel
  · have hne : ¬ emptyOfImage s.reg = true := by
      rw [← frangeRegs_empty_eq]
      exact Bool.eq_false_iff.1 hfull
    obtain ⟨hfr0, hfr1, hfc0, hfc1⟩ := frangeRegs_values hne
    obtain ⟨-, hx, -, -, hy, -⟩ := clip_covered hne
    rw [frame_pixel_iff hne, ← frame_meets_iff hx, ← frame_meets_iff hy, ← hfr0, ← hfr1, ← hfc0, ← hfc1]
    simp only [done_reg, frangeBody_reg]
    omega

/-- Settles O25: the row is inverted in the grid, and a sub-frame is in the range exactly when its row and its column meet
the clip rectangle. -/
theorem srangeCoversExactlyTheSubframes : Obligations.SrangeCoversExactlyTheSubframes := by
  intro s hopen hfr hfc
  have hempty : (done (srangeBody s)).reg.empty = emptyOfFrame s.reg := srangeRegs_empty_eq s.reg
  refine ⟨_, exec_srange hopen (frameInGrid_iff.2 ⟨hfr, hfc⟩), ?_, srangeRegs_diskRow hfr, ?_, fun he => ?_, fun hfull sr sc => ?_⟩
  · simp only [done, srangeBody]
    rw [srangeRegs_frame s.reg]
  · rw [hempty]
    exact emptyOfFrame_iff_no_pixel
  · rw [hempty] at he
    simp only [done_reg, srangeBody_reg, srangeRegs_empty he, and_self]
  · have hne : ¬ emptyOfFrame s.reg = true := by
      rw [← hempty]
      exact Bool.eq_false_iff.1 hfull
    obtain ⟨hsr0, hsr1, hsc0, hsc1⟩ := srangeRegs_values hne
    obtain ⟨-, hx, hy⟩ := not_emptyOfFrame_iff.1 hne
    rw [← cell_pixel_iff hx hy, ← hsr0, ← hsr1, ← hsc0, ← hsc1, and_assoc]
    rfl
end

