-- ==== Sys2Proof/Proofs/CommandEffects.lean ====
section
/-! SUPPORT. What each command can have done: its acts, ended or stopped (log entry 7), and how it can end, case by case
(60_exceptions.md R204, R206). -/

namespace Sys2Proof.Machine

/-! ### Offsets of the five memories (20_memory.md R61) -/

theorem isMemory_of_covers {sp : Space} {a : Nat} (h : sp.covers a = true) : isMemory a = true := by
  cases sp <;> simp [isMemory, h]

theorem InPlanes.isMemory {n a : Nat} (hn : n ≤ 3) (h : InPlanes n a) : isMemory a = true := by
  obtain ⟨hlo, hhi⟩ := h
  refine isMemory_of_covers (sp := .blk) (covers_iff.2 ⟨hlo, ?_⟩)
  simp only [base_blk, size_blk, Config.blkBase, Config.blkSize] at hhi ⊢
  omega

/-- The bytes of a tile that fits are bytes of TILE (R71). -/
theorem tile_isMemory {n a : Nat} {s : State} (hfits : TileFits n s)
    (h : Config.tileBase ≤ a ∧ a < Config.tileBase + tileBytes s.reg n) : isMemory a = true := by
  obtain ⟨hlo, hhi⟩ := h
  refine isMemory_of_covers (sp := .tile) (covers_iff.2 ⟨hlo, ?_⟩)
  simp only [TileFits] at hfits
  simp only [tileBytes] at hhi
  simp only [base_tile, size_tile]
  omega

theorem InScratchOrTile.isMemory {n a : Nat} {s : State} (hn : n ≤ 3) (hfits : TileFits n s)
    (h : InScratchOrTile n s.reg a) : isMemory a = true := by
  obtain (hcb | ⟨hpal, -⟩) | hcbuf | hblk | htile := h
  · exact isMemory_of_covers hcb
  · exact isMemory_of_covers hpal
  · exact isMemory_of_covers hcbuf
  · exact hblk.isMemory hn
  · exact tile_isMemory hfits htile

theorem bands_le {p : ProductType} {n : Nat} (h : bands p = some n) : n ≤ 3 := by
  have := bands_cases h
  omega

/-! ### The acts of a command -/

/-- A command only acts: it writes bytes of the five memories and issues requests, and all of it is on record. -/
abbrev Acts : State → State → Prop := Effect (fun a => isMemory a = true) (fun _ => True)

theorem Acts.of_quiet {P : Nat → Prop} {s t : State} (h : Quiet P s t) (hP : ∀ a, P a → isMemory a = true) : Acts s t :=
  h.1.mono hP (fun _ _ => trivial)

theorem Acts.trans (s t u : State) (h1 : Acts s t) (h2 : Acts t u) : Acts s u := Effect.trans h1 h2

theorem raiseErr_acts (e : ErrCode) (s : State) : Acts s (raiseErr e s) := Effect.of_reg _ rfl

theorem done_acts (s : State) : Acts s (done s) := Effect.of_reg _ rfl

theorem whenOpen_acts {s : State} {body : State → Run State} (h : Leads Acts s (body s)) :
    Leads Acts s (whenOpen s body) := by
  by_cases ho : s.reg.state = .opened
  · rw [whenOpen_opened ho]
    exact h
  · rw [whenOpen_other ho]
    exact Leads.ok (raiseErr_acts ..)

theorem whenOpen_ok_acts {s : State} {f : State → State} (h : Acts s (f s)) :
    Leads Acts s (whenOpen s fun s => .ok (f s)) := whenOpen_acts (Leads.ok h)

theorem withBands_acts {s : State} {body : Nat → Run State} (h : ∀ n ≤ 3, Leads Acts s (body n)) :
    Leads Acts s (withBands s body) := by
  unfold withBands
  split
  case h_1 n hn => exact h n (bands_le hn)
  case h_2 => exact Leads.error (Effect.refl _ _ s)

theorem whenFits_acts {n : Nat} {s : State} {body : State → Run State} (h : TileFits n s → Leads Acts s (body s)) :
    Leads Acts s (whenFits n s body) := by
  unfold whenFits
  split
  case isTrue => exact Leads.ok (raiseErr_acts ..)
  case isFalse hfits => exact h (Nat.not_lt.1 hfits)

theorem bind_done_acts {s : State} {r : Run State} (h : Leads Acts s r) :
    Leads Acts s (r >>= fun t => .ok (done t)) :=
  Leads.bind Acts.trans h (fun t _ => Leads.ok (done_acts t))

theorem settleOpen_acts (r : CatAnswer) (s : State) : Acts s (settleOpen r s) := by
  unfold settleOpen
  split <;> exact Effect.of_reg _ rfl

theorem done_reg_acts (g : Regs) (s : State) : Acts s (done { s with reg := g }) :=
  Effect.of_reg { g with err := .ok } rfl

theorem runOpen_acts (s : State) : Leads Acts s (runOpen s) := by
  unfold runOpen
  split
  · exact Leads.ok (raiseErr_acts ..)
  · have hopening : Acts s { s with reg := { s.reg with state := .opening } } := Effect.of_reg _ rfl
    exact Leads.after Acts.trans hopening (Leads.request (catLookup_asks ..) (note_effect _ _ trivial) Acts.trans
      fun r => Leads.ok (settleOpen_acts r _))

theorem runGetTile_acts (level : Nat) (s : State) : Leads Acts s (runGetTile level s) := by
  unfold runGetTile
  refine whenOpen_acts ?_
  split
  · exact Leads.ok (raiseErr_acts ..)
  · refine withBands_acts fun n hn => whenFits_acts fun hfits => bind_done_acts ?_
    have hacts {t : State} (h : Visits n s.reg s t) : Acts s t :=
      (h (TileRegs.refl _)).1.mono (fun a ha => ha.isMemory hn hfits) (fun _ _ => trivial)
    obtain ⟨hok, herr⟩ := getTileBody_visits n (hn.trans (by decide)) s
    exact ⟨fun t ht => hacts (hok t ht), fun e he => hacts (herr e he)⟩

theorem runDecode_acts (s : State) : Leads Acts s (runDecode s) := by
  unfold runDecode
  refine whenOpen_acts (withBands_acts fun n hn => bind_done_acts ?_)
  exact (decodeBody_quiet n s).mono fun u t h => Acts.of_quiet h fun a ha => ha.isMemory hn

theorem runSrange_acts (s : State) : Leads Acts s (runSrange s) := by
  unfold runSrange
  refine whenOpen_acts ?_
  split
  · exact Leads.ok (done_reg_acts ..)
  · exact Leads.ok (raiseErr_acts ..)

theorem runTfill_acts (s : State) : Leads Acts s (runTfill s) := by
  unfold runTfill
  refine whenOpen_acts (withBands_acts fun n hn => whenFits_acts fun hfits => Leads.ok ?_)
  have hfill := (tfillBody_fills n s).sets.1.quiet
  exact Acts.trans _ _ _ (Acts.of_quiet hfill fun a ha => tile_isMemory hfits ha) (done_acts _)

theorem runBlkcopy_acts (s : State) : Leads Acts s (runBlkcopy s) := by
  unfold runBlkcopy
  refine whenOpen_acts ?_
  split
  · refine withBands_acts fun n hn => whenFits_acts fun hfits => bind_done_acts ?_
    obtain ⟨hok, herr⟩ := blkcopyBody_quiet n s
    have hacts {t : State} (h : Quiet (InCopy n s.reg) s t) : Acts s t :=
      Acts.of_quiet h fun a ha => tile_isMemory hfits ha.inTile
    exact ⟨fun t ht => hacts (hok t ht), fun e he => hacts (herr e he)⟩
  · exact Leads.ok (raiseErr_acts ..)

/-- Every command, ended or stopped, only acted. -/
theorem runInstr_acts (i : Instr) (s : State) : Leads Acts s (runInstr i s) := by
  cases i with
  | openSource => exact runOpen_acts s
  | closeSource => exact whenOpen_ok_acts (f := fun s => done { s with reg := closedRegs s.reg }) (done_reg_acts _ s)
  | getTile level => exact runGetTile_acts level s
  | getImageRect => exact whenOpen_ok_acts (f := fun s => done { s with reg := imageRectRegs s.reg }) (done_reg_acts _ s)
  | decode => exact runDecode_acts s
  | frange => exact whenOpen_ok_acts (f := fun s => done (frangeBody s)) (done_reg_acts _ s)
  | srange => exact runSrange_acts s
  | tfill => exact runTfill_acts s
  | blkcopy => exact runBlkcopy_acts s

theorem exec_acts {i : Instr} {s t : State} (h : exec i s = .next t) : Acts s t := by
  rw [exec_eq] at h
  exact (runInstr_acts i s).1 t (conclude_eq_next h)

/-! ### How a command ends -/

/-- What a command that passes its checks does from `s` to `t` (R204, R206). -/
def Completes (i : Instr) (s t : State) : Prop :=
  match i with
  | .openSource => t = settleOpen (s.env.lookup.answer s.reg.handle)
      (note (.catLookup s.reg.handle) { s with reg := { s.reg with state := .opening } })
  | .closeSource => t = done { s with reg := closedRegs s.reg }
  | .getTile _ => ∃ n u, bands s.reg.product = some n ∧ getTileBody n s = .ok u ∧ t = done u
  | .getImageRect => t = done { s with reg := imageRectRegs s.reg }
  | .decode => ∃ n u, decodeBody n s = .ok u ∧ t = done u
  | .frange => t = done (frangeBody s)
  | .srange => frameInGrid s.reg = true ∧ t = done (srangeBody s)
  | .tfill => ∃ n, t = done (tfillBody n s)
  | .blkcopy => ∃ n u, blkcopyBody n s = .ok u ∧ t = done u

/-- A command error and no other effect; codes 3 and 4 are never raised (R203, R204). -/
def Fails (s t : State) : Prop := ∃ e, e ≠ .frameUnavail ∧ e ≠ .corrupt ∧ t = raiseErr e s

theorem raiseErr_fails {e : ErrCode} (s : State) (h : e ≠ .frameUnavail ∧ e ≠ .corrupt) : Fails s (raiseErr e s) :=
  ⟨e, h.1, h.2, rfl⟩

theorem whenOpen_ends {s t : State} {body : State → Run State} (h : whenOpen s body = .ok t) :
    Fails s t ∨ body s = .ok t := by
  obtain rfl | h := whenOpen_eq_ok h
  · exact .inl (raiseErr_fails s (by decide))
  · exact .inr h

theorem whenFits_ends {n : Nat} {s t : State} {body : State → Run State} (h : whenFits n s body = .ok t) :
    Fails s t ∨ body s = .ok t := by
  obtain rfl | h := whenFits_eq_ok h
  · exact .inl (raiseErr_fails s (by decide))
  · exact .inr h

/-- A catalog lookup that is answered. -/
theorem catLookup_eq_ok {h : Word} {s : State} {p : State × CatAnswer} (hp : catLookup h s = .ok p) :
    p = (note (.catLookup h) s, s.env.lookup.answer h) := by
  by_cases hs : .catLookup h ∈ s.env.silent
  · rw [catLookup, await_silent hs] at hp
    cases hp
  · rw [catLookup_ok hs] at hp
    exact (Except.ok.inj hp).symm

/-- A sequence that ends: its first part ended, and what follows ended from there. -/
theorem bind_eq_ok {ε α β : Type} {r : Except ε α} {f : α → Except ε β} {b : β} (h : r >>= f = .ok b) :
    ∃ a, r = .ok a ∧ f a = .ok b := by
  cases r with
  | ok a => exact ⟨a, rfl, h⟩
  | error e => cases h

theorem runOpen_ends {s t : State} (h : runOpen s = .ok t) : Fails s t ∨ Completes .openSource s t := by
  unfold runOpen at h
  split at h
  · cases h
    exact .inl (raiseErr_fails s (by decide))
  · obtain ⟨p, hp, h⟩ := bind_eq_ok h
    rw [catLookup_eq_ok hp] at h
    exact .inr (Except.ok.inj h).symm

theorem runGetTile_ends {level : Nat} {s t : State} (h : runGetTile level s = .ok t) :
    Fails s t ∨ Completes (.getTile level) s t := by
  obtain h | h := whenOpen_ends h
  · exact .inl h
  split at h
  · cases h
    exact .inl (raiseErr_fails s (by decide))
  obtain ⟨n, hn, h⟩ := withBands_eq_ok h
  obtain h | h := whenFits_ends h
  · exact .inl h
  · obtain ⟨u, hu, ht⟩ := bind_done_eq_ok h
    exact .inr ⟨n, u, hn, hu, ht⟩

theorem runDecode_ends {s t : State} (h : runDecode s = .ok t) : Fails s t ∨ Completes .decode s t := by
  obtain h | h := whenOpen_ends h
  · exact .inl h
  obtain ⟨n, -, h⟩ := withBands_eq_ok h
  exact .inr ⟨n, bind_done_eq_ok h⟩

theorem runSrange_ends {s t : State} (h : runSrange s = .ok t) : Fails s t ∨ Completes .srange s t := by
  obtain h | h := whenOpen_ends h
  · exact .inl h
  split at h
  case isTrue hgrid => exact .inr ⟨hgrid, (Except.ok.inj h).symm⟩
  case isFalse =>
    cases h
    exact .inl (raiseErr_fails s (by decide))

theorem runTfill_ends {s t : State} (h : runTfill s = .ok t) : Fails s t ∨ Completes .tfill s t := by
  obtain h | h := whenOpen_ends h
  · exact .inl h
  obtain ⟨n, -, h⟩ := withBands_eq_ok h
  obtain h | h := whenFits_ends h
  · exact .inl h
  · exact .inr ⟨n, (Except.ok.inj h).symm⟩

theorem runBlkcopy_ends {s t : State} (h : runBlkcopy s = .ok t) : Fails s t ∨ Completes .blkcopy s t := by
  obtain h | h := whenOpen_ends h
  · exact .inl h
  split at h
  case isTrue =>
    obtain ⟨n, -, h⟩ := withBands_eq_ok h
    obtain h | h := whenFits_ends h
    · exact .inl h
    · exact .inr ⟨n, bind_done_eq_ok h⟩
  case isFalse =>
    cases h
    exact .inl (raiseErr_fails s (by decide))

/-- A command behind the state check alone. -/
theorem whenOpen_ok_ends {s t : State} {f : State → State} (h : whenOpen s (fun s => .ok (f s)) = .ok t) :
    Fails s t ∨ t = f s := by
  obtain h | h := whenOpen_ends h
  · exact .inl h
  · exact .inr (Except.ok.inj h).symm

/-- A command that ends took a command error, or passed its checks and did its own work. -/
theorem runInstr_ends {i : Instr} {s t : State} (h : runInstr i s = .ok t) : Fails s t ∨ Completes i s t := by
  cases i with
  | openSource => exact runOpen_ends h
  | closeSource => exact whenOpen_ok_ends (f := fun s => done { s with reg := closedRegs s.reg }) h
  | getTile level => exact runGetTile_ends h
  | getImageRect => exact whenOpen_ok_ends (f := fun s => done { s with reg := imageRectRegs s.reg }) h
  | decode => exact runDecode_ends h
  | frange => exact whenOpen_ok_ends (f := fun s => done (frangeBody s)) h
  | srange => exact runSrange_ends h
  | tfill => exact runTfill_ends h
  | blkcopy => exact runBlkcopy_ends h

theorem exec_ends {i : Instr} {s t : State} (h : exec i s = .next t) : Fails s t ∨ Completes i s t := by
  rw [exec_eq] at h
  exact runInstr_ends (conclude_eq_next h)

/-! ### The registers a command leaves alone -/

/-- The registers that only the host writes (10_state.md R28, R30, R31). -/
structure KeepsHostRegs (g h : Regs) : Prop where
  handle : h.handle = g.handle
  blank : h.blank = g.blank
  rectX0 : h.rectX0 = g.rectX0
  rectY0 : h.rectY0 = g.rectY0
  rectW : h.rectW = g.rectW
  rectH : h.rectH = g.rectH

/-- The facade, the product and the image (R24, R25, R33). -/
structure KeepsFacade (g h : Regs) : Prop where
  state : h.state = g.state
  product : h.product = g.product
  imgW : h.imgW = g.imgW
  imgH : h.imgH = g.imgH
  framesH : h.framesH = g.framesH
  framesV : h.framesV = g.framesV

/-- The results of GETIMAGERECT (R34). -/
structure KeepsImageRect (g h : Regs) : Prop where
  irX0 : h.irX0 = g.irX0
  irY0 : h.irY0 = g.irY0
  irW : h.irW = g.irW
  irH : h.irH = g.irH

theorem TileRegs.keepsHostRegs {g h : Regs} (hk : TileRegs g h) : KeepsHostRegs g h := by
  rw [hk]
  exact ⟨rfl, rfl, rfl, rfl, rfl, rfl⟩

theorem TileRegs.keepsFacade {g h : Regs} (hk : TileRegs g h) : KeepsFacade g h := by
  rw [hk]
  exact ⟨rfl, rfl, rfl, rfl, rfl, rfl⟩

theorem TileRegs.keepsImageRect {g h : Regs} (hk : TileRegs g h) : KeepsImageRect g h := by
  rw [hk]
  exact ⟨rfl, rfl, rfl, rfl⟩

/-- What OPEN makes of the registers: the facade closed with an error, or open on a product (42_facade.md R161). -/
theorem settleOpen_cases (r : CatAnswer) (s : State) :
    settleOpen r s = raiseErr .config { s with reg := closedRegs s.reg } ∨
    ∃ p, p ≠ .unknown ∧ settleOpen r s = done { s with reg := openRegs p r s.reg } := by
  unfold settleOpen
  split
  · exact .inl rfl
  · exact .inr ⟨.grayscale, by decide, rfl⟩
  · exact .inr ⟨.rgb, by decide, rfl⟩

/-- How the registers `g` stand after a command: with a command error; after an OPEN that was refused or that found a
product; after CLOSE; after GETIMAGERECT; or with registers of `get_tile` written and success (R27, R32 to R38). -/
inductive RegsAfter : Instr → Regs → Regs → Prop where
  | failed (i : Instr) (g : Regs) (e : ErrCode) : RegsAfter i g { g with err := e }
  | refused (g : Regs) : RegsAfter .openSource g { closedRegs g with err := .config }
  | found (g : Regs) (p : ProductType) (r : CatAnswer) : RegsAfter .openSource g { openRegs p r g with err := .ok }
  | closed (g : Regs) : RegsAfter .closeSource g { closedRegs g with err := .ok }
  | imageRect (g : Regs) : RegsAfter .getImageRect g { imageRectRegs g with err := .ok }
  | tile (i : Instr) {g k : Regs} (hk : TileRegs g k) : RegsAfter i g { k with err := .ok }

theorem Completes.regsAfter {i : Instr} {s t : State} (h : Completes i s t) : RegsAfter i s.reg t.reg := by
  cases i with
  | openSource =>
    obtain hset | ⟨p, -, hset⟩ := settleOpen_cases (s.env.lookup.answer s.reg.handle)
      (note (.catLookup s.reg.handle) { s with reg := { s.reg with state := .opening } })
    · rw [show t = _ from h, hset]
      exact .refused s.reg
    · rw [show t = _ from h, hset]
      exact .found s.reg p _
  | closeSource =>
    rw [show t = _ from h]
    exact .closed s.reg
  | getImageRect =>
    rw [show t = _ from h]
    exact .imageRect s.reg
  | getTile level =>
    obtain ⟨n, u, hn, hu, rfl⟩ := h
    have hvisits := (getTileBody_visits n ((bands_le hn).trans (by decide)) s).1 u hu
    exact .tile _ (hvisits (TileRegs.refl _)).2
  | decode =>
    obtain ⟨n, u, hu, rfl⟩ := h
    exact .tile _ (((decodeBody_quiet n s).1 u hu).2 ▸ TileRegs.refl _)
  | frange =>
    rw [show t = _ from h]
    exact .tile _ (TileRegs.frange _)
  | srange =>
    rw [h.2]
    exact .tile _ (TileRegs.srange _)
  | tfill =>
    obtain ⟨n, rfl⟩ := h
    exact .tile _ ((tfillBody_fills n s).sets.1.reg ▸ TileRegs.refl _)
  | blkcopy =>
    obtain ⟨n, u, hu, rfl⟩ := h
    exact .tile _ (((blkcopyBody_quiet n s).1 u hu).2 ▸ TileRegs.refl _)

theorem exec_regsAfter {i : Instr} {s t : State} (h : exec i s = .next t) : RegsAfter i s.reg t.reg := by
  obtain ⟨e, -, -, rfl⟩ | hdone := exec_ends h
  · exact .failed i s.reg e
  · exact hdone.regsAfter

/-- No command changes a register that only the host writes (R28, R30, R31). -/
theorem RegsAfter.keepsHostRegs {i : Instr} {g k : Regs} (h : RegsAfter i g k) : KeepsHostRegs g k := by
  cases h with
  | tile i hk => exact { hk.keepsHostRegs with }
  | _ => exact ⟨rfl, rfl, rfl, rfl, rfl, rfl⟩

/-- Only OPEN and CLOSE change the facade, the product and the image (R24, R25, R33). -/
theorem RegsAfter.keepsFacade {i : Instr} {g k : Regs} (h : RegsAfter i g k) (ho : i ≠ .openSource)
    (hc : i ≠ .closeSource) : KeepsFacade g k := by
  cases h with
  | refused | found => exact absurd rfl ho
  | closed => exact absurd rfl hc
  | tile i hk => exact { hk.keepsFacade with }
  | failed | imageRect => exact ⟨rfl, rfl, rfl, rfl, rfl, rfl⟩

/-- Only GETIMAGERECT changes its results (R34). -/
theorem RegsAfter.keepsImageRect {i : Instr} {g k : Regs} (h : RegsAfter i g k) (hr : i ≠ .getImageRect) :
    KeepsImageRect g k := by
  cases h with
  | imageRect => exact absurd rfl hr
  | tile i hk => exact { hk.keepsImageRect with }
  | _ => exact ⟨rfl, rfl, rfl, rfl⟩

end Sys2Proof.Machine

open Sys2Proof Sys2Proof.Machine

/-- Settles O50: what a command that ends leaves alone, group by group. -/
theorem whoWritesWhichRegister : Obligations.WhoWritesWhichRegister := by
  intro i s t h
  obtain ⟨hhandle, hblank, hx0, hy0, hw, hh⟩ := (exec_regsAfter h).keepsHostRegs
  have hacts := exec_acts h
  refine ⟨hhandle, hblank, hx0, hy0, hw, hh, hacts.env, hacts.inbox, fun ho hc => ?_, fun hr => ?_⟩
  · obtain ⟨hstate, hproduct, hiw, hih, hfh, hfv⟩ := (exec_regsAfter h).keepsFacade ho hc
    exact ⟨hstate, hproduct, hiw, hih, hfh, hfv⟩
  · obtain ⟨hx0, hy0, hw, hh⟩ := (exec_regsAfter h).keepsImageRect hr
    exact ⟨hx0, hy0, hw, hh⟩

/-- Settles O52: a command only acts, and its acts are on record in order. -/
theorem recordReplaysMemory : Obligations.RecordReplaysMemory := by
  intro i s t h
  obtain ⟨hhist, hreplay, -, -⟩ := (exec_acts h).actsBetween_spec
  exact ⟨⟨_, hhist⟩, hreplay⟩
end

