-- ==== Sys2Proof/Proofs/TileCompletion.lean ====
section
/-! SUPPORT. With every request answered `get_tile` runs to its end (42_facade.md R165, 43_external_ports.md R189): the loads put
a value in every byte that the decodes and copies consume, and a byte that has a value keeps one. -/

namespace Sys2Proof.Machine

/-! ### Bytes keep having a value -/

/-- The byte at a host offset has a value. -/
def HasValue (s : State) (a : Nat) : Prop := (s.mem.read a).isSome = true

theorem Effect.hasValue {P : Nat → Prop} {Q : PortReq → Prop} {s t : State} (h : Effect P Q s t) {a : Nat}
    (ha : HasValue s a) : HasValue t a := by
  obtain ⟨new, -, hmem, -⟩ := h.acts
  unfold HasValue
  rw [hmem]
  obtain hsame | ⟨v, -, hv⟩ := read_replay_cases new.reverse s.mem a
  · rw [hsame]
    exact ha
  · rw [hv]
    rfl

theorem Fills.hasValue {V : Nat → Option Byte} {D A : Nat → Prop} {s t : State} (h : Fills V D A s (.ok t)) {a : Nat}
    (ha : A a) (hV : (V a).isSome = true) : HasValue t a := by
  unfold HasValue
  rw [h.sets.2 a ha]
  exact hV

/-- Every byte of CB, and of the first `n` bytes of each entry of PAL, has a value (R183). -/
def TablesLoaded (n : Nat) (s : State) : Prop := ∀ a, InTables n a → HasValue s a

theorem loadTables_loaded (n : Nat) (hn : n ≤ 3) (o : OpenAnswer) (s : State) : TablesLoaded n (loadTables n o s) := by
  have hcb := loadCodebook_fills o s
  have hpal := loadPalette_fills n (hn.trans (by decide)) o (loadCodebook o s)
  rintro a (ha | ⟨ha, hband⟩)
  · exact hpal.sets.1.quiet.1.hasValue (hcb.hasValue (covers_iff.1 ha) rfl)
  · obtain ⟨hlo, hhi⟩ := covers_iff.1 ha
    exact hpal.hasValue ⟨hlo, hhi, hband⟩ rfl

/-- With the tables and CBUF loaded no decode stops (40_decode.md R110). -/
theorem TablesLoaded.decodable {n : Nat} {s : State} (h : TablesLoaded n s) (hn : n ≤ 3)
    (hcbuf : ∀ a, Space.cbuf.covers a = true → HasValue s a) : Decodable s.mem n := by
  refine decodable_of_loaded (fun p hp => ?_) (fun k hk => ?_) (fun idx hidx b hb => ?_)
  · exact hcbuf _ (covers_iff.2 ⟨Nat.le_add_right .., Nat.add_lt_add_left hp _⟩)
  · exact h _ (.inl (covers_iff.2 ⟨Nat.le_add_right .., Nat.add_lt_add_left hk _⟩))
  · refine h _ (.inr ⟨covers_iff.2 ⟨Nat.le_add_right .., Nat.add_lt_add_left ?_ _⟩, ?_⟩)
    · simp only [size_pal, Config.palSize]
      omega
    · rw [Nat.add_sub_cancel_left]
      omega

/-- After a decode that completes every byte of the planes has a value. -/
theorem blockImage_isSome {m : Memory} {n a : Nat} (h : Decodable m n) (ha : InPlanes n a) :
    (blockImage m a).isSome = true := by
  obtain ⟨hlo, hhi⟩ := ha
  exact h _ (by omega) _ (by omega) _ (by omega)

/-! ### The visits complete -/

/-- What the work on the cells of an opened frame needs: every request is answered, and the tables are loaded. -/
def ReadyForCells (n : Nat) (s : State) : Prop := AllAnswered s ∧ TablesLoaded n s

theorem AllAnswered.keep {P : Nat → Prop} {Q : PortReq → Prop} {s t : State} (h : AllAnswered s) (he : Effect P Q s t) :
    AllAnswered t := by
  unfold AllAnswered
  rw [he.env]
  exact h

theorem ReadyForCells.keep {n : Nat} {P : Nat → Prop} {Q : PortReq → Prop} {s t : State} (h : ReadyForCells n s)
    (he : Effect P Q s t) : ReadyForCells n t :=
  ⟨h.1.keep he, fun a ha => he.hasValue (h.2 a ha)⟩

/-- The effect of a part of `get_tile` that ended. -/
theorem Leads.effect {n : Nat} {s t : State} {r : Run State} (h : Leads (Visits n s.reg) s r) (ht : r = .ok t) :
    Effect (InScratchOrTile n s.reg) (fun _ => True) s t :=
  (h.1 t ht (TileRegs.refl _)).1

/-- The copy of a block whose bytes all have a value completes (41_compositor.md R139). -/
theorem blkcopyBody_completes {n : Nat} {s : State} (hn : n ≤ 3) (h : ∀ a, InPlanes n a → HasValue s a) :
    ∃ t, blkcopyBody n s = .ok t := by
  have hvalues (b : Nat) (hb : b < n) (x y : Int) (hxy : Copied s.reg x y) :
      HasValue s (Config.blkBase + copyFrom s.reg b x y) := by
    obtain ⟨-, hl, hr, htop, hbot⟩ := copied_iff.1 hxy
    rw [copyFrom_eq b hl htop]
    exact h _ ⟨Nat.le_add_right .., Nat.add_lt_add_left (by omega) _⟩
  obtain ⟨t, ht, -⟩ := blkcopyBody_fills hvalues hn
  exact ⟨t, ht⟩

/-- A sequence whose first part ended. -/
theorem bind_of_ok {ε α β : Type} {r : Except ε α} {a : α} (h : r = .ok a) (f : α → Except ε β) : r >>= f = f a := by
  rw [h]
  rfl

/-- A cell whose fetch is answered (R142, R145). -/
theorem visitCell_answered {n dr fc sr sc : Nat} {s : State}
    (h : .frmFetch (cell16 dr) (cell16 fc) (cell3 sr) (cell3 sc) ∉ s.env.silent) :
    visitCell n dr fc sr sc s =
      if (s.env.cell.answer (cell16 dr, cell16 fc, cell3 sr, cell3 sc)).ok then
        decodeBody n (loadCompressed (s.env.cell.answer (cell16 dr, cell16 fc, cell3 sr, cell3 sc))
            (note (.frmFetch (cell16 dr) (cell16 fc) (cell3 sr) (cell3 sc)) s)) >>= fun u =>
          blkcopyBody n { u with reg := { u.reg with curSr := wordOfNat sr, curSc := wordOfNat sc } }
      else .ok (note (.frmFetch (cell16 dr) (cell16 fc) (cell3 sr) (cell3 sc)) s) :=
  bind_of_ok (frmFetch_ok h) _

theorem visitCell_completes {n : Nat} (hn : 0 < n ∧ n ≤ 3) (dr fc sr sc : Nat) {s : State} (h : ReadyForCells n s) :
    ∃ t, visitCell n dr fc sr sc s = .ok t := by
  rw [visitCell_answered (h.1 _)]
  split
  · have hload := loadCompressed_fills (s.env.cell.answer (cell16 dr, cell16 fc, cell3 sr, cell3 sc))
      (note (.frmFetch (cell16 dr) (cell16 fc) (cell3 sr) (cell3 sc)) s)
    have hready := (h.keep (note_effect (P := AnyOffset) (Q := fun _ => True) _ s trivial)).keep hload.sets.1.quiet.1
    have hdec := hready.2.decodable hn.2 fun a ha => hload.hasValue (covers_iff.1 ha) rfl
    obtain ⟨u, hu, hset, hblock⟩ := decodeBody_fills hdec hn
    have hvalues : ∀ a, InPlanes n a → HasValue u a := fun a ha => by
      rw [HasValue, hblock a ha]
      exact blockImage_isSome hdec ha
    rw [bind_of_ok hu]
    exact blkcopyBody_completes hn.2 hvalues
  · exact ⟨_, rfl⟩

theorem visitCells_completes {n : Nat} (hn : 0 < n ∧ n ≤ 3) (dr fc : Nat) {s : State} (h : ReadyForCells n s) :
    ∃ t, visitCells n dr fc s = .ok t := by
  have hrow (sr : Nat) (u : State) (hu : ReadyForCells n u) :
      ∃ t, forEach (upTo (u32 u.reg.sc0) (u32 u.reg.sc1)) (fun sc => visitCell n dr fc sr sc) u = .ok t ∧
        ReadyForCells n t := by
    refine forEach_total hu fun sc _ w hw => ?_
    obtain ⟨t, ht⟩ := visitCell_completes hn dr fc sr sc hw
    exact ⟨t, ht, hw.keep ((visitCell_visits n dr fc sr sc w.reg w).effect ht)⟩
  obtain ⟨t, ht, -⟩ := forEach_total h (xs := upTo (u32 s.reg.sr0) (u32 s.reg.sr1)) fun sr _ u hu => hrow sr u hu
  exact ⟨t, ht⟩

/-- A frame that is present, its open answered (R142, R144). -/
theorem visitPresent_answered {n dr fc : Nat} {s : State} (h : .frmOpen (cell16 dr) (cell16 fc) ∉ s.env.silent) :
    visitPresent n dr fc s =
      if (s.env.frame.answer (cell16 dr, cell16 fc)).ok then
        visitCells n dr fc (loadTables n (s.env.frame.answer (cell16 dr, cell16 fc))
          (countOpen (note (.frmOpen (cell16 dr) (cell16 fc)) s))) >>= fun u => .ok (frmRelease dr fc u)
      else .ok (countOpen (note (.frmOpen (cell16 dr) (cell16 fc)) s)) :=
  bind_of_ok (frmOpen_ok h) _

theorem visitPresent_completes {n : Nat} (hn : 0 < n ∧ n ≤ 3) (dr fc : Nat) {s : State} (h : AllAnswered s) :
    ∃ t, visitPresent n dr fc s = .ok t := by
  rw [visitPresent_answered (h _)]
  split
  · have hready : ReadyForCells n (loadTables n (s.env.frame.answer (cell16 dr, cell16 fc))
        (countOpen (note (.frmOpen (cell16 dr) (cell16 fc)) s))) :=
      ⟨(h.keep (t := countOpen (note _ s)) ((note_effect (P := AnyOffset) (Q := fun _ => True) _ s trivial).trans (Effect.of_reg _ rfl))).keep
        (loadTables_quiet n (hn.2.trans (by decide)) _ _).1, loadTables_loaded n hn.2 _ _⟩
    obtain ⟨t, ht⟩ := visitCells_completes hn dr fc hready
    rw [bind_of_ok ht]
    exact ⟨_, rfl⟩
  · exact ⟨_, rfl⟩

/-- A covered frame, asked for and answered (R142, R143). -/
theorem visitFrame_answered {n fr fc : Nat} {s : State} (h : .locExists (cell16 fr) (cell16 fc) ∉ s.env.silent) :
    visitFrame n fr fc s =
      if s.env.present.answer (cell16 fr, cell16 fc) then
        visitPresent n (u32 (aimAtFrame fr fc (note (.locExists (cell16 fr) (cell16 fc)) s)).reg.diskRow) fc
          (aimAtFrame fr fc (note (.locExists (cell16 fr) (cell16 fc)) s))
      else .ok (note (.locExists (cell16 fr) (cell16 fc)) s) :=
  bind_of_ok (locExists_ok h) _

theorem visitFrame_completes {n : Nat} (hn : 0 < n ∧ n ≤ 3) (fr fc : Nat) {s : State} (h : AllAnswered s) :
    ∃ t, visitFrame n fr fc s = .ok t := by
  rw [visitFrame_answered (h _)]
  split
  · exact visitPresent_completes hn _ fc h
  · exact ⟨_, rfl⟩

theorem visitFrames_completes {n : Nat} (hn : 0 < n ∧ n ≤ 3) {s : State} (h : AllAnswered s) :
    ∃ t, visitFrames n s = .ok t := by
  have hrow (fr : Nat) (u : State) (hu : AllAnswered u) :
      ∃ t, forEach (upTo (u32 u.reg.fc0) (u32 u.reg.fc1)) (fun fc => visitFrame n fr fc) u = .ok t ∧ AllAnswered t := by
    refine forEach_total hu fun fc _ w hw => ?_
    obtain ⟨t, ht⟩ := visitFrame_completes hn fr fc hw
    exact ⟨t, ht, hw.keep ((visitFrame_visits n fr fc (hn.2.trans (by decide)) w.reg w).effect ht)⟩
  obtain ⟨t, ht, -⟩ := forEach_total h (xs := upTo (u32 s.reg.fr0) (u32 s.reg.fr1)) fun fr _ u hu => hrow fr u hu
  exact ⟨t, ht⟩

/-- What the part of `get_tile` before the frames does to the registers: the count is cleared and FRANGE's results stored; the
fill is quiet (R142). -/
theorem getTilePrologue_reg (n : Nat) (s : State) :
    (getTilePrologue n s).reg = frangeRegs { s.reg with fopenCnt := 0 } := by
  have hfill := (tfillBody_fills n { s with reg := { s.reg with fopenCnt := 0 } }).sets.1.reg
  rw [getTilePrologue, frangeBody_reg, hfill]

/-- Before the frames no request is issued. -/
theorem getTilePrologue_effect (n : Nat) (s : State) : Effect AnyOffset NoPort s (getTilePrologue n s) := by
  have hfill := (tfillBody_fills n { s with reg := { s.reg with fopenCnt := 0 } }).sets.1.quiet.1
  exact (Effect.of_reg { s.reg with fopenCnt := 0 } rfl).trans
    ((hfill.mono (fun _ _ => trivial) (fun _ h => h)).trans (Effect.of_reg _ rfl))

/-- `get_tile()` completes when every request is answered (R142, R189). -/
theorem getTileBody_completes {n : Nat} (hn : 0 < n ∧ n ≤ 3) {s : State} (h : AllAnswered s) :
    ∃ t, getTileBody n s = .ok t := by
  simp only [getTileBody]
  split
  · exact ⟨_, rfl⟩
  · exact visitFrames_completes hn (h.keep (getTilePrologue_effect n s))

/-- GETTILE at level 0, its checks passed, is its body and success (42_facade.md R165). -/
theorem exec_getTile_zero {n : Nat} {s t : State} (hopen : OpenWith n s) (hfits : TileFits n s)
    (ht : getTileBody n s = .ok t) : exec (.getTile 0) s = .next (done t) := by
  change conclude (runGetTile 0 s) = _
  rw [runGetTile, whenOpen_opened hopen.1, if_neg (by decide), withBands_some hopen.2, whenFits_fit hfits, ht]
  rfl

end Sys2Proof.Machine
end

