-- ==== Sys2Proof/Proofs/TileRegisters.lean ====
section
/-! SUPPORT. What the visits of `get_tile` leave in the registers (10_state.md R32, R35 to R38, 41_compositor.md R142): a log of
the frames that exist and of the cells fetched, in the order they are visited; the last of each gives the registers. -/

namespace Sys2Proof.Machine

/-! ### The last entry of a log -/

/-- What the last entry of a log sets by `v`; `d` if the log is empty. -/
def lastOr {β γ : Type} (v : β → γ) (d : γ) (log : List β) : γ := (log.getLast?.map v).getD d

theorem lastOr_none {β γ : Type} {v : β → γ} {d : γ} {log : List β} (h : log.getLast? = none) : lastOr v d log = d := by
  rw [lastOr, h]
  rfl

theorem lastOr_some {β γ : Type} {v : β → γ} {d : γ} {log : List β} {x : β} (h : log.getLast? = some x) :
    lastOr v d log = v x := by
  rw [lastOr, h]
  rfl

theorem lastOr_append {β γ : Type} (v : β → γ) (d : γ) (log more : List β) :
    lastOr v d (log ++ more) = lastOr v (lastOr v d log) more := by
  unfold lastOr
  rw [List.getLast?_append]
  cases more.getLast? <;> rfl

/-- What a loop that completes has logged: the entries of its passes, in order. `I` is what the passes need of a state. -/
theorem forEach_logs {α β : Type} {R : List β → State → State → Prop} {I : State → Prop} {f : α → List β}
    {body : α → State → Run State} {xs : List α} (hnil : ∀ s, R [] s s)
    (htrans : ∀ l m s t u, R l s t → R m t u → R (l ++ m) s u) (hI : ∀ l s t, I s → R l s t → I t)
    (h : ∀ x ∈ xs, ∀ s t, I s → body x s = .ok t → R (f x) s t) {s t : State} (hs : I s)
    (hrun : forEach xs body s = .ok t) : R (xs.flatMap f) s t := by
  induction xs generalizing s with
  | nil =>
    cases hrun
    exact hnil _
  | cons x rest ih =>
    cases hb : body x s with
    | error e =>
      rw [forEach_cons_error hb] at hrun
      cases hrun
    | ok u =>
      rw [forEach_cons_ok hb] at hrun
      have hx := h x (List.mem_cons_self ..) s u hs hb
      rw [List.flatMap_cons]
      exact htrans _ _ _ _ _ hx (ih (fun y hy => h y (List.mem_cons_of_mem _ hy)) (hI _ _ _ hs hx) hrun)

theorem flatMap_if_singleton {α β : Type} (p : α → Bool) (f : α → β) (xs : List α) :
    xs.flatMap (fun x => if p x = true then [f x] else []) = (xs.filter p).map f := by
  induction xs with
  | nil => rfl
  | cons x rest ih => by_cases hx : p x = true <;> simp [hx, ih]

theorem flatMap_if {α β : Type} (p : α → Bool) (f : α → List β) (xs : List α) :
    xs.flatMap (fun x => if p x = true then f x else []) = (xs.filter p).flatMap f := by
  induction xs with
  | nil => rfl
  | cons x rest ih => by_cases hx : p x = true <;> simp [hx, ih]

/-! ### Counting FRM.Open requests (R38) -/

/-- The request is an FRM.Open. -/
def isFrmOpen : PortReq → Bool
  | .frmOpen _ _ => true
  | _ => false

/-- The FRM.Open requests of the port trace so far. -/
def openRequests (s : State) : Nat := ((portTrace s).filter isFrmOpen).length

theorem openRequests_note (r : PortReq) (s : State) :
    openRequests (note r s) = openRequests s + (if isFrmOpen r = true then 1 else 0) := by
  have htrace : portTrace (note r s) = portTrace s ++ [r] := by simp [portTrace, requestOf]
  rw [openRequests, htrace, List.filter_append, List.length_append]
  by_cases hr : isFrmOpen r = true <;> simp [hr, openRequests]

theorem Effect.openRequests_eq {P : Nat → Prop} {s t : State} (h : Effect P NoPort s t) :
    openRequests t = openRequests s := by
  rw [openRequests, h.portTrace_eq, openRequests]

/-! ### The cells of an opened frame -/

/-- CUR_SR and CUR_SC. -/
def subCursor (g : Regs) : Word × Word := (g.curSr, g.curSc)

/-- What a fetched cell `(fr, fc, sr, sc)` makes of them (R32). -/
def subCursorAt (cell : Nat × Nat × Nat × Nat) : Word × Word := (wordOfNat cell.2.2.1, wordOfNat cell.2.2.2)

/-- A part of `get_tile` with the cursor on one frame: it asked `opens` FRM.Opens and counted them, fetched the cells of the
log, and changed no other register than FOPEN_CNT, CUR_SR and CUR_SC. -/
structure CellLog (opens : Nat) (cells : List (Nat × Nat × Nat × Nat)) (s t : State) : Prop where
  env : t.env = s.env
  reg : t.reg = { s.reg with
    curSr := t.reg.curSr, curSc := t.reg.curSc, fopenCnt := s.reg.fopenCnt + wordOfNat opens }
  cursor : subCursor t.reg = lastOr subCursorAt (subCursor s.reg) cells
  asked : openRequests t = openRequests s + opens

theorem CellLog.of_reg_eq {s t : State} (henv : t.env = s.env) (hreg : t.reg = s.reg)
    (hasked : openRequests t = openRequests s) : CellLog 0 [] s t where
  env := henv
  reg := by
    rw [hreg]
    simp [wordOfNat]
  cursor := by
    rw [hreg]
    rfl
  asked := hasked

theorem CellLog.refl (s : State) : CellLog 0 [] s s := .of_reg_eq rfl rfl rfl

theorem CellLog.of_quiet {P : Nat → Prop} {s t : State} (h : Quiet P s t) : CellLog 0 [] s t :=
  .of_reg_eq h.1.env h.2 h.1.openRequests_eq

theorem CellLog.of_note {r : PortReq} (s : State) (h : isFrmOpen r = false) : CellLog 0 [] s (note r s) :=
  .of_reg_eq rfl rfl (by rw [openRequests_note, h]; rfl)

theorem CellLog.trans {k l : Nat} {cells more : List (Nat × Nat × Nat × Nat)} {s t u : State} (h1 : CellLog k cells s t)
    (h2 : CellLog l more t u) : CellLog (k + l) (cells ++ more) s u where
  env := h2.env.trans h1.env
  reg := by
    rw [h2.reg, h1.reg]
    simp only [wordOfNat, BitVec.ofNat_add, BitVec.add_assoc]
  cursor := by rw [h2.cursor, h1.cursor, lastOr_append]
  asked := by rw [h2.asked, h1.asked, Nat.add_assoc]

/-- A request that is counted (R38). -/
theorem CellLog.of_open (dr fc : BitVec 16) (s : State) : CellLog 1 [] s (countOpen (note (.frmOpen dr fc) s)) where
  env := rfl
  reg := rfl
  cursor := rfl
  asked := openRequests_note (.frmOpen dr fc) s

theorem CellLog.of_sub (fr fc sr sc : Nat) (s : State) : CellLog 0 [(fr, fc, sr, sc)] s
    { s with reg := { s.reg with curSr := wordOfNat sr, curSc := wordOfNat sc } } where
  env := rfl
  reg := by simp [wordOfNat]
  cursor := rfl
  asked := rfl

/-- One cell: it is logged if its bytes were fetched (R145). `fr` names the frame in the log. -/
theorem visitCell_log {n dr fc sr sc : Nat} (fr : Nat) {s t : State} (h : visitCell n dr fc sr sc s = .ok t) :
    CellLog 0 (if (s.env.cell.answer (cell16 dr, cell16 fc, cell3 sr, cell3 sc)).ok = true then [(fr, fc, sr, sc)] else [])
      s t := by
  have hasked : .frmFetch (cell16 dr) (cell16 fc) (cell3 sr) (cell3 sc) ∉ s.env.silent := by
    intro hsilent
    rw [visitCell, frmFetch, await_silent hsilent] at h
    cases h
  rw [visitCell_answered hasked] at h
  have hnote := CellLog.of_note (r := .frmFetch (cell16 dr) (cell16 fc) (cell3 sr) (cell3 sc)) s rfl
  split at h
  case isTrue hok =>
    obtain ⟨u, hu, h⟩ := bind_eq_ok h
    have hload := CellLog.of_quiet (loadCompressed_quiet (s.env.cell.answer (cell16 dr, cell16 fc, cell3 sr, cell3 sc))
      (note (.frmFetch (cell16 dr) (cell16 fc) (cell3 sr) (cell3 sc)) s))
    have hdecode := CellLog.of_quiet ((decodeBody_quiet n _).1 u hu)
    have hcopy := CellLog.of_quiet ((blkcopyBody_quiet n _).1 t h)
    rw [if_pos hok]
    exact (((hnote.trans hload).trans hdecode).trans (CellLog.of_sub fr fc sr sc u)).trans hcopy
  case isFalse hok =>
    cases h
    rw [if_neg hok]
    exact hnote

/-- The fetched cells of the frame `(fr, fc)`, whose row on disk is `dr`, in the order they are visited (R142, R145). -/
def fetchedOf (e : Env) (rows cols : List Nat) (dr fr fc : Nat) : List (Nat × Nat × Nat × Nat) :=
  rows.flatMap (fun sr => cols.flatMap (fun sc =>
    if (e.cell.answer (cell16 dr, cell16 fc, cell3 sr, cell3 sc)).ok = true then [(fr, fc, sr, sc)] else []))

theorem visitCells_log {n dr fc : Nat} (fr : Nat) {s t : State} (h : visitCells n dr fc s = .ok t) :
    CellLog 0 (fetchedOf s.env (upTo (u32 s.reg.sr0) (u32 s.reg.sr1)) (upTo (u32 s.reg.sc0) (u32 s.reg.sc1)) dr fr fc)
      s t := by
  have htrans : ∀ (l m : List (Nat × Nat × Nat × Nat)) (s t u : State),
      CellLog 0 l s t → CellLog 0 m t u → CellLog 0 (l ++ m) s u := fun _ _ _ _ _ h1 h2 => h1.trans h2
  have hkeep (l : List (Nat × Nat × Nat × Nat)) (u v : State)
      (hu : u.env = s.env ∧ u.reg.sc0 = s.reg.sc0 ∧ u.reg.sc1 = s.reg.sc1) (huv : CellLog 0 l u v) :
      v.env = s.env ∧ v.reg.sc0 = s.reg.sc0 ∧ v.reg.sc1 = s.reg.sc1 := by
    rw [huv.env, huv.reg]
    exact hu
  refine forEach_logs CellLog.refl htrans hkeep (fun sr _ u v hu hrow => ?_) ⟨rfl, rfl, rfl⟩ h
  rw [← hu.2.1, ← hu.2.2]
  refine forEach_logs CellLog.refl htrans hkeep (fun sc _ w x hw hcell => ?_) hu hrow
  rw [← hw.1]
  exact visitCell_log fr hcell

/-- A frame that is present: its open is asked and counted, and the cells are logged if it succeeds (R142, R144). -/
theorem visitPresent_log {n dr fc : Nat} (fr : Nat) {s t : State} (h : visitPresent n dr fc s = .ok t) (hn : n ≤ 3) :
    CellLog 1 (if (s.env.frame.answer (cell16 dr, cell16 fc)).ok = true then
      fetchedOf s.env (upTo (u32 s.reg.sr0) (u32 s.reg.sr1)) (upTo (u32 s.reg.sc0) (u32 s.reg.sc1)) dr fr fc else []) s t := by
  have hasked : .frmOpen (cell16 dr) (cell16 fc) ∉ s.env.silent := by
    intro hsilent
    rw [visitPresent, frmOpen, await_silent hsilent] at h
    cases h
  rw [visitPresent_answered hasked] at h
  have hopen := CellLog.of_open (cell16 dr) (cell16 fc) s
  split at h
  case isTrue hok =>
    obtain ⟨u, hu, h⟩ := bind_eq_ok h
    have htables := loadTables_quiet n (hn.trans (by decide)) (s.env.frame.answer (cell16 dr, cell16 fc))
      (countOpen (note (.frmOpen (cell16 dr) (cell16 fc)) s))
    have hcells := visitCells_log fr hu
    rw [htables.1.env, htables.2] at hcells
    cases h
    rw [if_pos hok]
    have hrelease : CellLog 0 [] u (frmRelease dr fc u) := CellLog.of_note u rfl
    simpa using ((hopen.trans (CellLog.of_quiet htables)).trans hcells).trans hrelease
  case isFalse hok =>
    cases h
    rw [if_neg hok]
    exact hopen

/-! ### The frames -/

/-- Of the registers `get_tile` writes after FRANGE only FOPEN_CNT, the cursor, DISK_ROW and SR0..SC1 may differ. -/
def VisitRegs (g h : Regs) : Prop :=
  h = { g with
    fopenCnt := h.fopenCnt, curFr := h.curFr, curFc := h.curFc, curSr := h.curSr, curSc := h.curSc
    sr0 := h.sr0, sr1 := h.sr1, sc0 := h.sc0, sc1 := h.sc1, diskRow := h.diskRow }

theorem VisitRegs.refl (g : Regs) : VisitRegs g g := rfl

theorem VisitRegs.trans {g h k : Regs} (h1 : VisitRegs g h) (h2 : VisitRegs h k) : VisitRegs g k := by
  unfold VisitRegs at *
  rw [h2, h1]

theorem VisitRegs.tileRegs {g h : Regs} (hk : VisitRegs g h) : TileRegs g h := by
  unfold VisitRegs at hk
  unfold TileRegs
  rw [hk]

theorem CellLog.visitRegs {k : Nat} {cells : List (Nat × Nat × Nat × Nat)} {s t : State} (h : CellLog k cells s t) :
    VisitRegs s.reg t.reg := by
  rw [h.reg]
  rfl

/-- The registers that say which frame was visited last: CUR_FR, CUR_FC, DISK_ROW, SR0..SC1. -/
def frameCursor (g : Regs) : Word × Word × Word × Word × Word × Word × Word :=
  (g.curFr, g.curFc, g.diskRow, g.sr0, g.sr1, g.sc0, g.sc1)

/-- What a frame `(fr, fc)` that exists makes of them, for the operands `o` (R32, R36, R37). -/
def frameCursorAt (o : Regs) (f : Nat × Nat) : Word × Word × Word × Word × Word × Word × Word :=
  (wordOfNat f.1, wordOfNat f.2, wordOfNat (u32 o.framesV - 1 - f.1),
    wordOfNat (firstSub (clip o).y0 (f.1 * 1536)), wordOfNat (lastSub (clip o).y1 (f.1 * 1536)),
    wordOfNat (firstSub (clip o).x0 (f.2 * 1536)), wordOfNat (lastSub (clip o).x1 (f.2 * 1536)))

/-- The fetched cells of a frame that exists, by the environment's answers (R144, R145). -/
def cellsOf (e : Env) (o : Regs) (f : Nat × Nat) : List (Nat × Nat × Nat × Nat) :=
  if (tablesOf e o f.1 f.2).ok = true then
    fetchedOf e (coveredSubs (clip o).y0 (clip o).y1 (f.1 * 1536)) (coveredSubs (clip o).x0 (clip o).x1 (f.2 * 1536))
      (u32 o.framesV - 1 - f.1) f.1 f.2
  else []

/-- A frame of the grid that the clip rectangle touches (R132). -/
structure CoveredFrame (o : Regs) (fr fc : Nat) : Prop where
  nonempty : ¬ emptyOfImage o = true
  inRows : fr < u32 o.framesV
  inCols : fc < u32 o.framesH
  meetsRows : Meets (clip o).y0 (clip o).y1 (fr * 1536)
  meetsCols : Meets (clip o).x0 (clip o).x1 (fc * 1536)

/-- A register is the value it holds. -/
theorem eq_wordOfNat {w : Word} {k : Nat} (h : u32 w = k) : w = wordOfNat k := by
  rw [← h, wordOfNat, u32, BitVec.ofNat_toNat, BitVec.setWidth_eq]

/-- SRANGE's results for a covered frame, for operands `o` (R134 to R136). -/
theorem srangeRegs_aimed {o g : Regs} {fr fc : Nat} (hk : TileRegs o g) (hc : CoveredFrame o fr fc) :
    srangeRegs { g with curFr := wordOfNat fr, curFc := wordOfNat fc } = { g with
      empty := false
      curFr := wordOfNat fr
      curFc := wordOfNat fc
      diskRow := wordOfNat (u32 o.framesV - 1 - fr)
      sr0 := wordOfNat (firstSub (clip o).y0 (fr * 1536))
      sr1 := wordOfNat (lastSub (clip o).y1 (fr * 1536))
      sc0 := wordOfNat (firstSub (clip o).x0 (fc * 1536))
      sc1 := wordOfNat (lastSub (clip o).x1 (fc * 1536)) } := by
  obtain ⟨hne, hfr, hfc, hy, hx⟩ := hc
  obtain ⟨k, hkdef⟩ : ∃ k : Regs, k = { g with curFr := wordOfNat fr, curFc := wordOfNat fc } := ⟨_, rfl⟩
  have htile : TileRegs o k := by
    rw [hkdef]
    exact hk.trans rfl
  have hclip := htile.clip
  have hframes : k.framesV = o.framesV := htile.keepsFacade.framesV
  have hcurFr : u32 k.curFr = fr := by
    rw [hkdef]
    exact u32_wordOfNat (hfr.trans (u32_lt _))
  have hcurFc : u32 k.curFc = fc := by
    rw [hkdef]
    exact u32_wordOfNat (hfc.trans (u32_lt _))
  have hcovered : ¬ emptyOfFrame k = true := by
    rw [not_emptyOfFrame_iff, emptyOfImage_iff, hclip, ← emptyOfImage_iff, hcurFr, hcurFc]
    exact ⟨hne, hx, hy⟩
  have hrow : u32 (srangeRegs k).diskRow = _ := srangeRegs_diskRow (by rw [hcurFr, hframes]; exact hfr)
  obtain ⟨hsr0, hsr1, hsc0, hsc1⟩ := srangeRegs_values hcovered
  rw [hframes, hcurFr] at hrow
  rw [hclip, hcurFr] at hsr0 hsr1
  rw [hclip, hcurFc] at hsc0 hsc1
  rw [← hkdef, srangeRegs_frame k, srangeRegs_empty_eq, Bool.eq_false_of_not_eq_true hcovered, eq_wordOfNat hrow,
    eq_wordOfNat hsr0, eq_wordOfNat hsr1, eq_wordOfNat hsc0, eq_wordOfNat hsc1, hkdef]

/-- Visits of frames with operands `o`: the frames of the log exist, and an FRM.Open was asked and counted for each. -/
structure FrameLog (o : Regs) (frames : List (Nat × Nat)) (s t : State) : Prop where
  env : t.env = s.env
  reg : VisitRegs s.reg t.reg
  frame : frameCursor t.reg = lastOr (frameCursorAt o) (frameCursor s.reg) frames
  sub : subCursor t.reg = lastOr subCursorAt (subCursor s.reg) (frames.flatMap (cellsOf s.env o))
  count : t.reg.fopenCnt = s.reg.fopenCnt + wordOfNat frames.length
  asked : openRequests t = openRequests s + frames.length

theorem FrameLog.of_reg_eq {o : Regs} {s t : State} (henv : t.env = s.env) (hreg : t.reg = s.reg)
    (hasked : openRequests t = openRequests s) : FrameLog o [] s t where
  env := henv
  reg := by
    rw [hreg]
    exact VisitRegs.refl _
  frame := by
    rw [hreg]
    rfl
  sub := by
    rw [hreg]
    rfl
  count := by
    rw [hreg]
    simp [wordOfNat]
  asked := hasked

theorem FrameLog.trans {o : Regs} (l m : List (Nat × Nat)) (s t u : State) (h1 : FrameLog o l s t)
    (h2 : FrameLog o m t u) : FrameLog o (l ++ m) s u where
  env := h2.env.trans h1.env
  reg := h1.reg.trans h2.reg
  frame := by rw [h2.frame, h1.frame, lastOr_append]
  sub := by rw [h2.sub, h1.sub, h1.env, List.flatMap_append, lastOr_append]
  count := by rw [h2.count, h1.count, List.length_append, wordOfNat, wordOfNat, wordOfNat, BitVec.ofNat_add, BitVec.add_assoc]
  asked := by rw [h2.asked, h1.asked, List.length_append, Nat.add_assoc]

/-- A frame that exists is aimed at, and from there only its cells are visited. -/
theorem FrameLog.of_aimed {o : Regs} {fr fc : Nat} {s u t : State} (hempty : o.empty = false) (hc : CoveredFrame o fr fc)
    (hk : VisitRegs o s.reg) (henv : u.env = s.env) (hasked : openRequests u = openRequests s)
    (hreg : u.reg = srangeRegs { s.reg with curFr := wordOfNat fr, curFc := wordOfNat fc })
    (hlog : CellLog 1 (cellsOf s.env o (fr, fc)) u t) : FrameLog o [(fr, fc)] s t := by
  have hsame : s.reg.empty = false := by
    rw [hk]
    exact hempty
  rw [srangeRegs_aimed hk.tileRegs hc] at hreg
  have haim : VisitRegs s.reg u.reg := by
    rw [VisitRegs, hreg, hsame]
  exact {
    env := hlog.env.trans henv
    reg := haim.trans hlog.visitRegs
    frame := by
      rw [hlog.reg, hreg]
      rfl
    sub := by
      rw [hlog.cursor, hreg, List.flatMap_singleton]
      rfl
    count := by
      rw [hlog.reg, hreg]
      rfl
    asked := by
      rw [hlog.asked, hasked]
      rfl }

/-- The cells logged for a frame aimed at are those of the closed form. -/
theorem cellsOf_aimed {e : Env} {o g h : Regs} {fr fc : Nat} (hk : TileRegs o g) (hc : CoveredFrame o fr fc)
    (hh : h = srangeRegs { g with curFr := wordOfNat fr, curFc := wordOfNat fc }) :
    (if (e.frame.answer (cell16 (u32 h.diskRow), cell16 fc)).ok = true then
      fetchedOf e (upTo (u32 h.sr0) (u32 h.sr1)) (upTo (u32 h.sc0) (u32 h.sc1)) (u32 h.diskRow) fr fc else []) =
    cellsOf e o (fr, fc) := by
  have hv := u32_lt o.framesV
  obtain ⟨hy, hy5, -⟩ := hc.meetsRows.subs
  obtain ⟨hx, hx5, -⟩ := hc.meetsCols.subs
  rw [hh, srangeRegs_aimed hk hc]
  dsimp only
  rw [u32_wordOfNat (v := u32 o.framesV - 1 - fr) (by omega), u32_wordOfNat (by omega), u32_wordOfNat (by omega),
    u32_wordOfNat (by omega), u32_wordOfNat (by omega)]
  rfl

/-- One covered frame: it is logged if it exists (R143). -/
theorem visitFrame_log {n fr fc : Nat} {o : Regs} {s t : State} (hn : n ≤ 3) (hempty : o.empty = false)
    (hc : CoveredFrame o fr fc) (hk : VisitRegs o s.reg) (h : visitFrame n fr fc s = .ok t) :
    FrameLog o (if s.env.present.answer (cell16 fr, cell16 fc) = true then [(fr, fc)] else []) s t := by
  have hanswered : .locExists (cell16 fr) (cell16 fc) ∉ s.env.silent := by
    intro hsilent
    rw [visitFrame, locExists, await_silent hsilent] at h
    cases h
  rw [visitFrame_answered hanswered] at h
  have hnote : openRequests (note (.locExists (cell16 fr) (cell16 fc)) s) = openRequests s := openRequests_note _ _
  split at h
  case isTrue hpresent =>
    rw [if_pos hpresent]
    have hlog := visitPresent_log fr h hn
    have haim := aimAtFrame_reg fr fc (note (.locExists (cell16 fr) (cell16 fc)) s)
    rw [cellsOf_aimed hk.tileRegs hc haim] at hlog
    exact .of_aimed (u := aimAtFrame fr fc (note _ s)) hempty hc hk rfl hnote haim hlog
  case isFalse hpresent =>
    cases h
    rw [if_neg hpresent]
    exact .of_reg_eq rfl rfl hnote

/-- The frame rows and columns that FRANGE found are those the clip rectangle touches (R132). -/
theorem frangeRegs_ranges {g : Regs} (h : ¬ emptyOfImage g = true) :
    upTo (u32 (frangeRegs g).fr0) (u32 (frangeRegs g).fr1) = coveredRows g ∧
    upTo (u32 (frangeRegs g).fc0) (u32 (frangeRegs g).fc1) = coveredCols g := by
  obtain ⟨hfr0, hfr1, hfc0, hfc1⟩ := frangeRegs_values h
  rw [coveredRows, coveredCols, ← hfr0, ← hfr1, ← hfc0, ← hfc1]
  exact ⟨rfl, rfl⟩

/-- The image is a whole number of frames (10_state.md R33). -/
def ImageIsFrames (g : Regs) : Prop := u32 g.imgW = u32 g.framesH * 1536 ∧ u32 g.imgH = u32 g.framesV * 1536

/-- The frames that the clip rectangle touches are frames of the grid. -/
theorem coveredFrame_of_mem {g : Regs} (himg : ImageIsFrames g) (h : ¬ emptyOfImage g = true) {fr fc : Nat}
    (hfr : fr ∈ coveredRows g) (hfc : fc ∈ coveredCols g) : CoveredFrame g fr fc := by
  obtain ⟨hx0, hx, hx1, hy0, hy, hy1⟩ := clip_covered h
  obtain ⟨hw, hh⟩ := himg
  rw [coveredRows, mem_upTo] at hfr
  rw [coveredCols, mem_upTo] at hfc
  exact ⟨h, by omega, by omega, (frame_meets_iff hy).1 (by omega), (frame_meets_iff hx).1 (by omega)⟩

theorem coveredFrames_eq {g : Regs} (h : ¬ emptyOfImage g = true) :
    coveredFrames g = (coveredRows g).flatMap (fun fr => (coveredCols g).map (fun fc => (fr, fc))) := if_neg h

theorem presentFrames_empty {g : Regs} (h : emptyOfImage g = true) (e : Env) : presentFrames e g = [] := by
  have hnone : coveredFrames g = [] := if_pos h
  rw [presentFrames, hnone, List.filter_nil]

/-- The frames that exist, as the double loop of `get_tile` finds them. -/
theorem presentFrames_eq {e : Env} {g : Regs} (h : ¬ emptyOfImage g = true) : presentFrames e g =
    (coveredRows g).flatMap (fun fr => (coveredCols g).flatMap (fun fc =>
      if e.present.answer (cell16 fr, cell16 fc) = true then [(fr, fc)] else [])) := by
  rw [presentFrames, coveredFrames_eq h, List.filter_flatMap]
  refine List.flatMap_congr fun fr _ => ?_
  rw [List.filter_map, flatMap_if_singleton (fun fc => e.present.answer (cell16 fr, cell16 fc))]
  rfl

/-- All covered frames: those that exist are logged (R142). -/
theorem visitFrames_log {n : Nat} {s t : State} (hn : n ≤ 3) (himg : ImageIsFrames s.reg)
    (hne : ¬ emptyOfImage s.reg = true) (hempty : s.reg.empty = false)
    (hrows : upTo (u32 s.reg.fr0) (u32 s.reg.fr1) = coveredRows s.reg)
    (hcols : upTo (u32 s.reg.fc0) (u32 s.reg.fc1) = coveredCols s.reg) (h : visitFrames n s = .ok t) :
    FrameLog s.reg (presentFrames s.env s.reg) s t := by
  have hnil (u : State) : FrameLog s.reg [] u u := .of_reg_eq rfl rfl rfl
  have hkeep (l : List (Nat × Nat)) (u v : State) (hu : u.env = s.env ∧ VisitRegs s.reg u.reg)
      (huv : FrameLog s.reg l u v) : v.env = s.env ∧ VisitRegs s.reg v.reg :=
    ⟨huv.env.trans hu.1, hu.2.trans huv.reg⟩
  rw [presentFrames_eq hne, ← hrows]
  refine forEach_logs hnil FrameLog.trans hkeep (fun fr hfr u v hu hrow => ?_) ⟨rfl, VisitRegs.refl _⟩ h
  have hbounds : upTo (u32 u.reg.fc0) (u32 u.reg.fc1) = coveredCols s.reg := by
    rw [hu.2]
    exact hcols
  rw [hbounds] at hrow
  refine forEach_logs hnil FrameLog.trans hkeep (fun fc hfc w x hw hframe => ?_) hu hrow
  rw [← hw.1]
  exact visitFrame_log hn hempty (coveredFrame_of_mem himg hne (hrows ▸ hfr) hfc) hw.2 hframe

/-- `get_tile()` up to the frames: their operands are those of the command (R142). -/
theorem getTilePrologue_tileRegs (n : Nat) (s : State) : TileRegs s.reg (getTilePrologue n s).reg := by
  rw [getTilePrologue_reg]
  exact TileRegs.trans (h := { s.reg with fopenCnt := 0 }) rfl (TileRegs.frange _)

theorem TileRegs.presentFrames {g h : Regs} (hk : TileRegs g h) (e : Env) : presentFrames e h = presentFrames e g := by
  rw [hk]
  rfl

theorem TileRegs.covered {g h : Regs} (hk : TileRegs g h) :
    coveredRows h = coveredRows g ∧ coveredCols h = coveredCols g := by
  simp only [coveredRows, coveredCols, hk.clip, and_self]

theorem TileRegs.frameLog {g h : Regs} (hk : TileRegs g h) {frames : List (Nat × Nat)} {s t : State}
    (hlog : FrameLog h frames s t) : FrameLog g frames s t := by
  rw [hk] at hlog
  exact { hlog with }

/-- `get_tile()` that ends, from its prologue on: the frames that exist are logged (R142). -/
theorem getTileBody_log {n : Nat} {s t : State} (hn : n ≤ 3) (himg : ImageIsFrames s.reg)
    (h : getTileBody n s = .ok t) : FrameLog s.reg (presentFrames s.env s.reg) (getTilePrologue n s) t := by
  have hk := getTilePrologue_tileRegs n s
  have henv := (getTilePrologue_effect n s).env
  have hreg := getTilePrologue_reg n s
  have hempty : (getTilePrologue n s).reg.empty = emptyOfImage s.reg := by
    rw [hreg]
    exact frangeRegs_empty_eq _
  simp only [getTileBody, hempty] at h
  split at h
  case isTrue he =>
    cases h
    rw [presentFrames_empty he]
    exact .of_reg_eq rfl rfl rfl
  case isFalse he =>
    obtain ⟨hrows, hcols⟩ := frangeRegs_ranges (g := { s.reg with fopenCnt := 0 }) he
    rw [← hk.presentFrames, ← henv]
    refine hk.frameLog (visitFrames_log hn ?_ ?_ ?_ ?_ ?_ h)
    · rw [hk]
      exact himg
    · rw [hk]
      exact he
    · rw [hempty]
      exact Bool.eq_false_of_not_eq_true he
    · rw [hreg, hrows, (TileRegs.frange _).covered.1]
    · rw [hreg, hcols, (TileRegs.frange _).covered.2]

end Sys2Proof.Machine
end

