-- ==== Sys2Proof/Proofs/TileResults.lean ====
section
/-! SUPPORT. What a GETTILE leaves in the registers, from its log (10_state.md R27, R32, R35 to R38, 41_compositor.md R142). -/

namespace Sys2Proof.Machine

/-! ### The frames and cells of the log -/

/-- A frame that exists is a frame of the grid that the clip rectangle touches. -/
theorem coveredFrame_of_present {e : Env} {g : Regs} (himg : ImageIsFrames g) {f : Nat × Nat}
    (hf : f ∈ presentFrames e g) : CoveredFrame g f.1 f.2 := by
  by_cases h : emptyOfImage g = true
  · rw [presentFrames_empty h] at hf
    cases hf
  · have hmem := (List.mem_filter.1 hf).1
    rw [coveredFrames_eq h] at hmem
    obtain ⟨fr, hfr, hmem⟩ := List.mem_flatMap.1 hmem
    obtain ⟨fc, hfc, rfl⟩ := List.mem_map.1 hmem
    exact coveredFrame_of_mem himg h hfr hfc

/-- There are at most as many as the grid has frames. -/
theorem presentFrames_length_le {e : Env} {g : Regs} (himg : ImageIsFrames g) :
    (presentFrames e g).length ≤ u32 g.framesV * u32 g.framesH := by
  by_cases h : emptyOfImage g = true
  · rw [presentFrames_empty h]
    exact Nat.zero_le _
  · obtain ⟨hx0, hx, hx1, hy0, hy, hy1⟩ := clip_covered h
    obtain ⟨hw, hh⟩ := himg
    have hrows : (coveredRows g).length ≤ u32 g.framesV := by
      rw [coveredRows, upTo, List.length_range']
      omega
    have hcols : (coveredCols g).length ≤ u32 g.framesH := by
      rw [coveredCols, upTo, List.length_range']
      omega
    calc (presentFrames e g).length ≤ (coveredFrames g).length := List.length_filter_le ..
      _ = (coveredRows g).length * (coveredCols g).length := by rw [coveredFrames_eq h]; simp
      _ ≤ u32 g.framesV * u32 g.framesH := Nat.mul_le_mul hrows hcols

/-- The fetched cells, frame by frame of those that exist (R144, R145). -/
theorem fetchedCells_eq (e : Env) (g : Regs) : fetchedCells e g = (presentFrames e g).flatMap (cellsOf e g) := by
  have hcells (f : Nat × Nat) : cellsOf e g f = if (tablesOf e g f.1 f.2).ok = true then
      (coveredSubs (clip g).y0 (clip g).y1 (f.1 * 1536)).flatMap (fun sr =>
        ((coveredSubs (clip g).x0 (clip g).x1 (f.2 * 1536)).filter (fun sc => (bytesOf e g f.1 f.2 sr sc).ok)).map
          (fun sc => (f.1, f.2, sr, sc))) else [] := by
    rw [cellsOf, fetchedOf]
    congr 2
    funext sr
    exact flatMap_if_singleton (fun sc => (bytesOf e g f.1 f.2 sr sc).ok) _ _
  rw [fetchedCells, openedFrames, ← flatMap_if]
  exact List.flatMap_congr fun f _ => (hcells f).symm

/-- A cell of the log is one of the 36 of its frame. -/
theorem fetchedCells_subs {e : Env} {g : Regs} (himg : ImageIsFrames g) {fr fc sr sc : Nat}
    (h : (fr, fc, sr, sc) ∈ fetchedCells e g) : sr ≤ 5 ∧ sc ≤ 5 := by
  rw [fetchedCells] at h
  obtain ⟨f, hf, h⟩ := List.mem_flatMap.1 h
  obtain ⟨sr', hsr, h⟩ := List.mem_flatMap.1 h
  obtain ⟨sc', hsc, h⟩ := List.mem_map.1 h
  have hc := coveredFrame_of_present himg (List.mem_filter.1 hf).1
  obtain ⟨-, hy5, -⟩ := hc.meetsRows.subs
  obtain ⟨-, hx5, -⟩ := hc.meetsCols.subs
  have hsr' := (mem_upTo.1 hsr).2
  have hsc' := (mem_upTo.1 (List.mem_filter.1 hsc).1).2
  simp only [Prod.mk.injEq] at h
  omega

/-! ### The registers -/

/-- The results of FRANGE: EMPTY and FR0..FC1. -/
def frameRangeOf (g : Regs) : Bool × Word × Word × Word × Word := (g.empty, g.fr0, g.fr1, g.fc0, g.fc1)

theorem VisitRegs.frameRangeOf {g h : Regs} (hk : VisitRegs g h) : frameRangeOf h = frameRangeOf g := by
  rw [hk]
  rfl

/-- Clearing the count does not change what FRANGE finds. -/
theorem getTilePrologue_frameRangeOf (n : Nat) (s : State) :
    frameRangeOf (getTilePrologue n s).reg = frameRangeOf (frangeRegs s.reg) := by
  rw [getTilePrologue_reg]
  by_cases h : emptyOfImage s.reg = true
  · rw [frangeRegs_empty h, frangeRegs_empty (g := { s.reg with fopenCnt := 0 }) h]
    rfl
  · rw [frangeRegs_covered h, frangeRegs_covered (g := { s.reg with fopenCnt := 0 }) h]
    rfl

/-- The part of `get_tile` before the frames leaves the cursor, DISK_ROW and SR0..SC1 and clears the count (R142). -/
theorem getTilePrologue_cursors (n : Nat) (s : State) : frameCursor (getTilePrologue n s).reg = frameCursor s.reg ∧
    subCursor (getTilePrologue n s).reg = subCursor s.reg ∧ (getTilePrologue n s).reg.fopenCnt = 0 := by
  rw [getTilePrologue_reg]
  unfold frangeRegs
  split <;> exact ⟨rfl, rfl, rfl⟩

/-- The registers after `get_tile`, from those before it. -/
structure TileResults (s t : State) : Prop where
  /-- The operands, the facade and the other results are unchanged (42_facade.md R165). -/
  others : TileRegs s.reg t.reg
  /-- EMPTY and FR0..FC1 are FRANGE's results (R142). -/
  range : frameRangeOf t.reg = frameRangeOf (frangeRegs s.reg)
  /-- The last frame that exists sets its registers. -/
  frame : frameCursor t.reg = lastOr (frameCursorAt s.reg) (frameCursor s.reg) (presentFrames s.env s.reg)
  /-- The last cell fetched sets its registers. -/
  sub : subCursor t.reg = lastOr subCursorAt (subCursor s.reg) (fetchedCells s.env s.reg)
  /-- One FRM.Open is counted for each frame that exists (R38). -/
  count : t.reg.fopenCnt = wordOfNat (presentFrames s.env s.reg).length
  /-- And one is asked. -/
  asked : openRequests t = openRequests s + (presentFrames s.env s.reg).length

theorem getTileBody_results {n : Nat} {s t : State} (hn : n ≤ 3) (himg : ImageIsFrames s.reg)
    (h : getTileBody n s = .ok t) : TileResults s t := by
  have hlog := getTileBody_log hn himg h
  have heffect := getTilePrologue_effect n s
  obtain ⟨hframe, hsub, hcount⟩ := getTilePrologue_cursors n s
  exact {
    others := (getTilePrologue_tileRegs n s).trans hlog.reg.tileRegs
    range := hlog.reg.frameRangeOf.trans (getTilePrologue_frameRangeOf n s)
    frame := by rw [hlog.frame, hframe]
    sub := by rw [hlog.sub, hsub, heffect.env, fetchedCells_eq]
    count := by rw [hlog.count, hcount, zero_add]
    asked := by rw [hlog.asked, heffect.openRequests_eq] }

/-- The count fits its register (R38). -/
theorem TileResults.u32_fopenCnt {s t : State} (h : TileResults s t) (hinv : Inv s) :
    u32 t.reg.fopenCnt = (presentFrames s.env s.reg).length := by
  obtain ⟨hh, hv⟩ := hinv.framesFit
  have hle := (presentFrames_length_le (e := s.env) hinv.imageIsFrames).trans (Nat.mul_le_mul hv hh)
  rw [h.count, u32_wordOfNat (by omega)]

/-- GETTILE at level 0 with its checks passed and every request answered. -/
theorem exec_getTile_results {n : Nat} {s : State} (hinv : Inv s) (hopen : OpenWith n s) (hfits : TileFits n s)
    (hans : AllAnswered s) : ∃ t, exec (.getTile 0) s = .next (done t) ∧ TileResults s t := by
  have hbands := bands_cases hopen.2
  obtain ⟨t, ht⟩ := getTileBody_completes (n := n) (by omega) hans
  exact ⟨t, exec_getTile_zero hopen hfits ht, getTileBody_results (by omega) hinv.imageIsFrames ht⟩

/-- The values of the registers that say which frame was last, for a frame of the grid. -/
theorem frameCursorAt_values {o g : Regs} {fr fc : Nat} (hc : CoveredFrame o fr fc)
    (h : frameCursor g = frameCursorAt o (fr, fc)) :
    u32 g.curFr = fr ∧ u32 g.curFc = fc ∧ u32 g.diskRow = u32 o.framesV - 1 - fr ∧
    u32 g.sr0 = firstSub (clip o).y0 (fr * 1536) ∧ u32 g.sr1 = lastSub (clip o).y1 (fr * 1536) ∧
    u32 g.sc0 = firstSub (clip o).x0 (fc * 1536) ∧ u32 g.sc1 = lastSub (clip o).x1 (fc * 1536) := by
  have hv := u32_lt o.framesV
  have hh := u32_lt o.framesH
  have hfr := hc.inRows
  have hfc := hc.inCols
  obtain ⟨hy, hy5, -⟩ := hc.meetsRows.subs
  obtain ⟨hx, hx5, -⟩ := hc.meetsCols.subs
  simp only [frameCursor, frameCursorAt, Prod.mk.injEq] at h
  obtain ⟨h1, h2, h3, h4, h5, h6, h7⟩ := h
  rw [h1, h2, h3, h4, h5, h6, h7]
  exact ⟨u32_wordOfNat (by omega), u32_wordOfNat (by omega), u32_wordOfNat (by omega), u32_wordOfNat (by omega),
    u32_wordOfNat (by omega), u32_wordOfNat (by omega), u32_wordOfNat (by omega)⟩

end Sys2Proof.Machine

open Sys2Proof Sys2Proof.Machine

/-- Settles O59: FRANGE's results stay, and the last entries of the log set the rest. -/
theorem getTileRegistersAfter : Obligations.GetTileRegistersAfter := by
  intro s n hinv hopen hfits hans c frames cells
  have himg : ImageIsFrames s.reg := hinv.imageIsFrames
  obtain ⟨t, hexec, hres⟩ := exec_getTile_results hinv hopen hfits hans
  have hrange := hres.range
  simp only [frameRangeOf, Prod.mk.injEq, frangeRegs_empty_eq] at hrange
  obtain ⟨hempty, hfr0, hfr1, hfc0, hfc1⟩ := hrange
  refine ⟨_, hexec, congrArg (fun g : Regs => { g with err := .ok }) hres.others, ?_, fun he => ?_, fun he => ?_,
    hres.u32_fopenCnt hinv, fun hnone => ?_, fun fr fc hlast => ?_, fun hnone => ?_, fun fr fc sr sc hlast => ?_⟩
  · rw [done_reg, hempty]
    exact emptyOfImage_iff
  · rw [done_reg, hempty] at he
    rw [done_reg, hfr0, hfr1, hfc0, hfc1, frangeRegs_empty he]
    exact ⟨rfl, rfl, rfl, rfl⟩
  · rw [done_reg, hempty] at he
    rw [done_reg, hfr0, hfr1, hfc0, hfc1]
    exact frangeRegs_values (Bool.eq_false_iff.1 he)
  · have hframe := hres.frame.trans (lastOr_none hnone)
    simp only [frameCursor, Prod.mk.injEq] at hframe
    exact hframe
  · have hframe := hres.frame.trans (lastOr_some hlast)
    exact frameCursorAt_values (coveredFrame_of_present himg (List.mem_of_getLast? hlast)) hframe
  · have hsub := hres.sub.trans (lastOr_none hnone)
    simp only [subCursor, Prod.mk.injEq] at hsub
    exact hsub
  · have hsub := hres.sub.trans (lastOr_some hlast)
    obtain ⟨hsr, hsc⟩ := fetchedCells_subs himg (List.mem_of_getLast? hlast)
    simp only [subCursor, subCursorAt, Prod.mk.injEq] at hsub
    rw [done_reg, hsub.1, hsub.2]
    exact ⟨u32_wordOfNat (by omega), u32_wordOfNat (by omega)⟩

/-- Settles O44: one FRM.Open is asked and counted for each frame that exists. -/
theorem getTileCountsOpens : Obligations.GetTileCountsOpens := by
  intro s n hinv hopen hfits hans
  obtain ⟨t, hexec, hres⟩ := exec_getTile_results hinv hopen hfits hans
  obtain ⟨acts, hhist, -⟩ := (exec_acts hexec).acts
  have htrace := portTrace_append s (done t) acts hhist
  refine ⟨done t, _, hexec, htrace, ?_⟩
  have hasked : openRequests (done t) = openRequests s + (presentFrames s.env s.reg).length := hres.asked
  rw [openRequests, htrace, List.filter_append, List.length_append] at hasked
  exact (hres.u32_fopenCnt hinv).trans (Nat.add_left_cancel hasked).symm
end

