-- ==== Sys2Proof/Proofs/InvariantKept.lean ====
section
/-! SUPPORT. Why every step keeps the invariant: its parts speak of the memory or of the registers alone; a command only writes
bytes of the five memories, and what it leaves in the registers is known case by case (60_exceptions.md R203, R209, 10_state.md
R24, R25, R33 to R37). -/

namespace Sys2Proof.Machine

/-! ### The invariant's two halves -/

/-- The part of the invariant that speaks of the memory (20_memory.md R60, R61). -/
structure MemInv (m : Memory) : Prop where
  canonical : m.wf = true
  mapped : ∀ a v, m.read a = some v → isMemory a = true

/-- FR0..FC1 fit (R35). -/
def FrameRangeFits (g : Regs) : Prop :=
  u32 g.fr0 ≤ u32 g.fr1 ∧ u32 g.fr1 ≤ 65534 ∧ u32 g.fc0 ≤ u32 g.fc1 ∧ u32 g.fc1 ≤ 65534

/-- SR0..SC1 fit (R36). -/
def SubRangeFits (g : Regs) : Prop :=
  u32 g.sr0 ≤ u32 g.sr1 ∧ u32 g.sr1 ≤ 5 ∧ u32 g.sc0 ≤ u32 g.sc1 ∧ u32 g.sc1 ≤ 5

/-- The part that speaks of the facade and the image (R24, R25, R33, R209). -/
structure FacadeInv (g : Regs) : Prop where
  notOpening : g.state ≠ .opening
  openProduct : g.state = .opened → g.product ≠ .unknown
  closedImage : g.state = .closed →
    g.product = .unknown ∧ g.imgW = 0 ∧ g.imgH = 0 ∧ g.framesH = 0 ∧ g.framesV = 0
  framesFit : u32 g.framesH ≤ 65535 ∧ u32 g.framesV ≤ 65535
  imageIsFrames : ImageIsFrames g

/-- The part of the invariant that speaks of the registers. -/
structure RegInv (g : Regs) : Prop where
  facade : FacadeInv g
  errWritten : g.err ≠ .frameUnavail ∧ g.err ≠ .corrupt
  frameRange : FrameRangeFits g
  subRange : SubRangeFits g
  diskRow : u32 g.diskRow ≤ 65534

theorem inv_iff {s : State} : Inv s ↔ MemInv s.mem ∧ RegInv s.reg := by
  constructor
  · intro h
    exact ⟨⟨h.memCanonical, h.memMapped⟩,
      ⟨h.notOpening, h.openProduct, h.closedImage, h.framesFit, h.imageIsFrames⟩,
      h.errWritten, h.frameRange, h.subRange, h.diskRowFits⟩
  · rintro ⟨hm, hr⟩
    exact {
      memCanonical := hm.canonical
      memMapped := hm.mapped
      notOpening := hr.facade.notOpening
      openProduct := hr.facade.openProduct
      closedImage := hr.facade.closedImage
      framesFit := hr.facade.framesFit
      imageIsFrames := hr.facade.imageIsFrames
      errWritten := hr.errWritten
      frameRange := hr.frameRange
      subRange := hr.subRange
      diskRowFits := hr.diskRow }

/-- The other fields of the state do not matter. -/
theorem Inv.of_same {s t : State} (h : Inv s) (hmem : t.mem = s.mem) (hreg : t.reg = s.reg) : Inv t := by
  rw [inv_iff, hmem, hreg]
  exact inv_iff.1 h

/-! ### The memory -/

theorem memInv_empty : MemInv ⟨[]⟩ := ⟨rfl, nofun⟩

theorem MemInv.write {m : Memory} (h : MemInv m) {a : Nat} (ha : isMemory a = true) (v : Byte) : MemInv (m.write a v) where
  canonical := wf_write m a v h.canonical
  mapped x w hx := by
    by_cases hax : a = x
    · exact hax ▸ ha
    · rw [read_write_other m a x v hax] at hx
      exact h.mapped x w hx

/-- The four bytes of an aligned word lie in one memory (R67). -/
theorem isMemory_word {a : Nat} (hal : a % 4 = 0) (h : isMemory a = true) {k : Nat} (hk : k < 4) :
    isMemory (a + k) = true := by
  simp only [isMemory, Bool.or_eq_true, covers_iff, base_cb, size_cb, base_pal, size_pal, base_cbuf, size_cbuf, base_blk,
    size_blk, base_tile, size_tile, Config.cbBase, Config.cbSize, Config.palBase, Config.palSize, Config.cbufBase,
    Config.cbufSize, Config.blkBase, Config.blkSize, Config.tileBase, Config.tileCap] at h ⊢
  omega

theorem MemInv.writeWord {m : Memory} (h : MemInv m) {a : Nat} (hal : a % 4 = 0) (ha : isMemory a = true) (w : Word) :
    MemInv (writeWord a w m) :=
  (((h.write ha _).write (isMemory_word hal ha (k := 1) (by decide)) _).write
    (isMemory_word hal ha (k := 2) (by decide)) _).write (isMemory_word hal ha (k := 3) (by decide)) _

theorem MemInv.replay {m : Memory} (h : MemInv m) {acts : List Act}
    (hacts : ∀ a v, Act.write a v ∈ acts → isMemory a = true) : MemInv (replay acts m) where
  canonical := wf_replay acts m h.canonical
  mapped a v hv := by
    obtain hsame | ⟨w, hw, -⟩ := read_replay_cases acts m a
    · exact h.mapped a v (hsame ▸ hv)
    · exact hacts a w hw

/-- A command's acts keep it. -/
theorem MemInv.of_acts {s t : State} (h : MemInv s.mem) (hacts : Acts s t) : MemInv t.mem := by
  obtain ⟨-, hreplay, hwrites, -⟩ := hacts.actsBetween_spec
  exact hreplay ▸ h.replay hwrites

/-! ### The registers, command by command -/

theorem regInv_reset : RegInv Regs.reset where
  facade := ⟨nofun, nofun, fun _ => ⟨rfl, rfl, rfl, rfl, rfl⟩, by decide, ⟨by decide, by decide⟩⟩
  errWritten := by decide
  frameRange := ⟨by decide, by decide, by decide, by decide⟩
  subRange := ⟨by decide, by decide, by decide, by decide⟩
  diskRow := by decide

theorem RegInv.withErr {g : Regs} (h : RegInv g) {e : ErrCode} (he : e ≠ .frameUnavail ∧ e ≠ .corrupt) :
    RegInv { g with err := e } where
  facade := { h.facade with }
  errWritten := he
  frameRange := h.frameRange
  subRange := h.subRange
  diskRow := h.diskRow

/-- The host writes no register that the invariant speaks of (10_state.md R20). -/
theorem RegInv.writeReg {g : Regs} (h : RegInv g) (r : RegName) (d : Word) : RegInv (writeReg r d g) := by
  have hfields : RegInv g := h
  obtain ⟨⟨hopening, hproduct, hclosed, hfit, himg⟩, herr, hframe, hsub, hdisk⟩ := h
  cases r with
  | handle | blank | rectX0 | rectY0 | rectW | rectH | curFr | curFc | curSr | curSc =>
    exact ⟨⟨hopening, hproduct, hclosed, hfit, himg⟩, herr, hframe, hsub, hdisk⟩
  | _ => exact hfields

theorem facadeInv_closed (g : Regs) : FacadeInv (closedRegs g) where
  notOpening := nofun
  openProduct := nofun
  closedImage _ := ⟨rfl, rfl, rfl, rfl, rfl⟩
  framesFit := by
    change u32 0 ≤ 65535 ∧ u32 0 ≤ 65535
    decide
  imageIsFrames := by
    change u32 0 = u32 0 * 1536 ∧ u32 0 = u32 0 * 1536
    decide

/-- The counts of a catalog answer have 16 bits, so the extent fits (43_external_ports.md R181, 10_state.md R33). -/
theorem facadeInv_open {p : ProductType} (hp : p ≠ .unknown) (r : CatAnswer) (g : Regs) : FacadeInv (openRegs p r g) := by
  have hh := r.framesH.isLt
  have hv := r.framesV.isLt
  have hH : u32 (openRegs p r g).framesH = r.framesH.toNat := u32_wordOfNat (by omega)
  have hV : u32 (openRegs p r g).framesV = r.framesV.toNat := u32_wordOfNat (by omega)
  have hW : u32 (openRegs p r g).imgW = r.framesH.toNat * 1536 :=
    u32_wordOfNat (show r.framesH.toNat * 1536 < 4294967296 by omega)
  have hHt : u32 (openRegs p r g).imgH = r.framesV.toNat * 1536 :=
    u32_wordOfNat (show r.framesV.toNat * 1536 < 4294967296 by omega)
  exact {
    notOpening := nofun
    openProduct := fun _ => hp
    closedImage := nofun
    framesFit := by
      rw [hH, hV]
      omega
    imageIsFrames := by
      rw [ImageIsFrames, hH, hV, hW, hHt]
      exact ⟨rfl, rfl⟩ }

theorem RegInv.opened {g : Regs} (h : RegInv g) {r : CatAnswer} {s : State} (hs : s.reg = { g with state := .opening }) :
    RegInv (settleOpen r s).reg := by
  have hframe : FrameRangeFits s.reg := hs ▸ h.frameRange
  have hsub : SubRangeFits s.reg := hs ▸ h.subRange
  have hdisk : u32 s.reg.diskRow ≤ 65534 := hs ▸ h.diskRow
  obtain hset | ⟨p, hp, hset⟩ := settleOpen_cases r s
  · rw [hset]
    exact ⟨{ facadeInv_closed s.reg with }, ⟨nofun, nofun⟩, hframe, hsub, hdisk⟩
  · rw [hset]
    exact ⟨{ facadeInv_open hp r s.reg with }, ⟨nofun, nofun⟩, hframe, hsub, hdisk⟩

theorem RegInv.closed {g : Regs} (h : RegInv g) : RegInv { closedRegs g with err := .ok } :=
  ⟨{ facadeInv_closed g with }, ⟨nofun, nofun⟩, h.frameRange, h.subRange, h.diskRow⟩

/-- A command that leaves the facade and the image leaves their part. -/
theorem FacadeInv.keep {g k : Regs} (h : FacadeInv g) (hk : KeepsFacade g k) : FacadeInv k := by
  obtain ⟨hstate, hproduct, hw, hh, hfh, hfv⟩ := hk
  obtain ⟨hopening, hopen, hclosed, hfit, himg⟩ := h
  constructor
  · rwa [hstate]
  · rwa [hstate, hproduct]
  · rwa [hstate, hproduct, hw, hh, hfh, hfv]
  · rwa [hfh, hfv]
  · rwa [ImageIsFrames, hw, hh, hfh, hfv]

/-- FRANGE's results fit: a frame that it finds is a frame of the grid (R35). -/
theorem frangeRegs_fits {g : Regs} (h : RegInv g) : FrameRangeFits (frangeRegs g) := by
  by_cases he : emptyOfImage g = true
  · rw [frangeRegs_empty he]
    exact ⟨le_refl _, Nat.zero_le _, le_refl _, Nat.zero_le _⟩
  · obtain ⟨hfr0, hfr1, hfc0, hfc1⟩ := frangeRegs_values he
    obtain ⟨hx0, hx, hx1, hy0, hy, hy1⟩ := clip_covered he
    obtain ⟨hh, hv⟩ := h.facade.framesFit
    obtain ⟨hw, hht⟩ := h.facade.imageIsFrames
    unfold FrameRangeFits
    omega

theorem RegInv.frange {g : Regs} (h : RegInv g) : RegInv { frangeRegs g with err := .ok } where
  facade := { h.facade.keep (TileRegs.frange g).keepsFacade with }
  errWritten := ⟨nofun, nofun⟩
  frameRange := frangeRegs_fits h
  subRange := by
    unfold frangeRegs
    split <;> exact h.subRange
  diskRow := by
    unfold frangeRegs
    split <;> exact h.diskRow

/-- SRANGE's results fit (R36). -/
theorem srangeRegs_fits (g : Regs) : SubRangeFits (srangeRegs g) := by
  by_cases he : emptyOfFrame g = true
  · rw [srangeRegs_empty he]
    exact ⟨le_refl _, Nat.zero_le _, le_refl _, Nat.zero_le _⟩
  · obtain ⟨hsr0, hsr1, hsc0, hsc1⟩ := srangeRegs_values he
    obtain ⟨-, hmx, hmy⟩ := not_emptyOfFrame_iff.1 he
    obtain ⟨hx, hx5, -⟩ := hmx.subs
    obtain ⟨hy, hy5, -⟩ := hmy.subs
    unfold SubRangeFits
    omega

theorem RegInv.srange {g : Regs} (h : RegInv g) (hgrid : frameInGrid g = true) :
    RegInv { srangeRegs g with err := .ok } where
  facade := { h.facade.keep (TileRegs.srange g).keepsFacade with }
  errWritten := ⟨nofun, nofun⟩
  frameRange := by
    unfold srangeRegs
    split <;> exact h.frameRange
  subRange := srangeRegs_fits g
  diskRow := by
    have hrow := srangeRegs_diskRow (frameInGrid_iff.1 hgrid).1
    have hfit := h.facade.framesFit.2
    dsimp only
    omega

/-- After a GETTILE the registers of the last frame that exists fit, or are those of before (R36, R37). -/
theorem TileResults.frame_fits {s t : State} (h : TileResults s t) (hinv : RegInv s.reg) :
    SubRangeFits t.reg ∧ u32 t.reg.diskRow ≤ 65534 := by
  cases hlast : (presentFrames s.env s.reg).getLast? with
  | none =>
    have hframe := h.frame.trans (lastOr_none hlast)
    simp only [frameCursor, Prod.mk.injEq] at hframe
    obtain ⟨-, -, hrow, hsr0, hsr1, hsc0, hsc1⟩ := hframe
    rw [SubRangeFits, hrow, hsr0, hsr1, hsc0, hsc1]
    exact ⟨hinv.subRange, hinv.diskRow⟩
  | some f =>
    have hframe := h.frame.trans (lastOr_some hlast)
    have hc := coveredFrame_of_present hinv.facade.imageIsFrames (List.mem_of_getLast? hlast)
    obtain ⟨-, -, hrow, hsr0, hsr1, hsc0, hsc1⟩ := frameCursorAt_values hc hframe
    obtain ⟨hx, hx5, -⟩ := hc.meetsCols.subs
    obtain ⟨hy, hy5, -⟩ := hc.meetsRows.subs
    have hfit := hinv.facade.framesFit.2
    unfold SubRangeFits
    omega

theorem RegInv.getTile {s t : State} (h : RegInv s.reg) (hres : TileResults s t) : RegInv { t.reg with err := .ok } where
  facade := { h.facade.keep hres.others.keepsFacade with }
  errWritten := ⟨nofun, nofun⟩
  frameRange := by
    have hrange := hres.range
    simp only [frameRangeOf, Prod.mk.injEq] at hrange
    obtain ⟨-, hfr0, hfr1, hfc0, hfc1⟩ := hrange
    have hfits := frangeRegs_fits h
    unfold FrameRangeFits at hfits ⊢
    rwa [hfr0, hfr1, hfc0, hfc1]
  subRange := (hres.frame_fits h).1
  diskRow := (hres.frame_fits h).2

/-- A command that passes its checks keeps the registers' part. -/
theorem RegInv.completes {i : Instr} {s t : State} (h : RegInv s.reg) (hdone : Completes i s t) : RegInv t.reg := by
  have hsame {u : State} (hu : u.reg = s.reg) : RegInv (done u).reg := by
    rw [done_reg, hu]
    exact h.withErr ⟨nofun, nofun⟩
  cases i with
  | openSource =>
    rw [show t = _ from hdone]
    exact h.opened rfl
  | closeSource =>
    rw [show t = _ from hdone]
    exact h.closed
  | getImageRect =>
    rw [show t = _ from hdone]
    exact { h.withErr (e := .ok) ⟨nofun, nofun⟩ with facade := { h.facade with } }
  | getTile level =>
    obtain ⟨n, u, hn, hu, rfl⟩ := hdone
    exact h.getTile (getTileBody_results (bands_le hn) h.facade.imageIsFrames hu)
  | decode =>
    obtain ⟨n, u, hu, rfl⟩ := hdone
    exact hsame ((decodeBody_quiet n s).1 u hu).2
  | frange =>
    rw [show t = _ from hdone]
    exact h.frange
  | srange =>
    rw [hdone.2]
    exact h.srange hdone.1
  | tfill =>
    obtain ⟨n, rfl⟩ := hdone
    exact hsame (tfillBody_fills n s).sets.1.reg
  | blkcopy =>
    obtain ⟨n, u, hu, rfl⟩ := hdone
    exact hsame ((blkcopyBody_quiet n s).1 u hu).2

theorem Inv.exec {i : Instr} {s t : State} (h : Inv s) (hexec : exec i s = .next t) : Inv t := by
  obtain ⟨hm, hr⟩ := inv_iff.1 h
  refine inv_iff.2 ⟨hm.of_acts (exec_acts hexec), ?_⟩
  obtain ⟨e, he, he', rfl⟩ | hdone := exec_ends hexec
  · exact hr.withErr ⟨he, he'⟩
  · exact hr.completes hdone

/-! ### The events -/

/-- Where the outcome goes on the invariant holds. -/
def KeepsInv (o : Host.Outcome State Fault Refusal) : Prop := ∀ t, o = .next t → Inv t

theorem KeepsInv.next {s : State} (h : Inv s) : KeepsInv (.next s) := fun _ ht => Host.Outcome.next.inj ht ▸ h

theorem KeepsInv.fault (f : Fault) : KeepsInv (.fault f) := fun t ht => by cases ht

theorem KeepsInv.refused (r : Refusal) : KeepsInv (.refused r) := fun t ht => by cases ht

theorem Inv.answering {s : State} (h : Inv s) (r : BusResp) (d : Word) : Inv (answering r d s) := h.of_same rfl rfl

theorem Inv.busError {s : State} (h : Inv s) : KeepsInv (busError s) := .next (h.answering ..)

theorem Inv.busOkay {s : State} (h : Inv s) (d : Word) : KeepsInv (busOkay d s) := .next (h.answering ..)

theorem Inv.answerRead {s : State} (h : Inv s) (r : Except Fault Word) : KeepsInv (answerRead r s) := by
  cases r with
  | ok d => exact h.busOkay d
  | error f => exact .fault f

theorem KeepsInv.acknowledge {o : Host.Outcome State Fault Refusal} (h : KeepsInv o) : KeepsInv (acknowledge o) := by
  cases o with
  | next t => exact .next ((h t rfl).answering ..)
  | fault f => exact .fault f
  | refused r => exact .refused r

theorem Inv.withMem {s : State} (h : Inv s) {m : Memory} (hm : MemInv m) : Inv { s with mem := m } :=
  inv_iff.2 ⟨hm, (inv_iff.1 h).2⟩

theorem Inv.withReg {s : State} (h : Inv s) {g : Regs} (hg : RegInv g) : Inv { s with reg := g } :=
  inv_iff.2 ⟨(inv_iff.1 h).1, hg⟩

theorem Inv.runWord {s : State} (h : Inv s) (w : Word) : KeepsInv (runWord w s) := by
  unfold Machine.runWord
  split
  · exact fun t ht => h.exec ht
  · exact .next (h.withReg ((inv_iff.1 h).2.withErr ⟨nofun, nofun⟩))

theorem Inv.serveRegWrite {s : State} (h : Inv s) (r : RegName) (d : Word) : KeepsInv (serveRegWrite r d s) := by
  unfold Machine.serveRegWrite
  split
  · exact h.busError
  · exact (h.withReg ((inv_iff.1 h).2.writeReg r d)).busOkay 0
  · exact (h.runWord d).acknowledge

theorem Inv.serveRead32 {s : State} (h : Inv s) (a : Nat) : KeepsInv (serveRead32 a s) := by
  unfold Machine.serveRead32
  split
  · exact h.busError
  split
  · split
    · exact h.busOkay _
    · exact h.busError
  split
  · exact h.answerRead _
  · exact h.busError

theorem Inv.serveWrite32 {s : State} (h : Inv s) (a : Nat) (d : Word) : KeepsInv (serveWrite32 a d s) := by
  unfold Machine.serveWrite32
  split
  case isTrue => exact h.busError
  case isFalse hal =>
    split
    · split
      · exact h.serveRegWrite _ d
      · exact h.busError
    split
    case isTrue hmem => exact (h.withMem ((inv_iff.1 h).1.writeWord (not_not.1 hal) hmem d)).busOkay 0
    case isFalse => exact h.busError

theorem Inv.serveRead8 {s : State} (h : Inv s) (a : Nat) : KeepsInv (serveRead8 a s) := by
  unfold Machine.serveRead8
  split
  · exact h.answerRead _
  · exact h.busError

theorem Inv.serveWrite8 {s : State} (h : Inv s) (a : Nat) (d : Word) : KeepsInv (serveWrite8 a d s) := by
  unfold Machine.serveWrite8
  split
  case isTrue hmem => exact (h.withMem ((inv_iff.1 h).1.write hmem _)).busOkay 0
  case isFalse => exact h.busError

theorem Inv.serveBus {s : State} (h : Inv s) (t : Txn) : KeepsInv (serveBus t s) := by
  unfold Machine.serveBus
  split
  · split
    · exact h.serveRead32 _
    · exact h.serveWrite32 _ _
  split
  · split
    · exact h.serveRead8 _
    · exact h.serveWrite8 _ _
  · exact h.busError

/-- What reset leaves of a command cut short (70_reset_and_hazards.md R230). -/
theorem Inv.cutAfter {s t : State} (h : Inv s) (hacts : Acts s t) (n : Nat) :
    Inv (cutAfter ((actsBetween s t).take n) s) := by
  obtain ⟨-, -, hwrites, -⟩ := hacts.actsBetween_spec
  exact inv_iff.2 ⟨(inv_iff.1 h).1.replay fun a v hv => hwrites a v (List.mem_of_mem_take hv), regInv_reset⟩

theorem Inv.abandon {s : State} (h : Inv s) (n : Nat) {r : Run State} (hr : Leads Acts s r) : KeepsInv (abandon n s r) := by
  unfold Machine.abandon
  split
  case h_1 t => exact .next (h.cutAfter (hr.1 t rfl) n)
  case h_2 q t => exact .next (h.cutAfter (hr.2 _ rfl) n)
  case h_3 why t _ =>
    split
    · exact .next (h.cutAfter (hr.2 _ rfl) n)
    · exact .fault why

theorem Inv.resetState {s : State} (h : Inv s) : Inv (resetState s) := inv_iff.2 ⟨(inv_iff.1 h).1, regInv_reset⟩

/-- Every event keeps the invariant. -/
theorem Inv.serve {s : State} (h : Inv s) (e : Event) : KeepsInv (serve e s) := by
  cases e with
  | bus t => exact h.serveBus t
  | reset => exact .next h.resetState
  | resetDuring w n =>
    simp only [Machine.serve, serveResetDuring]
    split
    case h_1 i _ => exact h.abandon n (runInstr_acts i s)
    case h_2 => exact .next h.resetState
  | powerUp => exact .next (inv_iff.2 ⟨memInv_empty, regInv_reset⟩)
  | envChange env => exact .next (h.of_same rfl rfl)

end Sys2Proof.Machine

open Sys2Proof Sys2Proof.Machine

/-- Settles O54: with nothing to serve the state stays, and every event keeps the invariant. -/
theorem stepKeepsInvariant : Obligations.StepKeepsInvariant := by
  intro s t h hstep
  unfold step at hstep
  split at hstep
  case h_1 => exact Host.Outcome.next.inj hstep ▸ h
  case h_2 e rest _ => exact Inv.serve (s := { s with inbox := rest }) (h.of_same rfl rfl) e t hstep
end

