-- ==== Sys2Proof/Proofs/MemoryAccess.lean ====
section
/-! SUPPORT. The memories as the host sees them (20_memory.md R61, R66 to R72): which transactions are bus errors, that a read
changes nothing, and what byte and word accesses read and write. -/

namespace Sys2Proof.Machine

/-! ### The ranges of R61 -/

theorem isReg_iff {a : Nat} : isReg a = true ↔ a ≤ 0xFF := by
  rw [isReg, decide_eq_true_eq]
  omega

theorem isMemory_iff {a : Nat} : isMemory a = true ↔
    (0x10000 ≤ a ∧ a ≤ 0x1FFFF) ∨ (0x20000 ≤ a ∧ a ≤ 0x203FF) ∨ (0x30000 ≤ a ∧ a ≤ 0x317FF) ∨
      (0x40000 ≤ a ∧ a ≤ 0x6FFFF) ∨ (0x800000 ≤ a ∧ a ≤ 0xFFFFFF) := by
  simp only [isMemory, Bool.or_eq_true, covers_iff, base_cb, size_cb, base_pal, size_pal, base_cbuf, size_cbuf, base_blk,
    size_blk, base_tile, size_tile, Config.cbBase, Config.cbSize, Config.palBase, Config.palSize, Config.cbufBase,
    Config.cbufSize, Config.blkBase, Config.blkSize, Config.tileBase, Config.tileCap]
  omega

/-- The memories lie above space REG. -/
theorem isReg_of_isMemory {a : Nat} (h : isMemory a = true) : isReg a = false := by
  have := isMemory_iff.1 h
  rw [Bool.eq_false_iff, ne_eq, isReg_iff]
  omega

/-! ### The offsets of the registers (R20) -/

theorem regAt_eq_none_iff {a : Nat} : regAt a = none ↔ ¬ (a % 4 = 0 ∧ a ≤ 0x7C) := by
  rw [← regAt_isSome_iff, Option.not_isSome_iff_eq_none]

theorem regAt_eq_some_iff {a : Nat} {r : RegName} : regAt a = some r ↔ a = regOffset r := by
  refine ⟨fun h => ?_, fun h => h ▸ regAt_regOffset r⟩
  obtain ⟨hal, -⟩ := regAt_aligned h
  rw [regAt, if_pos hal] at h
  obtain ⟨hlt, rfl⟩ := List.getElem?_eq_some_iff.1 h
  have hnodup : regNames.Nodup := by decide
  rw [regOffset, hnodup.idxOf_getElem]
  omega

theorem readOnlyOffsets_eq : readOnlyOffsets = (regNames.filter (regAccess · = .ro)).map regOffset := by decide

theorem mem_regNames (r : RegName) : r ∈ regNames := by cases r <;> decide

theorem mem_readOnlyOffsets_iff {a : Nat} : a ∈ readOnlyOffsets ↔ ∃ r, regAt a = some r ∧ regAccess r = .ro := by
  simp only [readOnlyOffsets_eq, List.mem_map, List.mem_filter, mem_regNames, true_and, decide_eq_true_eq,
    regAt_eq_some_iff]
  exact ⟨fun ⟨r, hro, ha⟩ => ⟨r, ha.symm, hro⟩, fun ⟨r, ha, hro⟩ => ⟨r, hro, ha.symm⟩⟩

/-! ### The six cases of R68 by width -/

/-- A Read32 or Write32 at this offset has nothing to access. -/
def NoWordAt (a : Nat) : Prop := a % 4 ≠ 0 ∨ (regAt a = none ∧ ¬ isMemory a = true)

theorem noWordAt_iff {a : Nat} : NoWordAt a ↔ ¬ Mapped a ∨ (0x80 ≤ a ∧ a ≤ 0xFF) ∨ a % 4 ≠ 0 := by
  rw [NoWordAt, regAt_eq_none_iff, isMemory_iff, Mapped]
  omega

theorem isBusError_byte {d : Dir} {a x : Word} : IsBusError ⟨d, 8, a, x⟩ ↔ ¬ isMemory a.toNat = true := by
  simp only [IsBusError, isMemory_iff, Mapped, Nat.reduceEqDiff, false_and, true_and, ne_eq, not_true_eq_false, false_or,
    or_false]
  omega

theorem isBusError_read32 {a x : Word} : IsBusError ⟨.read, 32, a, x⟩ ↔ NoWordAt a.toNat := by
  simp [IsBusError, noWordAt_iff]

theorem isBusError_write32 {a x : Word} : IsBusError ⟨.write, 32, a, x⟩ ↔
    NoWordAt a.toNat ∨ ∃ r, regAt a.toNat = some r ∧ regAccess r = .ro := by
  rw [noWordAt_iff, ← mem_readOnlyOffsets_iff]
  simp only [IsBusError]
  simp [or_assoc]

/-! ### Which transactions are served, and how -/

theorem serve_bus (t : Txn) (s : State) : serve (.bus t) s = serveBus t s := rfl

theorem serveBus_read8 (a x : Word) (s : State) : serveBus ⟨.read, 8, a, x⟩ s = serveRead8 a.toNat s := rfl

theorem serveBus_write8 (a d : Word) (s : State) : serveBus ⟨.write, 8, a, d⟩ s = serveWrite8 a.toNat d s := rfl

theorem serveBus_read32 (a x : Word) (s : State) : serveBus ⟨.read, 32, a, x⟩ s = serveRead32 a.toNat s := rfl

theorem serveBus_write32 (a d : Word) (s : State) : serveBus ⟨.write, 32, a, d⟩ s = serveWrite32 a.toNat d s := rfl

theorem serveRead8_memory {a : Nat} (h : isMemory a = true) (s : State) :
    serveRead8 a s = answerRead ((hostByte a s).map (fun v => v.zeroExtend 32)) s := if_pos h

theorem serveRead8_error {a : Nat} (h : ¬ isMemory a = true) (s : State) : serveRead8 a s = busError s := if_neg h

theorem serveWrite8_memory {a : Nat} (h : isMemory a = true) (d : Word) (s : State) :
    serveWrite8 a d s = busOkay 0 { s with mem := s.mem.write a (byteOf d 0) } := if_pos h

theorem serveWrite8_error {a : Nat} (h : ¬ isMemory a = true) (d : Word) (s : State) : serveWrite8 a d s = busError s :=
  if_neg h

theorem serveRead32_memory {a : Nat} (hal : a % 4 = 0) (h : isMemory a = true) (s : State) :
    serveRead32 a s = answerRead (hostWord a s) s := by
  simp [serveRead32, hal, isReg_of_isMemory h, h]

theorem serveRead32_error {a : Nat} (h : NoWordAt a) (s : State) : serveRead32 a s = busError s := by
  obtain hal | ⟨hreg, hmem⟩ := h
  · exact if_pos hal
  · simp [serveRead32, hreg, hmem]

theorem serveWrite32_memory {a : Nat} (hal : a % 4 = 0) (h : isMemory a = true) (d : Word) (s : State) :
    serveWrite32 a d s = busOkay 0 { s with mem := writeWord a d s.mem } := by
  simp [serveWrite32, hal, isReg_of_isMemory h, h]

theorem serveWrite32_error {a : Nat} (h : NoWordAt a) (d : Word) (s : State) : serveWrite32 a d s = busError s := by
  obtain hal | ⟨hreg, hmem⟩ := h
  · exact if_pos hal
  · simp [serveWrite32, hreg, hmem]

theorem serveRegWrite_ro {r : RegName} (h : regAccess r = .ro) (d : Word) (s : State) :
    serveRegWrite r d s = busError s := by
  simp only [serveRegWrite, h]

/-- Where a word access is no error it meets a register or an aligned word of a memory. -/
theorem wordAt_cases {a : Nat} (h : ¬ NoWordAt a) : (∃ r, regAt a = some r) ∨ (a % 4 = 0 ∧ isMemory a = true) := by
  simp only [NoWordAt, not_or, not_not, not_and] at h
  obtain ⟨hal, hmem⟩ := h
  cases hreg : regAt a with
  | some r => exact .inl ⟨r, rfl⟩
  | none => exact .inr ⟨hal, hmem hreg⟩

theorem width_of_no_error {t : Txn} (h : ¬ IsBusError t) : t.width = 8 ∨ t.width = 32 := by
  simp only [IsBusError] at h
  omega

theorem serveBus_width {t : Txn} (h8 : t.width ≠ 8) (h32 : t.width ≠ 32) (s : State) : serveBus t s = busError s := by
  rw [serveBus, if_neg h32, if_neg h8]

/-! ### ERROR and OKAY (R66, R68) -/

/-- In each of the six cases of R68 the answer is ERROR and nothing changes. -/
theorem serveBus_error {t : Txn} (h : IsBusError t) (s : State) : serveBus t s = busError s := by
  obtain ⟨dir, width, a, x⟩ := t
  by_cases h8 : width = 8
  · subst h8
    have hmem := isBusError_byte.1 h
    cases dir with
    | read => exact serveRead8_error hmem s
    | write => exact serveWrite8_error hmem x s
  by_cases h32 : width = 32
  · subst h32
    cases dir with
    | read => exact serveRead32_error (isBusError_read32.1 h) s
    | write =>
      obtain hno | ⟨r, hr, hro⟩ := isBusError_write32.1 h
      · exact serveWrite32_error hno x s
      · exact (serve_write32_reg hr x s).trans (serveRegWrite_ro hro x s)
  · exact serveBus_width h8 h32 s

/-- If the transaction is answered, the answer is OKAY. -/
def AnswersOkay (o : Host.Outcome State Fault Refusal) : Prop := ∀ u, o = .next u → ∃ d, u.answer = some ⟨.okay, d⟩

theorem busOkay_answersOkay (d : Word) (s : State) : AnswersOkay (busOkay d s) := by
  rintro u ⟨⟩
  exact ⟨d, rfl⟩

/-- A read that is answered changes the answer alone. -/
theorem answerRead_eq_next {r : Except Fault Word} {s u : State} (h : answerRead r s = .next u) :
    ∃ d, u = answering .okay d s := by
  cases r with
  | ok d => exact ⟨d, (Host.Outcome.next.inj h).symm⟩
  | error f => cases h

theorem answerRead_answersOkay (r : Except Fault Word) (s : State) : AnswersOkay (answerRead r s) := by
  intro u h
  obtain ⟨d, rfl⟩ := answerRead_eq_next h
  exact ⟨d, rfl⟩

theorem acknowledge_answersOkay (o : Host.Outcome State Fault Refusal) : AnswersOkay (acknowledge o) := by
  intro u h
  cases o with
  | next t => exact busOkay_answersOkay 0 t u h
  | fault f => cases h
  | refused r => cases h

theorem serveRegWrite_answersOkay {r : RegName} (h : regAccess r ≠ .ro) (d : Word) (s : State) :
    AnswersOkay (serveRegWrite r d s) := by
  unfold serveRegWrite
  split
  case h_1 hro => exact absurd hro h
  case h_2 => exact busOkay_answersOkay _ _
  case h_3 => exact acknowledge_answersOkay _

/-- A read that is no error is answered with what it reads, if that has a value. -/
theorem serveBus_read {width : Nat} {a x : Word} (h : ¬ IsBusError ⟨.read, width, a, x⟩) (s : State) :
    ∃ r, serveBus ⟨.read, width, a, x⟩ s = answerRead r s := by
  obtain rfl | rfl : width = 8 ∨ width = 32 := width_of_no_error h
  · exact ⟨_, serveRead8_memory (not_not.1 (mt isBusError_byte.2 h)) s⟩
  · obtain ⟨r, hr⟩ | ⟨hal, hmem⟩ := wordAt_cases (mt isBusError_read32.2 h)
    · exact ⟨.ok (readReg r s.reg), serve_read32_reg hr x s⟩
    · exact ⟨_, serveRead32_memory hal hmem s⟩

theorem serveBus_write_answersOkay {width : Nat} {a d : Word} (h : ¬ IsBusError ⟨.write, width, a, d⟩) (s : State) :
    AnswersOkay (serveBus ⟨.write, width, a, d⟩ s) := by
  obtain rfl | rfl : width = 8 ∨ width = 32 := width_of_no_error h
  · rw [serveBus_write8, serveWrite8_memory (not_not.1 (mt isBusError_byte.2 h))]
    exact busOkay_answersOkay _ _
  · obtain ⟨hword, hro⟩ := not_or.1 (mt isBusError_write32.2 h)
    obtain ⟨r, hr⟩ | ⟨hal, hmem⟩ := wordAt_cases hword
    · rw [← serve_bus, serve_write32_reg hr]
      exact serveRegWrite_answersOkay (fun h => hro ⟨r, hr, h⟩) d s
    · rw [serveBus_write32, serveWrite32_memory hal hmem]
      exact busOkay_answersOkay _ _

/-- Outside the six cases of R68 a transaction that is answered gets OKAY. -/
theorem serveBus_answersOkay {t : Txn} (h : ¬ IsBusError t) (s : State) : AnswersOkay (serveBus t s) := by
  obtain ⟨dir, width, a, x⟩ := t
  cases dir with
  | read =>
    obtain ⟨r, hr⟩ := serveBus_read h s
    rw [hr]
    exact answerRead_answersOkay r s
  | write => exact serveBus_write_answersOkay h s

/-! ### What a read changes and answers (R66, R70, R72) -/

/-- A read changes no state but the answer to the host. -/
theorem serveBus_read_frame {t : Txn} (hdir : t.dir = .read) {s u : State} (hu : serveBus t s = .next u) :
    u = { s with answer := u.answer } := by
  by_cases herr : IsBusError t
  · rw [serveBus_error herr] at hu
    cases Host.Outcome.next.inj hu
    rfl
  · obtain ⟨dir, width, a, x⟩ := t
    cases hdir
    obtain ⟨r, hr⟩ := serveBus_read herr s
    obtain ⟨d, rfl⟩ := answerRead_eq_next (hr.symm.trans hu)
    rfl

theorem hostByte_some {a : Nat} {s : State} {v : Byte} (h : s.mem.read a = some v) : hostByte a s = .ok v := by
  simp only [hostByte, h]

theorem hostByte_none {a : Nat} {s : State} (h : s.mem.read a = none) : hostByte a s = .error (.unwrittenByte a) := by
  simp only [hostByte, h]

/-- Four bytes with values make a word, the lowest offset in bits [7:0] (R70). -/
theorem hostWord_of_reads {a : Nat} {s : State} {b0 b1 b2 b3 : Byte} (h0 : s.mem.read a = some b0)
    (h1 : s.mem.read (a + 1) = some b1) (h2 : s.mem.read (a + 2) = some b2) (h3 : s.mem.read (a + 3) = some b3) :
    hostWord a s = .ok (b3 ++ b2 ++ b1 ++ b0) := by
  simp only [hostWord, hostByte_some h0, hostByte_some h1, hostByte_some h2, hostByte_some h3, bind, Except.bind]

/-! ### The bytes of a word (R70) -/

theorem byteOf_eq (w : Word) (k : Nat) : byteOf w k = BitVec.ofNat 8 (w.toNat / 256 ^ k) := by
  apply BitVec.eq_of_toNat_eq
  rw [byteOf, BitVec.extractLsb'_toNat, BitVec.toNat_ofNat, Nat.shiftRight_eq_div_pow, Nat.pow_mul]

theorem byteOf_zero (w : Word) : byteOf w 0 = w.setWidth 8 := (BitVec.setWidth_eq_extractLsb' (by decide)).symm

theorem zeroExtend_byteOf (w : Word) (k : Nat) : (byteOf w k).zeroExtend 32 = BitVec.ofNat 32 (w.toNat / 256 ^ k % 256) := by
  apply BitVec.eq_of_toNat_eq
  rw [byteOf_eq, BitVec.zeroExtend_eq_setWidth, BitVec.toNat_setWidth, BitVec.toNat_ofNat, BitVec.toNat_ofNat]

/-- The four bytes of a word, put together, are the word. -/
theorem append_byteOf (w : Word) : byteOf w 3 ++ byteOf w 2 ++ byteOf w 1 ++ byteOf w 0 = w := by
  simp only [byteOf]
  rw [BitVec.extractLsb'_append_extractLsb'_eq_extractLsb' (start₂ := 8 * 3) (start₁ := 8 * 2) rfl,
    BitVec.extractLsb'_append_extractLsb'_eq_extractLsb' (start₂ := 8 * 2) (start₁ := 8 * 1) rfl,
    BitVec.extractLsb'_append_extractLsb'_eq_extractLsb' (start₂ := 8 * 1) (start₁ := 8 * 0) rfl]
  exact BitVec.extractLsb'_eq_self

/-- A Write32 stores byte `k` of the word at offset `a + k`. -/
theorem read_writeWord_byte (a : Nat) (w : Word) (m : Memory) {k : Nat} (hk : k < 4) :
    (writeWord a w m).read (a + k) = some (byteOf w k) := by
  obtain rfl | rfl | rfl | rfl : k = 0 ∨ k = 1 ∨ k = 2 ∨ k = 3 := by omega
  all_goals simp [writeWord]

theorem read_writeWord_other {a x : Nat} (w : Word) (m : Memory) (h : x < a ∨ a + 4 ≤ x) :
    (writeWord a w m).read x = m.read x := by
  rw [writeWord, read_write_other _ _ _ _ (by omega), read_write_other _ _ _ _ (by omega),
    read_write_other _ _ _ _ (by omega), read_write_other _ _ _ _ (by omega)]

/-! ### Steps that access a memory -/

theorem step_read8 {s : State} {a x : Word} {rest : List Event} (hmem : isMemory a.toNat = true)
    (h : s.inbox = .bus ⟨.read, 8, a, x⟩ :: rest) {v : Byte} (hv : s.mem.read a.toNat = some v) :
    step s = .next { s with inbox := rest, answer := some ⟨.okay, v.zeroExtend 32⟩ } := by
  have hbyte : hostByte a.toNat { s with inbox := rest } = .ok v := hostByte_some hv
  rw [step_serve h, serve_bus, serveBus_read8, serveRead8_memory hmem, hbyte]
  rfl

/-- The read of a byte without a value stops the model (70_reset_and_hazards.md R232, log entry 4). -/
theorem step_read8_unwritten {s : State} {a x : Word} {rest : List Event} (hmem : isMemory a.toNat = true)
    (h : s.inbox = .bus ⟨.read, 8, a, x⟩ :: rest) (hv : s.mem.read a.toNat = none) :
    step s = .fault (.unwrittenByte a.toNat) := by
  have hbyte : hostByte a.toNat { s with inbox := rest } = .error (.unwrittenByte a.toNat) := hostByte_none hv
  rw [step_serve h, serve_bus, serveBus_read8, serveRead8_memory hmem, hbyte]
  rfl

theorem step_write8 {s : State} {a d : Word} {rest : List Event} (hmem : isMemory a.toNat = true)
    (h : s.inbox = .bus ⟨.write, 8, a, d⟩ :: rest) : step s = .next { s with
      mem := s.mem.write a.toNat (byteOf d 0), inbox := rest, answer := some ⟨.okay, 0⟩ } := by
  rw [step_serve h]
  exact serveWrite8_memory hmem d _

theorem step_read32 {s : State} {a x : Word} {rest : List Event} (hal : a.toNat % 4 = 0) (hmem : isMemory a.toNat = true)
    (h : s.inbox = .bus ⟨.read, 32, a, x⟩ :: rest) {b0 b1 b2 b3 : Byte} (h0 : s.mem.read a.toNat = some b0)
    (h1 : s.mem.read (a.toNat + 1) = some b1) (h2 : s.mem.read (a.toNat + 2) = some b2)
    (h3 : s.mem.read (a.toNat + 3) = some b3) :
    step s = .next { s with inbox := rest, answer := some ⟨.okay, b3 ++ b2 ++ b1 ++ b0⟩ } := by
  have hword : hostWord a.toNat { s with inbox := rest } = .ok (b3 ++ b2 ++ b1 ++ b0) := hostWord_of_reads h0 h1 h2 h3
  rw [step_serve h, serve_bus, serveBus_read32, serveRead32_memory hal hmem, hword]
  rfl

theorem step_write32 {s : State} {a d : Word} {rest : List Event} (hal : a.toNat % 4 = 0)
    (hmem : isMemory a.toNat = true) (h : s.inbox = .bus ⟨.write, 32, a, d⟩ :: rest) : step s = .next { s with
      mem := writeWord a.toNat d s.mem, inbox := rest, answer := some ⟨.okay, 0⟩ } := by
  rw [step_serve h]
  exact serveWrite32_memory hal hmem d _

end Sys2Proof.Machine

open Sys2Proof Sys2Proof.Machine

/-- Settles O11: the six cases, width by width, are those in which the bus answers ERROR. -/
theorem busErrorsAreExactlyR68 : Obligations.BusErrorsAreExactlyR68 := by
  refine ⟨fun a => ⟨isReg_iff, isMemory_iff⟩, fun s t rest hinbox => ?_⟩
  rw [step_serve hinbox]
  exact ⟨fun herr => serveBus_error herr _, fun hok => serveBus_answersOkay hok _⟩

/-- Settles O12: a read only answers. -/
theorem readsHaveNoSideEffect : Obligations.ReadsHaveNoSideEffect := by
  constructor
  · intro s a d r rest hr hinbox
    rw [step_serve hinbox, serve_read32_reg hr]
    rfl
  · intro s t rest u hinbox hdir hu
    rw [step_serve hinbox] at hu
    exact serveBus_read_frame hdir hu

/-- Settles O13: the four bytes of a word are stored and put together again in the same order. -/
theorem wordAccessIsLittleEndian : Obligations.WordAccessIsLittleEndian := by
  intro s a d rest hal hmem hinbox
  have hbyte {k : Nat} (hk : k < 4) := read_writeWord_byte a.toNat d s.mem hk
  refine ⟨_, step_write32 hal hmem hinbox, rfl, rfl, rfl, fun k hk => ?_, fun x hx => read_writeWord_other d s.mem hx,
    fun x more => ?_, fun b x more k hk hb => ?_, fun b0 b1 b2 b3 x more h0 h1 h2 h3 => ?_⟩
  · rw [← byteOf_eq]
    exact hbyte hk
  · have hread := step_read32 hal hmem (s := { s with
      mem := writeWord a.toNat d s.mem, inbox := .bus ⟨.read, 32, a, x⟩ :: more, answer := some ⟨.okay, 0⟩ }) rfl
      (hbyte (k := 0) (by decide)) (hbyte (k := 1) (by decide)) (hbyte (k := 2) (by decide)) (hbyte (k := 3) (by decide))
    rwa [append_byteOf] at hread
  · rw [← zeroExtend_byteOf]
    exact step_read8 (hb ▸ isMemory_word hal hmem hk) rfl (hb ▸ hbyte hk)
  · exact step_read32 hal hmem (s := { s with inbox := .bus ⟨.read, 32, a, x⟩ :: more }) rfl h0 h1 h2 h3

/-- Settles O14: a byte is written and read at its own offset. -/
theorem byteAccess : Obligations.ByteAccess := by
  intro s a rest hmem
  refine ⟨fun d hinbox => ⟨_, step_write8 hmem hinbox, rfl, rfl, ?_, fun x hx => read_write_other _ _ _ _ hx.symm⟩,
    fun d hinbox => ?_⟩
  · rw [← byteOf_zero]
    exact read_write_same ..
  · cases hv : s.mem.read a.toNat with
    | some v => exact step_read8 hmem hinbox hv
    | none => exact step_read8_unwritten hmem hinbox hv
end

