-- ==== Sys2Proof/Proofs/TileBytes.lean ====
section
/-! SUPPORT. The bytes of a tile: where the offset formula puts them (41_compositor.md R141), and which bytes of memory a
GETTILE can change (20_memory.md R71, 70_reset_and_hazards.md R235). -/

namespace Sys2Proof.Machine

theorem planar_natCast (plane stride band row col : Nat) :
    planar plane stride band row col = band * plane + row * stride + col := by
  rw [planar]
  norm_cast

/-- A GETTILE that ends changed only bytes of its scratch and of its tile: none at all if it took a command error. -/
theorem exec_getTile_read_other {n : Nat} {s t : State} (hopen : OpenWith n s) (h : exec (.getTile 0) s = .next t) {a : Nat}
    (ha : ¬ InScratchOrTile n s.reg a) : t.mem.read a = s.mem.read a := by
  obtain ⟨e, -, -, rfl⟩ | ⟨m, u, hm, hu, rfl⟩ := exec_ends h
  · rfl
  · obtain rfl : m = n := Option.some.inj (hm.symm.trans hopen.2)
    have hvisits := (getTileBody_visits m ((bands_le hm).trans (by decide)) s).1 u hu
    obtain ⟨heffect, -⟩ := hvisits (TileRegs.refl s.reg)
    exact heffect.read_other ha

end Sys2Proof.Machine

open Sys2Proof Sys2Proof.Machine

/-- Settles O29: band, row and column are the quotients and the remainder of the offset. -/
theorem tileOffsetsAreDistinct : Obligations.TileOffsetsAreDistinct := by
  intro n w h b r c b' r' c' hb hr hc _ hr' hc'
  simp only [planar_natCast]
  refine ⟨planar_lt hb hr hc, fun heq => ?_⟩
  obtain ⟨hband, hrow, hcol⟩ := planar_apart (b := b) hr hc
  obtain ⟨hband', hrow', hcol'⟩ := planar_apart (b := b') hr' hc'
  rw [heq] at hband hrow hcol
  exact ⟨hband.symm.trans hband', hrow.symm.trans hrow', hcol.symm.trans hcol'⟩

/-- Settles O42: a byte that changed is one of the scratch or of the tile. -/
theorem getTileWritesOnlyItsBytes : Obligations.GetTileWritesOnlyItsBytes := by
  intro s t n hopen h a hchanged
  obtain (hcb | hpal) | hcbuf | hblk | htile := not_not.1 (mt (exec_getTile_read_other hopen h) hchanged)
  · exact .inl hcb
  · exact .inr (.inr (.inl hpal))
  · exact .inr (.inl hcbuf)
  · exact .inr (.inr (.inr (.inl hblk)))
  · exact .inr (.inr (.inr (.inr htile)))
end

