-- ==== Sys2Proof/Proofs/CommandWords.lean ====
section
/-! SUPPORT. Command words (30_encoding.md R90 to R99): the three fields of a word, and that a word decodes to a command exactly
when it is that command's encoding. -/

namespace Sys2Proof

/-! ### The fields of format C (R91) -/

/-- A word is its three fields, put together. -/
theorem append_fields (w : Word) : opField w ++ zeroField w ++ immField w = w := by
  simp only [opField, zeroField, immField]
  rw [BitVec.extractLsb'_append_extractLsb'_eq_extractLsb' (start₂ := 24) (start₁ := 8) rfl,
    BitVec.extractLsb'_append_extractLsb'_eq_extractLsb' (start₂ := 8) (start₁ := 0) rfl]
  exact BitVec.extractLsb'_eq_self

theorem opField_append (op : BitVec 8) (zero : BitVec 16) (imm : BitVec 8) : opField (op ++ zero ++ imm) = op := by
  rw [opField, BitVec.extractLsb'_append_eq_of_le (by decide)]
  exact BitVec.extractLsb'_append_eq_left

theorem zeroField_append (op : BitVec 8) (zero : BitVec 16) (imm : BitVec 8) : zeroField (op ++ zero ++ imm) = zero := by
  rw [zeroField, BitVec.extractLsb'_append_eq_of_le (by decide)]
  exact BitVec.extractLsb'_append_eq_right

theorem immField_append (op : BitVec 8) (zero : BitVec 16) (imm : BitVec 8) : immField (op ++ zero ++ imm) = imm :=
  BitVec.extractLsb'_append_eq_right

/-- A word is the encoding of a command if and only if its fields are the command's. -/
theorem encode_eq_iff {i : Instr} {w : Word} :
    encode i = w ↔ zeroField w = 0 ∧ opField w = opcodeOf i ∧ immField w = immOf i := by
  constructor
  · rintro rfl
    exact ⟨zeroField_append .., opField_append .., immField_append ..⟩
  · rintro ⟨hzero, hop, himm⟩
    rw [encode, ← hop, ← himm, ← hzero, append_fields]

/-! ### Decoding (R99) -/

/-- The level that R99 reads from `imm8` fits it. -/
theorem getTile_immField (w : Word) : WellFormed (.getTile (immField w).toNat) = true ∧
    immField w = immOf (.getTile (immField w).toNat) := by
  refine ⟨decide_eq_true (immField w).isLt, ?_⟩
  rw [immOf, BitVec.ofNat_toNat, BitVec.setWidth_eq]

/-- What the tests of R99 have established of a word when they end with a command. -/
theorem fields_of_decode {w : Word} {i : Instr} (h : decode w = .command i) :
    WellFormed i = true ∧ zeroField w = 0 ∧ opField w = opcodeOf i ∧ immField w = immOf i := by
  unfold decode at h
  split at h
  case isTrue => cases h
  case isFalse hzero =>
    split at h
    case isTrue hget =>
      cases h
      obtain ⟨hwf, himm⟩ := getTile_immField w
      exact ⟨hwf, not_not.1 hzero, hget, himm⟩
    case isFalse =>
      split at h
      case isTrue => cases h
      case isFalse himm =>
        -- The tests left are of the opcode alone, so the one that holds is the goal's.
        repeat' split at h
        all_goals cases h
        all_goals exact ⟨rfl, not_not.1 hzero, by assumption, not_not.1 himm⟩

/-- A word with the fields of a well-formed command passes the tests of R99 up to that command. -/
theorem decode_of_fields {w : Word} {i : Instr} (hwf : WellFormed i = true) (hzero : zeroField w = 0)
    (hop : opField w = opcodeOf i) (himm : immField w = immOf i) : decode w = .command i := by
  cases i with
  | getTile level =>
    have hlevel : (immField w).toNat = level := by
      rw [himm, immOf, BitVec.toNat_ofNat]
      exact Nat.mod_eq_of_lt (of_decide_eq_true hwf)
    simp [decode, hzero, hop, opcodeOf, hlevel]
  | _ => simp [decode, hzero, hop, himm, opcodeOf, immOf]

/-- The decoder answers a command exactly on that command's encoding. -/
theorem decode_eq_command_iff {w : Word} {i : Instr} :
    decode w = .command i ↔ WellFormed i = true ∧ encode i = w := by
  rw [encode_eq_iff]
  exact ⟨fields_of_decode, fun ⟨hwf, hzero, hop, himm⟩ => decode_of_fields hwf hzero hop himm⟩

theorem decode_getTile {w : Word} (hzero : zeroField w = 0) (hop : opField w = 0x03) :
    decode w = .command (.getTile (immField w).toNat) := by
  obtain ⟨hwf, himm⟩ := getTile_immField w
  exact decode_of_fields hwf hzero hop himm

/-! ### The opcode table (R93) -/

/-- A command's own row selects its encoding. -/
theorem row_selects_encode {i : Instr} (h : WellFormed i = true) :
    ∃ row, opcodeTable[rowIndex i]? = some row ∧ row.selects (encode i) = true := by
  cases i with
  | openSource => exact Laws.RowMatch.openSource h
  | closeSource => exact Laws.RowMatch.closeSource h
  | getTile level => exact Laws.RowMatch.getTile level h
  | getImageRect => exact Laws.RowMatch.getImageRect h
  | decode => exact Laws.RowMatch.decode h
  | frange => exact Laws.RowMatch.frange h
  | srange => exact Laws.RowMatch.srange h
  | tfill => exact Laws.RowMatch.tfill h
  | blkcopy => exact Laws.RowMatch.blkcopy h

/-- Every row fixes the whole word, to that of its command, but the row of GETTILE, which leaves `imm8` free. -/
theorem opcodeTable_row {k : Nat} {row : Row} (h : opcodeTable[k]? = some row) :
    (row.mask = 0xFFFFFFFF ∧ ∃ i, decode row.pattern = .command i ∧ rowIndex i = k) ∨
      (row.mask = 0xFFFFFF00 ∧ row.pattern = 0x03000000 ∧ k = 2) := by
  match k, h with
  | 0, rfl | 1, rfl | 3, rfl | 4, rfl | 5, rfl | 6, rfl | 7, rfl | 8, rfl => exact .inl ⟨rfl, _, rfl, rfl⟩
  | 2, rfl => exact .inr ⟨rfl, rfl, rfl⟩

theorem Row.selects_iff {row : Row} {w : Word} : row.selects w = true ↔ w &&& row.mask = row.pattern := beq_iff_eq

/-- The bits that GETTILE's mask keeps are the fields `op` and `zero16`. -/
theorem fields_of_getTile_mask {w : Word} (h : w &&& 0xFFFFFF00 = 0x03000000) : zeroField w = 0 ∧ opField w = 0x03 := by
  have hzero := congrArg zeroField h
  have hop := congrArg opField h
  rw [zeroField, BitVec.extractLsb'_and] at hzero
  rw [opField, BitVec.extractLsb'_and] at hop
  exact ⟨BitVec.and_allOnes.symm.trans hzero, BitVec.and_allOnes.symm.trans hop⟩

/-- A word that a row selects decodes to the command of that row. -/
theorem decode_of_selects {k : Nat} {row : Row} {w : Word} (hrow : opcodeTable[k]? = some row)
    (hsel : row.selects w = true) : ∃ i, decode w = .command i ∧ rowIndex i = k := by
  rw [Row.selects_iff] at hsel
  obtain ⟨hmask, i, hdec, hindex⟩ | ⟨hmask, hpattern, rfl⟩ := opcodeTable_row hrow
  · have hword : w = row.pattern := by
      rw [← hsel, hmask]
      exact BitVec.and_allOnes.symm
    exact ⟨i, hword ▸ hdec, hindex⟩
  · rw [hmask, hpattern] at hsel
    obtain ⟨hzero, hop⟩ := fields_of_getTile_mask hsel
    exact ⟨_, decode_getTile hzero hop, rfl⟩

/-! ### Illegal words (R94) -/

/-- A command of each row of the opcode table, with immediate zero. -/
def commands : List Instr :=
  [.openSource, .closeSource, .getTile 0, .getImageRect, .decode, .frange, .srange, .tfill, .blkcopy]

theorem opcodes_eq : commands.map opcodeOf = [0x01, 0x02, 0x03, 0x04, 0x10, 0x11, 0x12, 0x13, 0x14] := rfl

theorem opcodeOf_mem (i : Instr) : opcodeOf i ∈ commands.map opcodeOf := by
  cases i with
  | getTile level => exact List.mem_map_of_mem (a := Instr.getTile 0) (by decide)
  | _ => exact List.mem_map_of_mem (by decide)

theorem wellFormed_and_immOf_of_mem_commands : ∀ i ∈ commands, WellFormed i = true ∧ immOf i = 0 := by decide

/-- The legal words: the reserved field is zero, a command has the opcode, and only GETTILE has an immediate. -/
theorem exists_command_iff {w : Word} : (∃ i, decode w = .command i) ↔
    zeroField w = 0 ∧ opField w ∈ commands.map opcodeOf ∧ (opField w = 0x03 ∨ immField w = 0) := by
  constructor
  · rintro ⟨i, hdec⟩
    obtain ⟨-, hzero, hop, himm⟩ := fields_of_decode hdec
    rw [hop, himm]
    refine ⟨hzero, opcodeOf_mem i, ?_⟩
    cases i with
    | getTile level => exact .inl rfl
    | _ => exact .inr rfl
  · rintro ⟨hzero, hmem, hget | himm⟩
    · exact ⟨_, decode_getTile hzero hget⟩
    · obtain ⟨i, hi, hop⟩ := List.mem_map.1 hmem
      obtain ⟨hwf, himm'⟩ := wellFormed_and_immOf_of_mem_commands i hi
      exact ⟨i, decode_of_fields hwf hzero hop.symm (himm.trans himm'.symm)⟩

theorem exists_illegal_iff {w : Word} : (∃ why, decode w = .illegal why) ↔ ¬ ∃ i, decode w = .command i := by
  cases decode w <;> simp

end Sys2Proof

namespace Sys2Proof.Machine

theorem runWord_illegal {w : Word} {why : Illegal} (h : decode w = .illegal why) (s : State) :
    runWord w s = .next (raiseErr .illegal s) := by
  simp only [runWord, h]

end Sys2Proof.Machine

open Sys2Proof Sys2Proof.Machine

/-- Settles O2: a word decodes to a command exactly when it is that command's encoding. -/
theorem decodeAndEncodeAgree : Obligations.DecodeAndEncodeAgree :=
  ⟨fun _ hwf => decode_eq_command_iff.2 ⟨hwf, rfl⟩, fun _ _ hdec => decode_eq_command_iff.1 hdec⟩

/-- Settles O3: a legal word is its command's encoding, which that row selects; a row's bits fix its command. -/
theorem decodeFollowsOpcodeTable : Obligations.DecodeFollowsOpcodeTable := by
  refine fun w => ⟨fun i hdec => ?_, fun k row hrow hsel => decode_of_selects hrow hsel⟩
  obtain ⟨hwf, rfl⟩ := decode_eq_command_iff.1 hdec
  exact row_selects_encode hwf

/-- Settles O4: the illegal words are those that are not legal, and such a word takes the command error alone. -/
theorem illegalWordOnlySetsErr : Obligations.IllegalWordOnlySetsErr := by
  intro w s rest
  constructor
  · rw [exists_illegal_iff, exists_command_iff, opcodes_eq]
    tauto
  · rintro hinbox ⟨why, hdec⟩
    rw [step_serve hinbox, serve_commandEvent, runWord_illegal hdec]
    rfl

/-- Settles O1, by the tests of R99 on each word. -/
theorem knownWordsDecode : Obligations.KnownWordsDecode := by
  unfold Obligations.KnownWordsDecode
  decide
end

