-- ==== Sys2Proof/Proofs/ProgramLines.lean ====
section
/-! SUPPORT. What a run of register writes leaves (30_encoding.md R97, R98). -/

namespace Sys2Proof.Machine

/-- A value that fits a signed register is stored as its two's complement (R97, 00_scope.md R11). -/
theorem s32_wordOf {v : Int} (h0 : -2147483648 ≤ v) (h : v < 2147483648) : s32 (wordOf v) = v :=
  BitVec.toInt_ofInt_eq_self (by decide) h0 h

/-- The registers after the host has written these values to them, in order. -/
def writeRegs (writes : List (RegName × Int)) (g : Regs) : Regs :=
  writes.foldl (fun g p => writeReg p.1 (wordOf p.2) g) g

theorem run_succ {s t : State} (h : step s = .next t) (k : Nat) :
    Host.Core.run core (k + 1) s = Host.Core.run core k t := by
  have hcore : core.step s = .next t := h
  simp only [Host.Core.run, hcore]

/-- Writes of RW registers, one a step, leave their values in the registers and change nothing else. -/
theorem run_writeRegs {writes : List (RegName × Int)} (hrw : ∀ p ∈ writes, regAccess p.1 = .rw) {s : State}
    (hne : writes ≠ []) (h : s.inbox = writes.map fun p => writeRegEvent p.1 p.2) :
    Host.Core.run core writes.length s =
      .next { s with reg := writeRegs writes s.reg, inbox := [], answer := some ⟨.okay, 0⟩ } := by
  induction writes generalizing s with
  | nil => exact absurd rfl hne
  | cons p rest ih =>
    have hstep := step_writeReg s p.1 p.2 _ h (hrw p List.mem_cons_self)
    rw [List.length_cons, run_succ hstep]
    cases rest with
    | nil => rfl
    | cons q rest => exact ih (fun r hr => hrw r (List.mem_cons_of_mem p hr)) (List.cons_ne_nil q rest) rfl

end Sys2Proof.Machine

open Sys2Proof Sys2Proof.Machine

/-- Settles O17: the lines are runs of register writes. -/
theorem programLinesWriteTheirRegisters : Obligations.ProgramLinesWriteTheirRegisters := by
  refine ⟨regAt_regOffset, fun v => ⟨u32_wordOf, s32_wordOf⟩, fun _ _ _ _ => rfl, fun _ _ => rfl, fun _ _ => rfl,
    fun s x0 y0 w h hinbox => ?_, fun s fr fc sr sc hinbox => ?_⟩
  · have hrun := run_writeRegs (writes := [(.rectX0, x0), (.rectY0, y0), (.rectW, w), (.rectH, h)]) (by simp [regAccess])
      (s := s.withProgram [.setRect x0 y0 w h]) (by simp) (by rw [State.withProgram, hinbox]; rfl)
    rw [hinbox]
    exact hrun
  · have hrun := run_writeRegs (writes := [(.curFr, fr), (.curFc, fc), (.curSr, sr), (.curSc, sc)]) (by simp [regAccess])
      (s := s.withProgram [.setFrame fr fc, .setSub sr sc]) (by simp) (by rw [State.withProgram, hinbox]; rfl)
    rw [hinbox]
    exact hrun
end

section
/-! SUPPORT. What a DECODE that ended has done (40_decode.md R110 to R118): each byte it consumes had a value, and the offsets
it wrote, in order, are those of the BANDS planes, each once. -/

namespace Sys2Proof.Machine

/-! ### The command -/

/-- In Open, DECODE runs its body and then records success (R110). -/
theorem exec_decode_eq {n : Nat} {s : State} (h : OpenWith n s) :
    exec .decode s = conclude (decodeBody n s >>= fun t => .ok (done t)) := by
  rw [exec_eq, runInstr, runDecode, whenOpen_opened h.1, withBands_some h.2]

/-- A DECODE in Open that ends has run its body to the end. -/
theorem decode_next {n : Nat} {s t : State} (hopen : OpenWith n s) (h : exec .decode s = .next t) :
    ∃ u, decodeBody n s = .ok u ∧ t = done u := by
  rw [exec_decode_eq hopen] at h
  exact bind_done_eq_ok (conclude_eq_next h)

theorem OpenWith.bands_le {n : Nat} {s : State} (h : OpenWith n s) : 0 < n ∧ n ≤ 3 := by
  have := bands_cases h.2
  omega

/-! ### What the parts of the body that ended have read -/

theorem memRead_eq_ok {sp : Space} {o : Nat} {s : State} {v : Byte} (h : memRead sp o s = .ok v) :
    s.mem.read (sp.base + o) = some v := by
  unfold memRead at h
  split at h
  case h_1 w hw =>
    cases h
    exact hw
  case h_2 => cases h

theorem decodeBand_eq_ok {i j t e b : Nat} {idx1 idx2 : Byte} {s u : State}
    (h : decodeBand i j t e idx1 idx2 b s = .ok u) :
    ∃ v1 v2, s.mem.read (Config.palBase + (idx1.toNat * 4 + b)) = some v1 ∧
      (memWrite .blk (blkOffset b (i + t) (j + e)) v1 s).mem.read (Config.palBase + (idx2.toNat * 4 + b)) = some v2 ∧
      u = memWrite .blk (blkOffset b (i + t) (j + e + 4)) v2 (memWrite .blk (blkOffset b (i + t) (j + e)) v1 s) := by
  obtain ⟨v1, h1, h⟩ := bind_eq_ok h
  obtain ⟨v2, h2, h⟩ := bind_eq_ok h
  exact ⟨v1, v2, memRead_eq_ok h1, memRead_eq_ok h2, (Except.ok.inj h).symm⟩

theorem decodePlace_eq_ok {n i j t e : Nat} {c1 c2 : BitVec 12} {s u : State}
    (h : decodePlace n i j c1 c2 t e s = .ok u) :
    ∃ idx1 idx2, s.mem.read (Config.cbBase + (t * 16384 + (c1.toNat * 4 + e))) = some idx1 ∧
      s.mem.read (Config.cbBase + (t * 16384 + (c2.toNat * 4 + e))) = some idx2 ∧
      forEach (List.range n) (decodeBand i j t e idx1 idx2) s = .ok u := by
  obtain ⟨idx1, h1, h⟩ := bind_eq_ok h
  obtain ⟨idx2, h2, h⟩ := bind_eq_ok h
  exact ⟨idx1, idx2, memRead_eq_ok h1, memRead_eq_ok h2, h⟩

theorem decodeTriple_eq_ok {n i j : Nat} {s u : State} (h : decodeTriple n i j s = .ok u) :
    ∃ b0 b1 b2, Triple s.mem i j b0 b1 b2 ∧
      forEach (upTo 0 3) (fun t => forEach (upTo 0 3) (fun e =>
        decodePlace n i j (code1 b0 b1) (code2 b1 b2) t e)) s = .ok u := by
  obtain ⟨b0, h0, h⟩ := bind_eq_ok h
  obtain ⟨b1, h1, h⟩ := bind_eq_ok h
  obtain ⟨b2, h2, h⟩ := bind_eq_ok h
  exact ⟨b0, b1, b2, ⟨memRead_eq_ok h0, memRead_eq_ok h1, memRead_eq_ok h2⟩, h⟩

/-! ### The bytes consumed had values -/

/-- Of a loop that ended every pass ended, from a state that `P` holds of. -/
theorem forEach_passes {α : Type} {body : α → State → Run State} {P : State → Prop} {xs : List α} {s t : State}
    (h0 : P s) (hstep : ∀ x ∈ xs, ∀ u v, P u → body x u = .ok v → P v) (h : forEach xs body s = .ok t) :
    ∀ x ∈ xs, ∃ u v, P u ∧ body x u = .ok v := by
  induction xs generalizing s with
  | nil => simp
  | cons y rest ih =>
    cases hb : body y s with
    | error e =>
      rw [forEach_cons_error hb] at h
      cases h
    | ok w =>
      rw [forEach_cons_ok hb] at h
      have hrest := ih (hstep y List.mem_cons_self s w h0 hb) (fun x hx => hstep x (List.mem_cons_of_mem y hx)) h
      exact List.forall_mem_cons.2 ⟨⟨s, w, h0, hb⟩, hrest⟩

/-- A part of the body, ended, leaves what it reads as it was (R116). -/
theorem Decoding.of_leads {m : Memory} {n : Nat} {s u : State} {r : Run State} (hs : Decoding m n s)
    (h : Leads (Quiet (InPlanes n)) s r) (hu : r = .ok u) : Decoding m n u :=
  fun a ha => ((h.1 u hu).1.read_other ha).trans (hs a ha)

theorem decodePlace_quiet {n i j t e : Nat} (c1 c2 : BitVec 12) (s : State) (hr : i + t < 256) (hc : j + e + 4 < 256) :
    Leads (Quiet (InPlanes n)) s (decodePlace n i j c1 c2 t e s) := by
  have hrefl := Quiet.refl (InPlanes n)
  refine Leads.read hrefl fun idx1 _ => Leads.read hrefl fun idx2 _ => Leads.loop hrefl Quiet.trans (fun b hb u => ?_) s
  exact decodeBand_quiet idx1 idx2 u (List.mem_range.1 hb) hr hc

/-- A row of places of the two groups of a triple. -/
theorem decodeRow_quiet {n i j t : Nat} (c1 c2 : BitVec 12) (s : State) (hr : i + t < 256) (hc : j + 7 < 256) :
    Leads (Quiet (InPlanes n)) s (forEach (upTo 0 3) (fun e => decodePlace n i j c1 c2 t e) s) := by
  refine Leads.loop (Quiet.refl _) Quiet.trans (fun e he u => decodePlace_quiet c1 c2 u hr ?_) s
  have := mem_upTo.1 he
  omega

theorem decodeTriple_quiet {n i j : Nat} (s : State) (hi : i % 4 = 0 ∧ i < 256) (hj : j % 8 = 0 ∧ j < 256) :
    Leads (Quiet (InPlanes n)) s (decodeTriple n i j s) := by
  have hrefl := Quiet.refl (InPlanes n)
  refine Leads.read hrefl fun b0 _ => Leads.read hrefl fun b1 _ => Leads.read hrefl fun b2 _ => ?_
  refine Leads.loop hrefl Quiet.trans (fun t ht u => decodeRow_quiet _ _ u ?_ (by omega)) s
  have := mem_upTo.1 ht
  omega

theorem palette_not_inPlanes {n b : Nat} (idx : Byte) (hb : b < 4) :
    ¬ InPlanes n (Config.palBase + (idx.toNat * 4 + b)) := by
  have := idx.isLt
  simp only [InPlanes, Config.palBase, Config.blkBase]
  omega

theorem codebook_not_inPlanes {n t e : Nat} (c : BitVec 12) (ht : t < 4) (he : e < 4) :
    ¬ InPlanes n (Config.cbBase + (t * 16384 + (c.toNat * 4 + e))) := by
  have := c.isLt
  simp only [InPlanes, Config.cbBase, Config.blkBase]
  omega

theorem triple_not_inPlanes {n i j k : Nat} (hi : i < 256) (hj : j < 256) (hk : k < 3) :
    ¬ InPlanes n (Config.cbufBase + (tripleAt i j + k)) := by
  simp only [InPlanes, Config.cbufBase, Config.blkBase, tripleAt]
  omega

theorem Decoding.triple {m : Memory} {n i j : Nat} {s : State} {b0 b1 b2 : Byte} (hs : Decoding m n s)
    (h : Triple s.mem i j b0 b1 b2) (hi : i < 256) (hj : j < 256) : Triple m i j b0 b1 b2 where
  at0 := (hs _ (triple_not_inPlanes hi hj (k := 0) (by omega))).symm.trans h.at0
  at1 := (hs _ (triple_not_inPlanes hi hj (by omega))).symm.trans h.at1
  at2 := (hs _ (triple_not_inPlanes hi hj (by omega))).symm.trans h.at2

/-- The band of a place that ended has found both its palette bytes. -/
theorem decodeBand_found {m : Memory} {n i j t e b : Nat} {idx1 idx2 : Byte} {s u : State} (hs : Decoding m n s)
    (hb : b < 4) (h : decodeBand i j t e idx1 idx2 b s = .ok u) :
    (m.read (Config.palBase + (idx1.toNat * 4 + b))).isSome = true ∧
      (m.read (Config.palBase + (idx2.toNat * 4 + b))).isSome = true := by
  obtain ⟨v1, v2, h1, h2, -⟩ := decodeBand_eq_ok h
  have hne : Config.blkBase + blkOffset b (i + t) (j + e) ≠ Config.palBase + (idx2.toNat * 4 + b) := by
    have := idx2.isLt
    simp only [Config.palBase, Config.blkBase]
    omega
  rw [memWrite_mem, base_blk, read_write_other _ _ _ _ hne] at h2
  rw [← hs _ (palette_not_inPlanes idx1 hb), ← hs _ (palette_not_inPlanes idx2 hb), h1, h2]
  exact ⟨rfl, rfl⟩

/-- A place that ended, in any of its bands: both its pixels decode to a value (R113, R114). -/
theorem decodePlace_decodes {m : Memory} {n i j t e b : Nat} {b0 b1 b2 : Byte} {s u : State} (hs : Decoding m n s)
    (hn : n ≤ 3) (htr : Triple m i j b0 b1 b2) (hi : i % 4 = 0 ∧ i < 256) (hj : j % 8 = 0 ∧ j < 256) (ht : t < 4)
    (he : e < 4) (hb : b < n) (h : decodePlace n i j (code1 b0 b1) (code2 b1 b2) t e s = .ok u) :
    (decodedByte m b (i + t) (j + e)).isSome = true ∧ (decodedByte m b (i + t) (j + (e + 4))).isSome = true := by
  obtain ⟨idx1, idx2, h1, h2, hloop⟩ := decodePlace_eq_ok h
  rw [hs _ (codebook_not_inPlanes _ ht he)] at h1 h2
  obtain ⟨w, w', hw, hband⟩ := forEach_passes hs (fun b hb x y hx hy => hx.of_leads
    (decodeBand_quiet idx1 idx2 x (List.mem_range.1 hb) (by omega) (by omega)) hy) hloop b (List.mem_range.2 hb)
  have hfound := decodeBand_found hw (by omega) hband
  have hcode1 : groupCode b0 b1 b2 e = (code1 b0 b1).toNat := by
    rw [groupCode, if_pos (by omega), code1_toNat]
  have hcode2 : groupCode b0 b1 b2 (e + 4) = (code2 b1 b2).toNat := by
    rw [groupCode, if_neg (by omega), code2_toNat]
  rw [decodedByte_of_triple htr b t e hi.1 hj.1 ht (by omega), decodedByte_of_triple htr b t (e + 4) hi.1 hj.1 ht (by omega),
    hcode1, hcode2, Nat.add_mod_right, Nat.mod_eq_of_lt he, h1, h2]
  exact hfound

/-- A triple that ended: every pixel of its two groups decodes to a value (R110). -/
theorem decodeTriple_decodes {m : Memory} {n i j t c b : Nat} {s u : State} (hs : Decoding m n s) (hn : n ≤ 3)
    (hi : i % 4 = 0 ∧ i < 256) (hj : j % 8 = 0 ∧ j < 256) (ht : t < 4) (hc : c < 8) (hb : b < n)
    (h : decodeTriple n i j s = .ok u) : (decodedByte m b (i + t) (j + c)).isSome = true := by
  obtain ⟨b0, b1, b2, htr, hloop⟩ := decodeTriple_eq_ok h
  have htr := hs.triple htr hi.2 hj.2
  obtain ⟨w, w', hw, hrow⟩ := forEach_passes hs (fun t ht x y hx hy => by
    have := mem_upTo.1 ht
    exact hx.of_leads (decodeRow_quiet _ _ x (by omega) (by omega)) hy) hloop t (mem_upTo.2 (by omega))
  obtain ⟨x, x', hx, hplace⟩ := forEach_passes hw (fun e he y z hy hz => by
    have := mem_upTo.1 he
    exact hy.of_leads (decodePlace_quiet _ _ y (by omega) (by omega)) hz) hrow (c % 4) (mem_upTo.2 (by omega))
  obtain ⟨hleft, hright⟩ := decodePlace_decodes hx hn htr hi hj ht (Nat.mod_lt c (by omega)) hb hplace
  by_cases h4 : c < 4
  · rwa [Nat.mod_eq_of_lt h4] at hleft
  · rwa [show c % 4 + 4 = c by omega] at hright

/-- A decode that ended had a value in every byte it consumes: with `decodeBody_fills`, it ends exactly then (R110, R232). -/
theorem decodable_of_ended {n : Nat} {s t : State} (hn : n ≤ 3) (h : decodeBody n s = .ok t) : Decodable s.mem n := by
  intro b hb r hr c hc
  have hi : r / 4 * 4 % 4 = 0 ∧ r / 4 * 4 < 256 := by omega
  have hj : c / 8 * 8 % 8 = 0 ∧ c / 8 * 8 < 256 := by omega
  have hstart : Decoding s.mem n s := fun _ _ => rfl
  obtain ⟨u, u', hu, hband⟩ := forEach_passes hstart (fun i hi x y hx hy => hx.of_leads
    (Leads.loop (Quiet.refl _) Quiet.trans
      (fun j hj z => decodeTriple_quiet z (mem_rowBands.1 hi) (mem_colBands.1 hj)) x) hy) h _ (mem_rowBands.2 hi)
  obtain ⟨w, w', hw, htriple⟩ := forEach_passes hu (fun j hj x y hx hy => hx.of_leads
    (decodeTriple_quiet x hi (mem_colBands.1 hj)) hy) hband _ (mem_colBands.2 hj)
  have hpixel := decodeTriple_decodes hw hn hi hj (Nat.mod_lt r (by omega)) (Nat.mod_lt c (by omega)) hb htriple
  rwa [Nat.div_add_mod' r 4, Nat.div_add_mod' c 8] at hpixel

/-! ### The offsets written, in order -/

/-- From `s` to `t` the acts recorded are writes at exactly these host offsets, in this order. -/
def WritesAt (offsets : List Nat) (s t : State) : Prop :=
  ∃ new : List (Nat × Byte), t.hist = new.map (fun p => Act.write p.1 p.2) ++ s.hist ∧
    new.map Prod.fst = offsets.reverse

theorem WritesAt.refl (s : State) : WritesAt [] s s := ⟨[], rfl, rfl⟩

theorem WritesAt.trans {xs ys : List Nat} {s t u : State} (h1 : WritesAt xs s t) (h2 : WritesAt ys t u) :
    WritesAt (xs ++ ys) s u := by
  obtain ⟨new1, ht, hxs⟩ := h1
  obtain ⟨new2, hu, hys⟩ := h2
  exact ⟨new2 ++ new1, by simp [ht, hu], by simp [hxs, hys]⟩

theorem memWrite_writesAt (sp : Space) (o : Nat) (v : Byte) (s : State) : WritesAt [sp.base + o] s (memWrite sp o v s) :=
  ⟨[(sp.base + o, v)], rfl, rfl⟩

/-- A loop that ended has written what its passes write, one pass after the other. -/
theorem forEach_writesAt {α : Type} {body : α → State → Run State} {offsets : α → List Nat} {xs : List α}
    (hpass : ∀ x s t, body x s = .ok t → WritesAt (offsets x) s t) {s t : State} (h : forEach xs body s = .ok t) :
    WritesAt (xs.flatMap offsets) s t := by
  induction xs generalizing s with
  | nil =>
    cases h
    exact WritesAt.refl _
  | cons x rest ih =>
    cases hb : body x s with
    | error e =>
      rw [forEach_cons_error hb] at h
      cases h
    | ok u =>
      rw [forEach_cons_ok hb] at h
      exact (hpass x s u hb).trans (ih h)

/-- The offsets that the place `(t, e)` of the two groups of a triple writes, all bands (R114). -/
def placeOffsets (n i j t e : Nat) : List Nat :=
  (List.range n).flatMap fun b =>
    [Config.blkBase + blkOffset b (i + t) (j + e), Config.blkBase + blkOffset b (i + t) (j + e + 4)]

/-- The offsets that a triple writes (R118). -/
def tripleOffsets (n i j : Nat) : List Nat :=
  (upTo 0 3).flatMap fun t => (upTo 0 3).flatMap fun e => placeOffsets n i j t e

/-- The offsets that `decode()` writes (R110). -/
def bodyOffsets (n : Nat) : List Nat :=
  (upToBy 0 252 4).flatMap fun i => (upToBy 0 248 8).flatMap fun j => tripleOffsets n i j

theorem decodeBand_writesAt {i j t e b : Nat} {idx1 idx2 : Byte} {s u : State}
    (h : decodeBand i j t e idx1 idx2 b s = .ok u) :
    WritesAt [Config.blkBase + blkOffset b (i + t) (j + e), Config.blkBase + blkOffset b (i + t) (j + e + 4)] s u := by
  obtain ⟨v1, v2, -, -, rfl⟩ := decodeBand_eq_ok h
  exact (memWrite_writesAt .blk _ v1 s).trans (memWrite_writesAt .blk _ v2 _)

theorem decodePlace_writesAt {n i j t e : Nat} {c1 c2 : BitVec 12} {s u : State}
    (h : decodePlace n i j c1 c2 t e s = .ok u) : WritesAt (placeOffsets n i j t e) s u := by
  obtain ⟨idx1, idx2, -, -, hloop⟩ := decodePlace_eq_ok h
  exact forEach_writesAt (fun _ _ _ hband => decodeBand_writesAt hband) hloop

theorem decodeTriple_writesAt {n i j : Nat} {s u : State} (h : decodeTriple n i j s = .ok u) :
    WritesAt (tripleOffsets n i j) s u := by
  obtain ⟨b0, b1, b2, -, hloop⟩ := decodeTriple_eq_ok h
  exact forEach_writesAt (fun _ _ _ hrow => forEach_writesAt (fun _ _ _ hplace => decodePlace_writesAt hplace) hrow) hloop

theorem decodeBody_writesAt {n : Nat} {s t : State} (h : decodeBody n s = .ok t) : WritesAt (bodyOffsets n) s t :=
  forEach_writesAt (fun _ _ _ hband => forEach_writesAt (fun _ _ _ htriple => decodeTriple_writesAt htriple) hband) h

/-- A triple writes the byte of each of its pixels in each band. -/
theorem mem_tripleOffsets {n i j t c b : Nat} (ht : t < 4) (hc : c < 8) (hb : b < n) :
    Config.blkBase + blkOffset b (i + t) (j + c) ∈ tripleOffsets n i j := by
  refine List.mem_flatMap.2 ⟨t, mem_upTo.2 (by omega), List.mem_flatMap.2 ⟨c % 4, mem_upTo.2 (by omega), ?_⟩⟩
  refine List.mem_flatMap.2 ⟨b, List.mem_range.2 hb, ?_⟩
  by_cases h4 : c < 4
  · rw [Nat.mod_eq_of_lt h4]
    exact List.mem_cons_self
  · rw [Nat.add_assoc j, show c % 4 + 4 = c by omega]
    exact List.mem_cons_of_mem _ List.mem_cons_self

/-- Every pixel lies in a triple, at the row-band and the column double-band of its row and column (R112, R114). -/
theorem mem_bodyOffsets {n r c b : Nat} (hr : r < 256) (hc : c < 256) (hb : b < n) :
    Config.blkBase + blkOffset b r c ∈ bodyOffsets n := by
  refine List.mem_flatMap.2 ⟨r / 4 * 4, mem_rowBands.2 (by omega), ?_⟩
  refine List.mem_flatMap.2 ⟨c / 8 * 8, mem_colBands.2 (by omega), ?_⟩
  have hpixel := mem_tripleOffsets (i := r / 4 * 4) (j := c / 8 * 8) (Nat.mod_lt r (by omega : 4 > 0))
    (Nat.mod_lt c (by omega : 8 > 0)) hb
  rwa [Nat.div_add_mod' r 4, Nat.div_add_mod' c 8] at hpixel

theorem length_flatMap_of_length {α β : Type} {f : α → List β} {k : Nat} (h : ∀ x, (f x).length = k) (xs : List α) :
    (xs.flatMap f).length = xs.length * k := by
  simp only [List.length_flatMap, h, List.map_const', List.sum_replicate, smul_eq_mul]

theorem length_placeOffsets (n i j t e : Nat) : (placeOffsets n i j t e).length = n * 2 := by
  rw [placeOffsets, length_flatMap_of_length (k := 2) (fun _ => rfl), List.length_range]

/-- All 2 × 16 × BANDS bytes of a triple (R118). -/
theorem length_tripleOffsets (n i j : Nat) : (tripleOffsets n i j).length = 4 * (4 * (n * 2)) :=
  length_flatMap_of_length (fun _ => length_flatMap_of_length (length_placeOffsets n i j _) _) _

theorem length_bodyOffsets (n : Nat) : (bodyOffsets n).length = n * 65536 := by
  have hlength : (bodyOffsets n).length = 64 * (32 * (4 * (4 * (n * 2)))) :=
    length_flatMap_of_length (fun _ => length_flatMap_of_length (length_tripleOffsets n _) _) _
  omega

/-- `decode()` writes every byte of the planes, and no more often than there are such bytes: each exactly once and no other. -/
theorem bodyOffsets_perm (n : Nat) : List.Perm (List.range' Config.blkBase (n * 65536)) (bodyOffsets n) := by
  have hevery : List.range' Config.blkBase (n * 65536) ⊆ bodyOffsets n := by
    intro a ha
    obtain ⟨hlo, hhi⟩ := List.mem_range'_1.1 ha
    have hmem := mem_bodyOffsets (n := n) (r := (a - Config.blkBase) % 65536 / 256) (c := (a - Config.blkBase) % 256)
      (b := (a - Config.blkBase) / 65536) (by omega) (by omega) (by omega)
    have hat : Config.blkBase + blkOffset ((a - Config.blkBase) / 65536) ((a - Config.blkBase) % 65536 / 256)
        ((a - Config.blkBase) % 256) = a := by
      simp only [blkOffset, Config.blkPlane, Config.subframeDim]
      omega
    rwa [hat] at hmem
  refine (List.subperm_of_subset List.nodup_range' hevery).perm_of_length_le ?_
  rw [length_bodyOffsets, List.length_range']

/-! ### Plane 0 -/

theorem groupCode_lt (b0 b1 b2 : Byte) (c : Nat) : groupCode b0 b1 b2 c < 4096 := by
  have := b0.isLt
  have := b1.isLt
  have := b2.isLt
  simp only [groupCode]
  split <;> omega

/-- A pixel's byte depends on CBUF, on CB and on its band's byte of the palette entries alone (R114, R117). -/
theorem decodedByte_congr {m k : Memory} {b r c : Nat} (hr : r < 256) (hc : c < 256)
    (hcbuf : ∀ p < 6144, m.read (Config.cbufBase + p) = k.read (Config.cbufBase + p))
    (hcb : ∀ p < 65536, m.read (Config.cbBase + p) = k.read (Config.cbBase + p))
    (hpal : ∀ idx < 256, m.read (Config.palBase + (idx * 4 + b)) = k.read (Config.palBase + (idx * 4 + b))) :
    decodedByte m b r c = decodedByte k b r c := by
  simp only [decodedByte, Option.bind_eq_bind, Nat.add_assoc]
  rw [hcbuf _ (by omega), hcbuf _ (by omega), hcbuf _ (by omega)]
  refine Option.bind_congr fun b0 _ => Option.bind_congr fun b1 _ => Option.bind_congr fun b2 _ => ?_
  have hcode := groupCode_lt b0 b1 b2 c
  rw [hcb _ (by omega)]
  exact Option.bind_congr fun idx _ => hpal idx.toNat idx.isLt

/-! ### The codes of a triple -/

/-- Two fields side by side, as arithmetic. -/
theorem toNat_append_eq_add {v w : Nat} (x : BitVec v) (y : BitVec w) : (x ++ y).toNat = x.toNat * 2 ^ w + y.toNat := by
  rw [BitVec.toNat_append, ← Nat.shiftLeft_add_eq_or_of_lt y.isLt, Nat.shiftLeft_eq]

/-- The 24 bits of the two codes are those of the three bytes, in order (R111). -/
theorem code1_append_code2 (b0 b1 b2 : Byte) : code1 b0 b1 ++ code2 b1 b2 = b0 ++ b1 ++ b2 := by
  apply BitVec.eq_of_toNat_eq
  simp only [toNat_append_eq_add, code1_toNat, code2_toNat]
  omega

end Sys2Proof.Machine

open Sys2Proof Sys2Proof.Machine

/-- Settles O18: the codes as arithmetic, bounded as 12-bit values. -/
theorem codesOfTriple : Obligations.CodesOfTriple := fun b0 b1 b2 =>
  ⟨code1_toNat b0 b1, code2_toNat b1 b2, Nat.le_of_lt_succ (code1 b0 b1).isLt, Nat.le_of_lt_succ (code2 b1 b2).isLt,
    code1_append_code2 b0 b1 b2⟩

/-- Settles O19: the body fills the planes with the image of the bytes it consumes. -/
theorem decodeFillsBlock : Obligations.DecodeFillsBlock := by
  intro s n hopen hvalues
  obtain ⟨u, hu, hsets, hplanes⟩ := decodeBody_fills hvalues hopen.bands_le
  obtain ⟨heffect, hreg⟩ := hsets.quiet
  refine ⟨done u, ?_, ?_, heffect.env, heffect.inbox, heffect.answer, heffect.portTrace_eq, fun b hb r hr c hc => ?_,
    fun a ha => ?_⟩
  · rw [exec_decode_eq hopen, hu]
    rfl
  · rw [done_reg, hreg]
  · have hread := hplanes _ (inPlanes_at hb hr hc)
    rwa [blockImage_at _ _ _ _ hr hc] at hread
  · refine hsets.read_other ?_
    rintro ⟨hlo, hhi⟩
    omega

/-- Settles O21: the offsets written are a permutation of those of the planes. -/
theorem decodeWritesEachByteOnce : Obligations.DecodeWritesEachByteOnce := by
  intro s t n hopen hexec
  obtain ⟨u, hu, rfl⟩ := decode_next hopen hexec
  obtain ⟨new, hhist, hoffsets⟩ := decodeBody_writesAt hu
  have hperm : List.Perm (new.map Prod.fst) (List.range' Config.blkBase (n * 65536)) := by
    rw [hoffsets]
    exact (List.reverse_perm _).trans (bodyOffsets_perm n).symm
  exact ⟨new, hhist, hperm.nodup_iff.2 List.nodup_range', fun a => hperm.mem_iff.trans List.mem_range'_1⟩

/-- Settles O22: the RGB decode ended, so its bytes have values; band 0 of them is all that the Grayscale decode consumes. -/
theorem planeZeroIsGrayscale : Obligations.PlaneZeroIsGrayscale := by
  intro s1 s2 t1 hopen1 hopen2 hcbuf hcb hpal hexec1
  obtain ⟨u1, hu1, -⟩ := decode_next hopen1 hexec1
  have hvalues1 := decodable_of_ended (Nat.le_refl 3) hu1
  have hsame (r : Nat) (hr : r < 256) (c : Nat) (hc : c < 256) : decodedByte s1.mem 0 r c = decodedByte s2.mem 0 r c :=
    decodedByte_congr hr hc hcbuf hcb hpal
  have hvalues2 : Decodable s2.mem 1 := by
    intro b hb r hr c hc
    obtain rfl : b = 0 := by omega
    rw [← hsame r hr c hc]
    exact hvalues1 0 (by omega) r hr c hc
  obtain ⟨t, hexec, -, -, -, -, -, hplanes1, -⟩ := decodeFillsBlock s1 3 hopen1 hvalues1
  obtain rfl : t = t1 := Host.Outcome.next.inj (hexec.symm.trans hexec1)
  obtain ⟨t2, hexec2, -, -, -, -, -, hplanes2, -⟩ := decodeFillsBlock s2 1 hopen2 hvalues2
  refine ⟨t2, hexec2, fun r hr c hc => ?_⟩
  have h1 := hplanes1 0 (by omega) r hr c hc
  have h2 := hplanes2 0 (by omega) r hr c hc
  rw [Nat.zero_mul, Nat.zero_add] at h1 h2
  rw [h1, h2, hsame r hr c hc]
end

section
/-! SUPPORT. The commands of the compositor one by one (41_compositor.md R131 to R141): what each leaves when its checks pass, and
the errors of its argument and capacity checks (60_exceptions.md R206). -/

namespace Sys2Proof.Machine

/-! ### A command past its checks -/

theorem exec_frange_other {s : State} (h : s.reg.state ≠ .opened) : exec .frange s = .next (raiseErr .notOpen s) := by
  rw [exec_eq, runInstr, runFrange, whenOpen_other h, conclude_ok]

theorem exec_srange_outside {s : State} (h : s.reg.state = .opened) (hg : ¬ frameInGrid s.reg = true) :
    exec .srange s = .next (raiseErr .badArg s) := by
  rw [exec_eq, runInstr, runSrange, whenOpen_opened h, if_neg hg, conclude_ok]

/-- TFILL in Open, up to its capacity check (R138). -/
theorem exec_tfill_eq {n : Nat} {s : State} (h : OpenWith n s) :
    exec .tfill s = conclude (whenFits n s fun s => .ok (done (tfillBody n s))) := by
  rw [exec_eq, runInstr, runTfill, whenOpen_opened h.1, withBands_some h.2]

/-- BLKCOPY in Open with its cursor in both grids, up to its capacity check (R139). -/
theorem exec_blkcopy_eq {n : Nat} {s : State} (h : OpenWith n s) (hframe : frameInGrid s.reg = true)
    (hsub : subInFrame s.reg = true) :
    exec .blkcopy s = conclude (whenFits n s fun s => blkcopyBody n s >>= fun t => .ok (done t)) := by
  rw [exec_eq, runInstr, runBlkcopy, whenOpen_opened h.1, hframe, hsub, Bool.and_self, if_pos rfl, withBands_some h.2]

theorem exec_blkcopy_outside {s : State} (h : s.reg.state = .opened)
    (hg : ¬ (frameInGrid s.reg && subInFrame s.reg) = true) : exec .blkcopy s = .next (raiseErr .badArg s) := by
  rw [exec_eq, runInstr, runBlkcopy, whenOpen_opened h, if_neg hg, conclude_ok]

/-- GETTILE at level 0 in Open, up to its capacity check (42_facade.md R165). -/
theorem exec_getTile_eq {n : Nat} {s : State} (h : OpenWith n s) :
    exec (.getTile 0) s = conclude (whenFits n s fun s => getTileBody n s >>= fun t => .ok (done t)) := by
  rw [exec_eq, runInstr, runGetTile, whenOpen_opened h.1, if_neg (by decide), withBands_some h.2]

/-! ### The block of the cursor -/

/-- The block of the cursor is its cell (R137). -/
theorem inCell_iff_block {g : Regs} {x y : Int} :
    InCell (u32 g.curFr) (u32 g.curFc) (u32 g.curSr) (u32 g.curSc) x y ↔
      blockLeft g ≤ x ∧ x ≤ blockLeft g + 255 ∧ blockTop g ≤ y ∧ y ≤ blockTop g + 255 := by
  simp only [InCell, blockLeft, blockTop, Config.frameDim, Config.subframeDim]
  push_cast
  omega

/-- The copied pixels are those of rectangle and image in the cell of the cursor (R139). -/
theorem copied_iff_inCell {g : Regs} {x y : Int} : Copied g x y ↔
    Requested g x y ∧ InCell (u32 g.curFr) (u32 g.curFc) (u32 g.curSr) (u32 g.curSc) x y := by
  rw [copied_iff, inCell_iff_block]

/-- The byte of the tile at row `r` and column `c` is one the copy writes exactly when its pixel is copied (R141). -/
theorem inCopy_at_iff {n b r c : Nat} {g : Regs} (hb : b < n) (hr : r < rectHeight g) (hc : c < rectWidth g) :
    InCopy n g (Config.tileBase + (b * (rectWidth g * rectHeight g) + r * rectWidth g + c)) ↔
      Copied g (rectLeft g + c) (rectTop g + r) := by
  constructor
  · rintro ⟨b', -, x, y, hxy, ha⟩
    obtain ⟨-, -, -, -, hl, hw, ht, hh, -⟩ := hxy.bounds
    rw [copyTo_eq b' hl ht] at ha
    obtain ⟨-, hrow, hcol⟩ := planar_apart (b := b) hr hc
    obtain ⟨-, hrow', hcol'⟩ := planar_apart (b := b') (w := rectWidth g) (h := rectHeight g)
      (show (y - rectTop g).toNat < rectHeight g by omega) (show (x - rectLeft g).toNat < rectWidth g by omega)
    rw [Nat.add_left_cancel ha] at hrow hcol
    obtain rfl : x = rectLeft g + c := by
      have := hcol.symm.trans hcol'
      omega
    obtain rfl : y = rectTop g + r := by
      have := hrow.symm.trans hrow'
      omega
    exact hxy
  · intro hxy
    refine ⟨b, hb, _, _, hxy, ?_⟩
    rw [copyTo_eq b (by omega) (by omega)]
    simp only [add_sub_cancel_left, Int.toNat_natCast]

end Sys2Proof.Machine

open Sys2Proof Sys2Proof.Machine

/-- Settles O23: EMPTY or the four quotients, as the clip rectangle is empty or not. -/
theorem frangeResult : Obligations.FrangeResult := by
  refine ⟨rfl, fun s h => exec_frange_other h, fun s h => ?_⟩
  intro cx0 cx1 cy0 cy1
  have hempty : emptyOfImage s.reg = true ↔ cx0 > cx1 ∨ cy0 > cy1 := emptyOfImage_iff
  rw [exec_frange h, done, frangeBody]
  by_cases he : emptyOfImage s.reg = true
  · rw [if_pos (hempty.1 he), frangeRegs_empty he]
  · rw [if_neg (mt hempty.2 he), frangeRegs_covered he]
    rfl

/-- Settles O26: the cursor check is the one check after the state check. -/
theorem srangeBadArgument : Obligations.SrangeBadArgument := by
  intro s hopen hout
  refine exec_srange_outside hopen ?_
  rw [frameInGrid_iff]
  omega

/-- Settles O27: the inverted row counts from the other end of the grid. -/
theorem rowInversion : Obligations.RowInversion := by
  intro g hrow
  have hv := u32_lt g.framesV
  have hstored : (u32 (wordOf (diskRowOf g)) : Int) = diskRowOf g := by
    refine u32_wordOf ?_ ?_ <;> simp only [diskRowOf] <;> omega
  refine ⟨?_, ?_, ?_⟩
  · simp only [diskRowOf]
    omega
  · simp only [diskRowOf]
    omega
  · change (u32 g.framesV : Int) - 1 - u32 (wordOf (diskRowOf g)) = _
    rw [hstored, diskRowOf]
    omega

/-- Settles O30: the fill writes every byte of the tile once the checks pass, and is quiet elsewhere. -/
theorem tfillBlanksTheTile : Obligations.TfillBlanksTheTile := by
  intro s n hopen hfits
  obtain ⟨hsets, hblank⟩ := (tfillBody_fills n s).sets
  obtain ⟨heffect, hreg⟩ := hsets.quiet
  refine ⟨done (tfillBody n s), ?_, ?_, heffect.env, heffect.inbox, heffect.answer, heffect.portTrace_eq, ?_, ?_⟩
  · rw [exec_tfill_eq hopen, whenFits_fit hfits, conclude_ok]
  · rw [done_reg, hreg]
  · intro o ho
    exact hblank _ ⟨Nat.le_add_right .., Nat.add_lt_add_left ho _⟩
  · intro a ha
    refine hsets.read_other ?_
    simp only [tileBytes]
    omega

/-- Settles O31: the capacity check stops each of the three before its body. -/
theorem tileTooLarge : Obligations.TileTooLarge := by
  intro s n hopen hover
  refine ⟨?_, ?_, fun hfr hfc hsr hsc => ?_⟩
  · rw [exec_tfill_eq hopen, whenFits_over hover]
    rfl
  · rw [exec_getTile_eq hopen, whenFits_over hover]
    rfl
  · rw [exec_blkcopy_eq hopen (frameInGrid_iff.2 ⟨hfr, hfc⟩) (subInFrame_iff.2 ⟨hsr, hsc⟩), whenFits_over hover]
    rfl

/-- Settles O32: the argument check comes before the band count and the capacity check. -/
theorem blkcopyBadArgument : Obligations.BlkcopyBadArgument := by
  intro s hopen hout
  refine exec_blkcopy_outside hopen ?_
  rw [Bool.and_eq_true, frameInGrid_iff, subInFrame_iff]
  omega

/-- Settles O33: the copy fills the bytes of the copied pixels from the block, and is quiet elsewhere. -/
theorem blkcopyCopiesTheClippedBlock : Obligations.BlkcopyCopiesTheClippedBlock := by
  intro s n hopen hfits hfr hfc hsr hsc fr fc sr sc source hvalues
  have hsource (b : Nat) {x y : Int} (hxy : Copied s.reg x y) :
      Config.blkBase + copyFrom s.reg b x y = source b x y := by
    obtain ⟨-, hl, -, ht, -⟩ := copied_iff.1 hxy
    rw [copyFrom_eq b hl ht]
    rfl
  have hread : ∀ b < n, ∀ x y, Copied s.reg x y →
      (s.mem.read (Config.blkBase + copyFrom s.reg b x y)).isSome = true := by
    intro b hb x y hxy
    obtain ⟨hreq, hcell⟩ := copied_iff_inCell.1 hxy
    rw [hsource b hxy]
    exact hvalues b hb x y hreq hcell
  obtain ⟨u, hu, hsets, hcopied⟩ := blkcopyBody_fills hread hopen.bands_le.2
  obtain ⟨heffect, hreg⟩ := hsets.quiet
  refine ⟨done u, ?_, ?_, heffect.env, heffect.inbox, heffect.answer, heffect.portTrace_eq, ?_, ?_⟩
  · rw [exec_blkcopy_eq hopen (frameInGrid_iff.2 ⟨hfr, hfc⟩) (subInFrame_iff.2 ⟨hsr, hsc⟩), whenFits_fit hfits, hu]
    rfl
  · rw [done_reg, hreg]
  · intro b hb r hr c hc x y o
    have hat : InCopy n s.reg o ↔ Requested s.reg x y ∧ InCell fr fc sr sc x y :=
      (inCopy_at_iff hb hr hc).trans copied_iff_inCell
    refine ⟨fun hpixel => ?_, fun hpixel => hsets.read_other (mt hat.1 hpixel)⟩
    have hxy : Copied s.reg x y := copied_iff_inCell.2 hpixel
    have ho : o = Config.tileBase + copyTo s.reg b x y := by
      obtain ⟨-, -, -, -, hl, -, ht, -⟩ := hxy.bounds
      rw [copyTo_eq b hl ht]
      simp only [o, x, y, add_sub_cancel_left, Int.toNat_natCast]
    have hbyte := hcopied o (hat.2 hpixel)
    rw [ho, copyImage_at b hxy, hsource b hxy, ← ho] at hbyte
    exact hbyte
  · intro a ha
    refine hsets.read_other fun hin => ?_
    have hin := hin.inTile
    simp only [tileBytes] at hin
    omega
end

section
/-! SUPPORT. The port requests of `get_tile`, in their order (41_compositor.md R142 to R145, R147, 43_external_ports.md R188): what
each part that ended has done, case by case, and its double loops taken pass by pass. -/

namespace Sys2Proof.Machine

/-! ### What a part that ended has done -/

/-- A cell that ended: its bytes were fetched, decoded and copied, or it was only asked for (R142, R145). -/
theorem visitCell_ended {n dr fc sr sc : Nat} {s t : State} (h : visitCell n dr fc sr sc s = .ok t) :
    ((s.env.cell.answer (cell16 dr, cell16 fc, cell3 sr, cell3 sc)).ok = true ∧
      ∃ u, decodeBody n (loadCompressed (s.env.cell.answer (cell16 dr, cell16 fc, cell3 sr, cell3 sc))
          (note (.frmFetch (cell16 dr) (cell16 fc) (cell3 sr) (cell3 sc)) s)) = .ok u ∧
        blkcopyBody n { u with reg := { u.reg with curSr := wordOfNat sr, curSc := wordOfNat sc } } = .ok t) ∨
    ((s.env.cell.answer (cell16 dr, cell16 fc, cell3 sr, cell3 sc)).ok = false ∧
      t = note (.frmFetch (cell16 dr) (cell16 fc) (cell3 sr) (cell3 sc)) s) := by
  have hasked : .frmFetch (cell16 dr) (cell16 fc) (cell3 sr) (cell3 sc) ∉ s.env.silent := by
    intro hsilent
    rw [visitCell, frmFetch, await_silent hsilent] at h
    cases h
  rw [visitCell_answered hasked] at h
  split at h
  case isTrue hok => exact .inl ⟨hok, bind_eq_ok h⟩
  case isFalse hok => exact .inr ⟨Bool.eq_false_of_not_eq_true hok, (Except.ok.inj h).symm⟩

/-- A frame that exists, ended: its tables were loaded, its cells visited and the frame released, or it was only asked for
(R142, R144). -/
theorem visitPresent_ended {n dr fc : Nat} {s t : State} (h : visitPresent n dr fc s = .ok t) :
    ((s.env.frame.answer (cell16 dr, cell16 fc)).ok = true ∧
      ∃ u, visitCells n dr fc (loadTables n (s.env.frame.answer (cell16 dr, cell16 fc))
          (countOpen (note (.frmOpen (cell16 dr) (cell16 fc)) s))) = .ok u ∧ t = frmRelease dr fc u) ∨
    ((s.env.frame.answer (cell16 dr, cell16 fc)).ok = false ∧
      t = countOpen (note (.frmOpen (cell16 dr) (cell16 fc)) s)) := by
  have hasked : .frmOpen (cell16 dr) (cell16 fc) ∉ s.env.silent := by
    intro hsilent
    rw [visitPresent, frmOpen, await_silent hsilent] at h
    cases h
  rw [visitPresent_answered hasked] at h
  split at h
  case isTrue hok =>
    obtain ⟨u, hu, ht⟩ := bind_eq_ok h
    exact .inl ⟨hok, u, hu, (Except.ok.inj ht).symm⟩
  case isFalse hok => exact .inr ⟨Bool.eq_false_of_not_eq_true hok, (Except.ok.inj h).symm⟩

/-- A covered frame that ended: it exists and was visited, or it was only asked for (R142, R143). -/
theorem visitFrame_ended {n fr fc : Nat} {s t : State} (h : visitFrame n fr fc s = .ok t) :
    (s.env.present.answer (cell16 fr, cell16 fc) = true ∧
      visitPresent n (u32 (aimAtFrame fr fc (note (.locExists (cell16 fr) (cell16 fc)) s)).reg.diskRow) fc
        (aimAtFrame fr fc (note (.locExists (cell16 fr) (cell16 fc)) s)) = .ok t) ∨
    (s.env.present.answer (cell16 fr, cell16 fc) = false ∧ t = note (.locExists (cell16 fr) (cell16 fc)) s) := by
  have hasked : .locExists (cell16 fr) (cell16 fc) ∉ s.env.silent := by
    intro hsilent
    rw [visitFrame, locExists, await_silent hsilent] at h
    cases h
  rw [visitFrame_answered hasked] at h
  split at h
  case isTrue hpresent => exact .inl ⟨hpresent, h⟩
  case isFalse hpresent => exact .inr ⟨Bool.eq_false_of_not_eq_true hpresent, (Except.ok.inj h).symm⟩

/-- The registers `h` aim at the frame `(fr, fc)` of the operands `o`: the cursor, the row on disk and the covered sub-frames
(R134 to R136). -/
structure AimedAt (o : Regs) (fr fc : Nat) (h : Regs) : Prop where
  operands : TileRegs o h
  curFr : u32 h.curFr = fr
  curFc : u32 h.curFc = fc
  diskRow : u32 h.diskRow = u32 o.framesV - 1 - fr
  rows : upTo (u32 h.sr0) (u32 h.sr1) = coveredSubs (clip o).y0 (clip o).y1 (fr * 1536)
  cols : upTo (u32 h.sc0) (u32 h.sc1) = coveredSubs (clip o).x0 (clip o).x1 (fc * 1536)

theorem aimAtFrame_aimed {o : Regs} {fr fc : Nat} {s : State} (hk : TileRegs o s.reg) (hc : CoveredFrame o fr fc) :
    AimedAt o fr fc (aimAtFrame fr fc s).reg := by
  have hv := u32_lt o.framesV
  have hh := u32_lt o.framesH
  have hfr := hc.inRows
  have hfc := hc.inCols
  obtain ⟨hy, hy5, -⟩ := hc.meetsRows.subs
  obtain ⟨hx, hx5, -⟩ := hc.meetsCols.subs
  have hoperands : TileRegs o (aimAtFrame fr fc s).reg := 
    hk.trans (TileRegs.trans (h := { s.reg with curFr := wordOfNat fr, curFc := wordOfNat fc }) rfl (TileRegs.srange _))
  rw [aimAtFrame_reg, srangeRegs_aimed hk hc] at hoperands ⊢
  refine ⟨hoperands, u32_wordOfNat (by omega), u32_wordOfNat (by omega), u32_wordOfNat (by omega), ?_, ?_⟩ <;>
    dsimp only <;> rw [u32_wordOfNat (by omega), u32_wordOfNat (by omega)] <;> rfl

/-! ### The double loops -/

/-- `forEach_logs` for a loop whose passes also keep something, `K`, of the state: each pass starts with it kept. -/
theorem forEach_logs_keeping {α β : Type} {R : List β → State → State → Prop} {K : State → State → Prop}
    {I : State → Prop} {f : α → List β} {body : α → State → Run State} {xs : List α} {s t : State} (hnil : ∀ s, R [] s s)
    (htrans : ∀ l m s t u, R l s t → R m t u → R (l ++ m) s u) (hI : ∀ l s t, I s → R l s t → I t) (hrefl : ∀ s, K s s)
    (hKtrans : ∀ s t u, K s t → K t u → K s u)
    (hpass : ∀ x ∈ xs, ∀ u v, I u → K s u → body x u = .ok v → R (f x) u v ∧ K u v) (hs : I s)
    (hrun : forEach xs body s = .ok t) : R (xs.flatMap f) s t ∧ K s t :=
  forEach_logs (R := fun l u v => R l u v ∧ K u v) (I := fun u => I u ∧ K s u) (fun u => ⟨hnil u, hrefl u⟩)
    (fun _ _ _ _ _ h1 h2 => ⟨htrans _ _ _ _ _ h1.1 h2.1, hKtrans _ _ _ h1.2 h2.2⟩)
    (fun _ _ _ hu huv => ⟨hI _ _ _ hu.1 huv.1, hKtrans _ _ _ hu.2 huv.2⟩)
    (fun x hx u v hu hv => hpass x hx u v hu.1 hu.2 hv) ⟨hs, hrefl s⟩ hrun

/-- SC0 and SC1, the bounds of the inner loop of the cells, are kept. -/
def KeepsCellCols (s t : State) : Prop := t.reg.sc0 = s.reg.sc0 ∧ t.reg.sc1 = s.reg.sc1

theorem KeepsCellCols.trans {s t u : State} (h1 : KeepsCellCols s t) (h2 : KeepsCellCols t u) : KeepsCellCols s u :=
  ⟨h2.1.trans h1.1, h2.2.trans h1.2⟩

theorem CellLog.keepsCellCols {k : Nat} {cells : List (Nat × Nat × Nat × Nat)} {s t : State} (h : CellLog k cells s t) :
    KeepsCellCols s t := by
  rw [KeepsCellCols, h.reg]
  exact ⟨rfl, rfl⟩

/-- What the cells of an opened frame have logged, row by row. `I` is what a cell needs of a state. -/
theorem visitCells_logs {β : Type} {R : List β → State → State → Prop} {I : State → Prop} {f : Nat → Nat → List β}
    {n dr fc : Nat} {s t : State} (hnil : ∀ s, R [] s s)
    (htrans : ∀ l m s t u, R l s t → R m t u → R (l ++ m) s u) (hI : ∀ l s t, I s → R l s t → I t)
    (hcell : ∀ sr ∈ upTo (u32 s.reg.sr0) (u32 s.reg.sr1), ∀ sc ∈ upTo (u32 s.reg.sc0) (u32 s.reg.sc1),
      ∀ u v, I u → visitCell n dr fc sr sc u = .ok v → R (f sr sc) u v)
    (hs : I s) (h : visitCells n dr fc s = .ok t) :
    R ((upTo (u32 s.reg.sr0) (u32 s.reg.sr1)).flatMap fun sr => (upTo (u32 s.reg.sc0) (u32 s.reg.sc1)).flatMap (f sr)) s t := by
  have hKtrans : ∀ u v w, KeepsCellCols u v → KeepsCellCols v w → KeepsCellCols u w := fun _ _ _ => .trans
  refine (forEach_logs_keeping hnil htrans hI (fun _ => ⟨rfl, rfl⟩) hKtrans (fun sr hsr u v hu hku hrow => ?_) hs h).1
  rw [hku.1, hku.2] at hrow
  exact forEach_logs_keeping hnil htrans hI (fun _ => ⟨rfl, rfl⟩) hKtrans
    (fun sc hsc w x hw _ hx => ⟨hcell sr hsr sc hsc w x hw hx, (visitCell_log 0 hx).keepsCellCols⟩) hu hrow

/-- The environment is kept, and every register that no visit of a frame writes. -/
def KeepsOperands (s t : State) : Prop := t.env = s.env ∧ VisitRegs s.reg t.reg

theorem KeepsOperands.refl (s : State) : KeepsOperands s s := ⟨rfl, VisitRegs.refl _⟩

theorem KeepsOperands.trans {s t u : State} (h1 : KeepsOperands s t) (h2 : KeepsOperands t u) : KeepsOperands s u :=
  ⟨h2.1.trans h1.1, h1.2.trans h2.2⟩

/-- What the covered frames have logged, row by row. A frame's visit starts with the operands of the command and in its
environment. -/
theorem visitFrames_logs {β : Type} {R : List β → State → State → Prop} {f : Nat → Nat → List β} {n : Nat} {s t : State}
    (hn : n ≤ 3) (himg : ImageIsFrames s.reg) (hne : ¬ emptyOfImage s.reg = true) (hempty : s.reg.empty = false)
    (hrows : upTo (u32 s.reg.fr0) (u32 s.reg.fr1) = coveredRows s.reg)
    (hcols : upTo (u32 s.reg.fc0) (u32 s.reg.fc1) = coveredCols s.reg) (hnil : ∀ s, R [] s s)
    (htrans : ∀ l m s t u, R l s t → R m t u → R (l ++ m) s u)
    (hframe : ∀ fr fc u v, CoveredFrame s.reg fr fc → u.env = s.env → TileRegs s.reg u.reg →
      visitFrame n fr fc u = .ok v → R (f fr fc) u v)
    (h : visitFrames n s = .ok t) :
    R ((coveredRows s.reg).flatMap fun fr => (coveredCols s.reg).flatMap (f fr)) s t := by
  have hKtrans : ∀ u v w, KeepsOperands u v → KeepsOperands v w → KeepsOperands u w := fun _ _ _ => .trans
  have hI : ∀ l u v, True → R l u v → True := fun _ _ _ _ _ => trivial
  rw [← hrows]
  refine (forEach_logs_keeping hnil htrans hI .refl hKtrans (fun fr hfr u v _ hku hrow => ?_) trivial h).1
  have hbounds : upTo (u32 u.reg.fc0) (u32 u.reg.fc1) = coveredCols s.reg := by
    rw [hku.2]
    exact hcols
  rw [hbounds] at hrow
  refine forEach_logs_keeping hnil htrans hI .refl hKtrans (fun fc hfc w x _ hkw hx => ?_) trivial hrow
  obtain ⟨henv, hregs⟩ := hku.trans hkw
  have hc := coveredFrame_of_mem himg hne (hrows ▸ hfr) hfc
  have hlog := visitFrame_log hn hempty hc hregs hx
  exact ⟨hframe fr fc w x hc henv hregs.tileRegs hx, hlog.env, hlog.reg⟩

theorem TileRegs.coveredFrame {g h : Regs} (hk : TileRegs g h) {fr fc : Nat} (hc : CoveredFrame h fr fc) :
    CoveredFrame g fr fc := by
  rw [hk] at hc
  exact ⟨hc.nonempty, hc.inRows, hc.inCols, hc.meetsRows, hc.meetsCols⟩

/-- What `get_tile()` has logged from its prologue on: nothing for an empty clip rectangle (R142, R147). -/
theorem getTileBody_logs {β : Type} {R : List β → State → State → Prop} {f : Nat → Nat → List β} {n : Nat} {s t : State}
    (hn : n ≤ 3) (himg : ImageIsFrames s.reg) (hnil : ∀ s, R [] s s)
    (htrans : ∀ l m s t u, R l s t → R m t u → R (l ++ m) s u)
    (hframe : ∀ fr fc u v, CoveredFrame s.reg fr fc → u.env = s.env → TileRegs s.reg u.reg →
      visitFrame n fr fc u = .ok v → R (f fr fc) u v)
    (h : getTileBody n s = .ok t) :
    R (if emptyOfImage s.reg = true then []
      else (coveredRows s.reg).flatMap fun fr => (coveredCols s.reg).flatMap (f fr)) (getTilePrologue n s) t := by
  have hk := getTilePrologue_tileRegs n s
  have hreg := getTilePrologue_reg n s
  have hempty : (getTilePrologue n s).reg.empty = emptyOfImage s.reg := by
    rw [hreg]
    exact frangeRegs_empty_eq _
  simp only [getTileBody, hempty] at h
  split at h
  case isTrue he =>
    cases h
    rw [if_pos he]
    exact hnil _
  case isFalse he =>
    obtain ⟨hrows, hcols⟩ := frangeRegs_ranges (g := { s.reg with fopenCnt := 0 }) he
    rw [if_neg he, ← hk.covered.1, ← hk.covered.2]
    refine visitFrames_logs hn ?_ ?_ ?_ ?_ ?_ hnil htrans (fun fr fc u v hc hu hku hv => ?_) h
    · rw [hk]
      exact himg
    · rw [hk]
      exact he
    · rw [hempty]
      exact Bool.eq_false_of_not_eq_true he
    · rw [hreg, hrows, (TileRegs.frange _).covered.1]
    · rw [hreg, hcols, (TileRegs.frange _).covered.2]
    · exact hframe fr fc u v (hk.coveredFrame hc) (hu.trans (getTilePrologue_effect n s).env) (hk.trans hku) hv

/-! ### The requests -/

/-- From `s` to `t` exactly these requests were issued, in this order. -/
def Requests (new : List PortReq) (s t : State) : Prop := portTrace t = portTrace s ++ new

theorem Requests.refl (s : State) : Requests [] s s := (List.append_nil _).symm

theorem Requests.trans {l m : List PortReq} {s t u : State} (h1 : Requests l s t) (h2 : Requests m t u) :
    Requests (l ++ m) s u := by
  unfold Requests at *
  rw [h2, h1, List.append_assoc]

theorem Requests.of_note (r : PortReq) (s : State) : Requests [r] s (note r s) :=
  portTrace_append s (note r s) [.request r] rfl

theorem Requests.of_effect {P : Nat → Prop} {s t : State} (h : Effect P NoPort s t) : Requests [] s t := by
  rw [Requests, h.portTrace_eq, List.append_nil]

/-- A cell is asked for once (R145). -/
theorem visitCell_requests {n dr fc sr sc : Nat} {s t : State} (h : visitCell n dr fc sr sc s = .ok t) :
    Requests [.frmFetch (cell16 dr) (cell16 fc) (cell3 sr) (cell3 sc)] s t := by
  have hnote := Requests.of_note (.frmFetch (cell16 dr) (cell16 fc) (cell3 sr) (cell3 sc)) s
  obtain ⟨-, u, hdecode, hcopy⟩ | ⟨-, rfl⟩ := visitCell_ended h
  · have hload := Requests.of_effect (loadCompressed_quiet (s.env.cell.answer (cell16 dr, cell16 fc, cell3 sr, cell3 sc))
      (note (.frmFetch (cell16 dr) (cell16 fc) (cell3 sr) (cell3 sc)) s)).1
    have hdecode := Requests.of_effect ((decodeBody_quiet n _).1 u hdecode).1
    have hcopy := Requests.of_effect ((blkcopyBody_quiet n _).1 t hcopy).1
    exact hnote.trans (hload.trans (hdecode.trans hcopy))
  · exact hnote

/-- The cells of an opened frame are asked for row by row (R142). -/
theorem visitCells_requests {n dr fc : Nat} {s t : State} (h : visitCells n dr fc s = .ok t) :
    Requests ((upTo (u32 s.reg.sr0) (u32 s.reg.sr1)).flatMap fun sr => (upTo (u32 s.reg.sc0) (u32 s.reg.sc1)).map fun sc =>
      .frmFetch (cell16 dr) (cell16 fc) (cell3 sr) (cell3 sc)) s t := by
  simp only [List.map_eq_flatMap]
  exact visitCells_logs (I := fun _ => True) Requests.refl (fun _ _ _ _ _ => Requests.trans) (fun _ _ _ _ _ => trivial)
    (fun _ _ _ _ _ _ _ => visitCell_requests) trivial h

/-- A frame that exists is asked for, and, if it opens, its cells are and it is released (R144, R188). -/
theorem visitPresent_requests {n fr fc : Nat} {o : Regs} {s t : State} (hn : n ≤ 3) (haim : AimedAt o fr fc s.reg)
    (h : visitPresent n (u32 s.reg.diskRow) fc s = .ok t) (hpresent : s.env.present.answer (cell16 fr, cell16 fc) = true) :
    Requests ((frameTrace s.env o fr fc).tail) s t := by
  have hopen := Requests.of_note (.frmOpen (cell16 (u32 o.framesV - 1 - fr)) (cell16 fc)) s
  rw [haim.diskRow] at h
  simp only [frameTrace, hpresent, List.tail_cons, Bool.true_eq_false, if_false]
  obtain ⟨hok, u, hcells, rfl⟩ | ⟨hok, rfl⟩ := visitPresent_ended h
  · have htables := loadTables_quiet n (hn.trans (by decide))
      (s.env.frame.answer (cell16 (u32 o.framesV - 1 - fr), cell16 fc))
      (countOpen (note (.frmOpen (cell16 (u32 o.framesV - 1 - fr)) (cell16 fc)) s))
    have hcells := visitCells_requests hcells
    rw [htables.2] at hcells
    simp only [countOpen_reg, note_reg, haim.rows, haim.cols] at hcells
    rw [hok, if_neg (by decide)]
    exact hopen.trans ((Requests.of_effect htables.1).trans (hcells.trans (Requests.of_note _ u)))
  · rw [hok, if_pos rfl]
    exact hopen

/-- The requests for a covered frame (R188). -/
theorem visitFrame_requests {n fr fc : Nat} {o : Regs} {s t : State} (hn : n ≤ 3) (hk : TileRegs o s.reg)
    (hc : CoveredFrame o fr fc) (h : visitFrame n fr fc s = .ok t) : Requests (frameTrace s.env o fr fc) s t := by
  have hexists := Requests.of_note (.locExists (cell16 fr) (cell16 fc)) s
  obtain ⟨hpresent, h⟩ | ⟨hpresent, rfl⟩ := visitFrame_ended h
  · have haim := aimAtFrame_aimed (s := note (.locExists (cell16 fr) (cell16 fc)) s) hk hc
    have hasked : Requests [.locExists (cell16 fr) (cell16 fc)] s
        (aimAtFrame fr fc (note (.locExists (cell16 fr) (cell16 fc)) s)) := hexists
    exact hasked.trans (visitPresent_requests hn haim h hpresent)
  · rw [frameTrace, if_pos hpresent]
    exact hexists

/-- The requests of `get_tile()`: one group for each covered frame (R147, R188). -/
theorem getTileBody_requests {n : Nat} {s t : State} (hn : n ≤ 3) (himg : ImageIsFrames s.reg)
    (h : getTileBody n s = .ok t) : Requests (tileTrace s.env s.reg) s t := by
  have hframes := getTileBody_logs hn himg Requests.refl (fun _ _ _ _ _ => Requests.trans)
    (fun fr fc u v hc hu hk hv => hu ▸ visitFrame_requests hn hk hc hv) h
  exact (Requests.of_effect (getTilePrologue_effect n s)).trans hframes

end Sys2Proof.Machine

open Sys2Proof Sys2Proof.Machine

/-- Settles O43: the covered frames are visited row by row, and each issues its group of requests. -/
theorem getTileRequestOrder : Obligations.GetTileRequestOrder := by
  intro s n hinv hopen hfits hans
  obtain ⟨t, ht⟩ := getTileBody_completes hopen.bands_le hans
  have hrequests : portTrace t = _ := getTileBody_requests hopen.bands_le.2 hinv.imageIsFrames ht
  exact ⟨done t, exec_getTile_zero hopen hfits ht, hrequests⟩
end

section
/-! SUPPORT. The bytes that `get_tile` leaves in the memories (41_compositor.md R142 to R146, 70_reset_and_hazards.md R235): the
tables of the last frame opened, the bytes and the block of the last cell fetched, and the tile, in which a byte that holds what
R146 says keeps it. -/

namespace Sys2Proof.Machine

/-! ### What the answers put in the scratch memories -/

/-- The bytes of CBUF and of the planes of BLK that a cell of `n` bands fills (43_external_ports.md R184, 40_decode.md R110). -/
def InCells (n a : Nat) : Prop := Space.cbuf.covers a = true ∨ InPlanes n a

/-- What the answer to FRM.Open puts at a host offset of CB or PAL (R183). -/
def tableImage (o : OpenAnswer) (a : Nat) : Option Byte :=
  some (if a < Config.palBase then o.cb.byte (a - Config.cbBase) else o.pal.byte (a - Config.palBase))

/-- What the answer to FRM.Fetch, decoded with the tables of an answer to FRM.Open, puts at a host offset of CBUF or BLK
(R184, R114). -/
def cellImage (o : OpenAnswer) (f : FetchAnswer) (a : Nat) : Option Byte :=
  some (if a < Config.blkBase then f.data.byte (a - Config.cbufBase)
    else answeredByte o f ((a - Config.blkBase) / 65536) ((a - Config.blkBase) % 65536 / 256) ((a - Config.blkBase) % 256))

theorem InTables.bounds {n a : Nat} (h : InTables n a) : Config.cbBase ≤ a ∧ a < Config.cbufBase := by
  simp only [InTables, covers_iff, base_cb, size_cb, base_pal, size_pal, Config.cbBase, Config.cbSize, Config.palBase,
    Config.palSize] at h
  simp only [Config.cbBase, Config.cbufBase]
  omega

theorem InCells.bounds {n a : Nat} (hn : n ≤ 3) (h : InCells n a) : Config.cbufBase ≤ a ∧ a < Config.tileBase := by
  simp only [InCells, InPlanes, covers_iff, base_cbuf, size_cbuf, Config.cbufBase, Config.cbufSize, Config.blkBase] at h
  simp only [Config.cbufBase, Config.tileBase]
  omega

theorem tableImage_cb {o : OpenAnswer} {k : Nat} (hk : k < 65536) :
    tableImage o (Config.cbBase + k) = some (o.cb.byte k) := by
  have hlow : Config.cbBase + k < Config.palBase := by
    simp only [Config.cbBase, Config.palBase]
    omega
  rw [tableImage, if_pos hlow, Nat.add_sub_cancel_left]

theorem tableImage_pal {o : OpenAnswer} (k : Nat) : tableImage o (Config.palBase + k) = some (o.pal.byte k) := by
  rw [tableImage, if_neg (Nat.not_lt.2 (Nat.le_add_right ..)), Nat.add_sub_cancel_left]

theorem inTables_cb {n k : Nat} (hk : k < 65536) : InTables n (Config.cbBase + k) :=
  .inl (covers_iff.2 ⟨Nat.le_add_right .., Nat.add_lt_add_left hk _⟩)

/-- Byte `b` of a palette entry is loaded if it is one of the first `n` (R183). -/
theorem inTables_pal_iff {n idx b : Nat} (hidx : idx < 256) (hb : b < 4) :
    InTables n (Config.palBase + (idx * 4 + b)) ↔ b < n := by
  simp only [InTables, covers_iff, base_cb, size_cb, base_pal, size_pal, Config.cbBase, Config.cbSize, Config.palBase,
    Config.palSize]
  omega

theorem inCells_cbuf {n p : Nat} (hp : p < 6144) : InCells n (Config.cbufBase + p) :=
  .inl (covers_iff.2 ⟨Nat.le_add_right .., Nat.add_lt_add_left hp _⟩)

/-- A byte of BLK is decoded if it lies in one of the first `n` planes (R110). -/
theorem inCells_blk_iff {n b r c : Nat} (hr : r < 256) (hc : c < 256) :
    InCells n (Config.blkBase + (b * 65536 + r * 256 + c)) ↔ b < n := by
  simp only [InCells, InPlanes, covers_iff, base_cbuf, size_cbuf, Config.cbufBase, Config.cbufSize, Config.blkBase]
  omega

theorem cellImage_cbuf {o : OpenAnswer} {f : FetchAnswer} {p : Nat} (hp : p < 6144) :
    cellImage o f (Config.cbufBase + p) = some (f.data.byte p) := by
  have hlow : Config.cbufBase + p < Config.blkBase := by
    simp only [Config.cbufBase, Config.blkBase]
    omega
  rw [cellImage, if_pos hlow, Nat.add_sub_cancel_left]

theorem cellImage_blk {o : OpenAnswer} {f : FetchAnswer} {b r c : Nat} (hr : r < 256) (hc : c < 256) :
    cellImage o f (Config.blkBase + (b * 65536 + r * 256 + c)) = some (answeredByte o f b r c) := by
  have hb : (b * 65536 + r * 256 + c) / 65536 = b := by omega
  have hr' : (b * 65536 + r * 256 + c) % 65536 / 256 = r := by omega
  have hc' : (b * 65536 + r * 256 + c) % 256 = c := by omega
  rw [cellImage, if_neg (Nat.not_lt.2 (Nat.le_add_right ..)), Nat.add_sub_cancel_left, hb, hr', hc']

/-- The loads put the answer in CB and in the first bytes of each entry of PAL (R183). -/
theorem loadTables_read {n : Nat} (hn : n ≤ 4) (o : OpenAnswer) (s : State) {a : Nat} (ha : InTables n a) :
    (loadTables n o s).mem.read a = tableImage o a := by
  obtain ⟨-, hcb⟩ := (loadCodebook_fills o s).sets
  obtain ⟨hsets, hpal⟩ := (loadPalette_fills n hn o (loadCodebook o s)).sets
  obtain hin | ⟨hin, hband⟩ := ha
  · have hin := covers_iff.1 hin
    have hlow : a < Config.palBase := by
      simp only [base_cb, size_cb, Config.cbBase, Config.cbSize] at hin
      simp only [Config.palBase]
      omega
    rw [loadTables, hsets.read_other (by omega), hcb a hin, tableImage, if_pos hlow]
  · have hin : Config.palBase ≤ a ∧ a < Config.palBase + Config.palSize := covers_iff.1 hin
    rw [loadTables, hpal a ⟨hin.1, hin.2, hband⟩, tableImage, if_neg (Nat.not_lt.2 hin.1)]

/-- Bytes loaded from the answers decode as the answers do (R114, R146). -/
theorem decodedByte_of_answers {m : Memory} {o : OpenAnswer} {f : FetchAnswer} {b r c : Nat} (hr : r < 256) (hc : c < 256)
    (hcbuf : ∀ p < 6144, m.read (Config.cbufBase + p) = some (f.data.byte p))
    (hcb : ∀ k < 65536, m.read (Config.cbBase + k) = some (o.cb.byte k))
    (hpal : ∀ idx < 256, m.read (Config.palBase + (idx * 4 + b)) = some (o.pal.byte (idx * 4 + b))) :
    decodedByte m b r c = some (answeredByte o f b r c) := by
  simp only [decodedByte, Option.bind_eq_bind, Nat.add_assoc]
  rw [hcbuf _ (by omega), hcbuf _ (by omega), hcbuf _ (by omega)]
  simp only [Option.bind_some]
  have hcode := groupCode_lt (f.data.byte ((r / 4 * 32 + c / 8) * 3)) (f.data.byte ((r / 4 * 32 + c / 8) * 3 + 1))
    (f.data.byte ((r / 4 * 32 + c / 8) * 3 + 2)) c
  rw [hcb _ (by omega)]
  exact hpal _ (BitVec.isLt _)

/-- After a load of CBUF and a decode with loaded tables CBUF and the planes hold the cell's image, and no other byte changed
(R142). -/
theorem decodeBody_loaded {n : Nat} (hn : 0 < n ∧ n ≤ 3) {o : OpenAnswer} {f : FetchAnswer} {s u : State}
    (htables : ∀ a, InTables n a → s.mem.read a = tableImage o a) (hu : decodeBody n (loadCompressed f s) = .ok u) :
    u.reg = s.reg ∧ (∀ a, InCells n a → u.mem.read a = cellImage o f a) ∧
      ∀ a, ¬ InCells n a → u.mem.read a = s.mem.read a := by
  obtain ⟨hload, hbytes⟩ := (loadCompressed_fills f s).sets
  have hcbuf (p : Nat) (hp : p < 6144) : (loadCompressed f s).mem.read (Config.cbufBase + p) = some (f.data.byte p) := by
    rw [hbytes _ ⟨Nat.le_add_right .., Nat.add_lt_add_left hp _⟩, Nat.add_sub_cancel_left]
  have hkept {a : Nat} (ha : InTables n a) : (loadCompressed f s).mem.read a = tableImage o a := by
    have hbounds := ha.bounds
    rw [hload.read_other (by omega), htables a ha]
  have hdecoded (b : Nat) (hb : b < n) (r : Nat) (hr : r < 256) (c : Nat) (hc : c < 256) :
      decodedByte (loadCompressed f s).mem b r c = some (answeredByte o f b r c) := by
    refine decodedByte_of_answers hr hc hcbuf (fun k hk => ?_) (fun idx hidx => ?_)
    · rw [hkept (inTables_cb hk), tableImage_cb hk]
    · rw [hkept ((inTables_pal_iff hidx (by omega)).2 hb), tableImage_pal]
  have hdecodable : Decodable (loadCompressed f s).mem n := fun b hb r hr c hc => by
    rw [hdecoded b hb r hr c hc]
    rfl
  obtain ⟨u', hu', hset, hplanes⟩ := decodeBody_fills hdecodable hn
  obtain rfl : u' = u := Except.ok.inj (hu'.symm.trans hu)
  refine ⟨hset.reg.trans hload.reg, fun a ha => ?_, fun a ha => ?_⟩
  · by_cases hin : InPlanes n a
    · have hlow : ¬ a < Config.blkBase := Nat.not_lt.2 hin.1
      obtain ⟨hlo, hhi⟩ := hin
      rw [hplanes a ⟨hlo, hhi⟩, blockImage, hdecoded _ (by omega) _ (by omega) _ (by omega), cellImage, if_neg hlow]
    · obtain ⟨hlo, hhi⟩ : Config.cbufBase ≤ a ∧ a < Config.cbufBase + 6144 := covers_iff.1 (ha.resolve_right hin)
      have hp : a = Config.cbufBase + (a - Config.cbufBase) := (Nat.add_sub_cancel' hlo).symm
      rw [hset.read_other hin, hp, hcbuf _ (by omega), cellImage_cbuf (by omega)]
  · rw [hset.read_other fun hin => ha (.inr hin), hload.read_other fun hin => ha (.inl (covers_iff.2 hin))]

/-- A copy of a block that holds a cell's image: each copied pixel is the cell's, and no other byte changed (R139, R141). -/
theorem blkcopyBody_loaded {n : Nat} (hn : n ≤ 3) {o : OpenAnswer} {f : FetchAnswer} {u t : State}
    (hblk : ∀ a, InCells n a → u.mem.read a = cellImage o f a) (ht : blkcopyBody n u = .ok t) :
    t.reg = u.reg ∧
      (∀ b < n, ∀ x y, Copied u.reg x y → t.mem.read (Config.tileBase + copyTo u.reg b x y) =
        some (answeredByte o f b (y - blockTop u.reg).toNat (x - blockLeft u.reg).toNat)) ∧
      ∀ a, ¬ InCopy n u.reg a → t.mem.read a = u.mem.read a := by
  have hbyte (b : Nat) (hb : b < n) (x y : Int) (hxy : Copied u.reg x y) :
      u.mem.read (Config.blkBase + copyFrom u.reg b x y) =
        some (answeredByte o f b (y - blockTop u.reg).toNat (x - blockLeft u.reg).toNat) := by
    obtain ⟨-, hl, hr, htop, hbot⟩ := copied_iff.1 hxy
    rw [copyFrom_eq b hl htop, hblk _ ((inCells_blk_iff (by omega) (by omega)).2 hb),
      cellImage_blk (by omega) (by omega)]
  obtain ⟨t', ht', hset, hcopied⟩ := blkcopyBody_fills (n := n) (s := u) (fun b hb x y hxy => by
    rw [hbyte b hb x y hxy]
    rfl) hn
  obtain rfl : t' = t := Except.ok.inj (ht'.symm.trans ht)
  refine ⟨hset.reg, fun b hb x y hxy => ?_, fun a ha => hset.read_other ha⟩
  rw [hcopied _ ⟨b, hb, x, y, hxy, rfl⟩, copyImage_at b hxy, hbyte b hb x y hxy]

/-! ### The tile -/

/-- The byte at a host offset of TILE that R146 gives, for a GETTILE begun in `s`. -/
def tileImage (s : State) (a : Nat) : Option Byte :=
  some (tileByte s ((a - Config.tileBase) / (rectWidth s.reg * rectHeight s.reg))
    ((a - Config.tileBase) % (rectWidth s.reg * rectHeight s.reg) / rectWidth s.reg)
    ((a - Config.tileBase) % rectWidth s.reg))

theorem tileImage_at {s : State} (b : Nat) {r c : Nat} (hr : r < rectHeight s.reg) (hc : c < rectWidth s.reg) :
    tileImage s (Config.tileBase + (b * (rectWidth s.reg * rectHeight s.reg) + r * rectWidth s.reg + c)) =
      some (tileByte s b r c) := by
  obtain ⟨hband, hrow, hcol⟩ := planar_apart (b := b) hr hc
  rw [tileImage, Nat.add_sub_cancel_left, hband, hrow, hcol]

/-- The cell's bytes were there to be had: its frame exists and opened, and its fetch succeeded (R143 to R145). -/
def Fetched (e : Env) (g : Regs) (cell : Nat × Nat × Nat × Nat) : Prop :=
  e.present.answer (cell16 cell.1, cell16 cell.2.1) = true ∧ (tablesOf e g cell.1 cell.2.1).ok = true ∧
    (bytesOf e g cell.1 cell.2.1 cell.2.2.1 cell.2.2.2).ok = true

/-- The pixel of the image lies in the sub-frame `(sr, sc)` of the frame `(fr, fc)`, one of its 36 (00_scope.md R15). -/
def InSub (cell : Nat × Nat × Nat × Nat) (x y : Int) : Prop :=
  cell.2.2.1 < 6 ∧ cell.2.2.2 < 6 ∧ InCell cell.1 cell.2.1 cell.2.2.1 cell.2.2.2 x y

/-- The byte that the answers for a cell decode to at a pixel. -/
def cellByte (e : Env) (g : Regs) (cell : Nat × Nat × Nat × Nat) (b : Nat) (x y : Int) : Byte :=
  answeredByte (tablesOf e g cell.1 cell.2.1) (bytesOf e g cell.1 cell.2.1 cell.2.2.1 cell.2.2.2) b
    (y - (cell.1 * 1536 + cell.2.2.1 * 256 : Nat)).toNat (x - (cell.2.1 * 1536 + cell.2.2.2 * 256 : Nat)).toNat

/-- The byte of a pixel by the cell it lies in (R146). -/
theorem imageByte_inSub {s : State} {cell : Nat × Nat × Nat × Nat} {b : Nat} {x y : Int} (hin : InSub cell x y) :
    imageByte s b x.toNat y.toNat =
      if s.env.present.answer (cell16 cell.1, cell16 cell.2.1) = false then s.reg.blank
      else if (tablesOf s.env s.reg cell.1 cell.2.1).ok = false then s.reg.blank
      else if (bytesOf s.env s.reg cell.1 cell.2.1 cell.2.2.1 cell.2.2.2).ok = false then s.reg.blank
      else cellByte s.env s.reg cell b x y := by
  obtain ⟨fr, fc, sr, sc⟩ := cell
  obtain ⟨hsr, hsc, hl, hr, ht, hb⟩ := hin
  dsimp only at *
  have hfr : y.toNat / 1536 = fr := by omega
  have hfc : x.toNat / 1536 = fc := by omega
  have hsr' : (y.toNat - fr * 1536) / 256 = sr := by omega
  have hsc' : (x.toNat - fc * 1536) / 256 = sc := by omega
  have hrow : y.toNat - fr * 1536 - sr * 256 = (y - (fr * 1536 + sr * 256 : Nat)).toNat := by omega
  have hcol : x.toNat - fc * 1536 - sc * 256 = (x - (fc * 1536 + sc * 256 : Nat)).toNat := by omega
  simp only [imageByte, hfr, hfc, hsr', hsc', hrow, hcol]
  rfl

/-- A pixel of a fetched cell is the cell's. -/
theorem imageByte_of_fetched {s : State} {cell : Nat × Nat × Nat × Nat} {b : Nat} {x y : Int} (hin : InSub cell x y)
    (h : Fetched s.env s.reg cell) : imageByte s b x.toNat y.toNat = cellByte s.env s.reg cell b x y := by
  obtain ⟨hpresent, hopened, hfetched⟩ := h
  rw [imageByte_inSub hin, hpresent, hopened, hfetched]
  rfl

/-- A pixel of any other cell is BLANK (R143 to R145). -/
theorem imageByte_of_not_fetched {s : State} {cell : Nat × Nat × Nat × Nat} {b : Nat} {x y : Int} (hin : InSub cell x y)
    (h : ¬ Fetched s.env s.reg cell) : imageByte s b x.toNat y.toNat = s.reg.blank := by
  rw [imageByte_inSub hin]
  split
  case isTrue => rfl
  case isFalse hpresent =>
    split
    case isTrue => rfl
    case isFalse hopened =>
      split
      case isTrue => rfl
      case isFalse hfetched =>
        exact absurd ⟨Bool.eq_true_of_not_eq_false hpresent, Bool.eq_true_of_not_eq_false hopened,
          Bool.eq_true_of_not_eq_false hfetched⟩ h

/-- A pixel of the rectangle and the image is the image's (R146). -/
theorem tileByte_of_requested {s : State} {b r c : Nat} (h : Requested s.reg (rectLeft s.reg + c) (rectTop s.reg + r)) :
    tileByte s b r c = imageByte s b (rectLeft s.reg + c).toNat (rectTop s.reg + r).toNat := by
  obtain ⟨-, -, -, -, hx0, hx1, hy0, hy1⟩ := h
  exact if_neg (by omega)

/-- A pixel of the rectangle outside the image is BLANK (R140). -/
theorem tileByte_of_not_requested {s : State} {b r c : Nat} (hr : r < rectHeight s.reg) (hc : c < rectWidth s.reg)
    (h : ¬ Requested s.reg (rectLeft s.reg + c) (rectTop s.reg + r)) : tileByte s b r c = s.reg.blank := by
  refine if_pos ?_
  simp only [Requested] at h
  omega

/-- The place in the tile of a requested pixel has the image's byte. -/
theorem tileImage_copyTo {s : State} (b : Nat) {x y : Int} (h : Requested s.reg x y) :
    tileImage s (Config.tileBase + copyTo s.reg b x y) = some (imageByte s b x.toNat y.toNat) := by
  have hpixel := h
  obtain ⟨hl, hr, ht, hb, -⟩ := h
  obtain ⟨c, hc⟩ := Int.eq_ofNat_of_zero_le (show 0 ≤ x - rectLeft s.reg by omega)
  obtain ⟨r, hr'⟩ := Int.eq_ofNat_of_zero_le (show 0 ≤ y - rectTop s.reg by omega)
  obtain rfl : x = rectLeft s.reg + c := by omega
  obtain rfl : y = rectTop s.reg + r := by omega
  rw [copyTo_eq b hl ht, add_sub_cancel_left, add_sub_cancel_left, Int.toNat_natCast, Int.toNat_natCast,
    tileImage_at b (by omega) (by omega), tileByte_of_requested hpixel]

/-! ### What the visits leave in the memories -/

/-- The host offsets in TILE of the pixels of a cell, for operands `g` (R139). -/
def InCellTile (n : Nat) (g : Regs) (cell : Nat × Nat × Nat × Nat) (a : Nat) : Prop :=
  ∃ b < n, ∃ x y, Requested g x y ∧ InSub cell x y ∧ a = Config.tileBase + copyTo g b x y

/-- What a cell puts in CBUF and BLK, by the answers for it. -/
def scratchOf (e : Env) (g : Regs) (cell : Nat × Nat × Nat × Nat) (a : Nat) : Option Byte :=
  cellImage (tablesOf e g cell.1 cell.2.1) (bytesOf e g cell.1 cell.2.1 cell.2.2.1 cell.2.2.2) a

/-- A part of a GETTILE begun in `o` opened the frames of one log and fetched the cells of another: the last of each is what
the scratch memories hold, and in the tile the cells' pixels, and all bytes that were right before, are right (R146). -/
structure ContentsLog (o : State) (n : Nat) (frames : List (Nat × Nat)) (cells : List (Nat × Nat × Nat × Nat))
    (s t : State) : Prop where
  tables : ∀ a, InTables n a →
    t.mem.read a = lastOr (fun f => tableImage (tablesOf o.env o.reg f.1 f.2) a) (s.mem.read a) frames
  scratch : ∀ a, InCells n a → t.mem.read a = lastOr (fun c => scratchOf o.env o.reg c a) (s.mem.read a) cells
  tile : ∀ a, Config.tileBase ≤ a → (s.mem.read a = tileImage o a ∨ ∃ c ∈ cells, InCellTile n o.reg c a) →
    t.mem.read a = tileImage o a

theorem ContentsLog.of_mem_eq {o : State} {n : Nat} {s t : State} (h : t.mem = s.mem) : ContentsLog o n [] [] s t where
  tables a _ := congrArg (Memory.read · a) h
  scratch a _ := congrArg (Memory.read · a) h
  tile a _ ha := by
    obtain hright | ⟨c, hc, -⟩ := ha
    · rw [h, hright]
    · cases hc

theorem ContentsLog.trans {o : State} {n : Nat} {k l : List (Nat × Nat)} {cells more : List (Nat × Nat × Nat × Nat)}
    {s t u : State} (h1 : ContentsLog o n k cells s t) (h2 : ContentsLog o n l more t u) :
    ContentsLog o n (k ++ l) (cells ++ more) s u where
  tables a ha := by rw [h2.tables a ha, h1.tables a ha, lastOr_append]
  scratch a ha := by rw [h2.scratch a ha, h1.scratch a ha, lastOr_append]
  tile a hlow ha := by
    obtain hright | ⟨c, hc, hin⟩ := ha
    · exact h2.tile a hlow (.inl (h1.tile a hlow (.inl hright)))
    · obtain hc | hc := List.mem_append.1 hc
      · exact h2.tile a hlow (.inl (h1.tile a hlow (.inr ⟨c, hc, hin⟩)))
      · exact h2.tile a hlow (.inr ⟨c, hc, hin⟩)

/-- Only the memories before and after matter. -/
theorem ContentsLog.congr {o : State} {n : Nat} {frames : List (Nat × Nat)} {cells : List (Nat × Nat × Nat × Nat)}
    {s t u v : State} (h : ContentsLog o n frames cells s t) (hu : u.mem = s.mem) (hv : v.mem = t.mem) :
    ContentsLog o n frames cells u v := by
  obtain ⟨htables, hscratch, htile⟩ := h
  rw [← hu, ← hv] at htables hscratch htile
  exact ⟨htables, hscratch, htile⟩

/-- The loads of an opened frame (R142). -/
theorem loadTables_contents (o : State) {n : Nat} (hn : n ≤ 3) (fr fc : Nat) (s : State) :
    ContentsLog o n [(fr, fc)] [] s (loadTables n (tablesOf o.env o.reg fr fc) s) := by
  have hquiet := loadTables_quiet n (hn.trans (by decide)) (tablesOf o.env o.reg fr fc) s
  have hother {a : Nat} (ha : Config.cbufBase ≤ a) :
      (loadTables n (tablesOf o.env o.reg fr fc) s).mem.read a = s.mem.read a :=
    hquiet.1.read_other fun hin => Nat.not_lt.2 ha hin.bounds.2
  exact {
    tables := fun a ha => loadTables_read (hn.trans (by decide)) _ s ha
    scratch := fun a ha => hother (ha.bounds hn).1
    tile := fun a hlow ha => by
      obtain hright | ⟨c, hc, -⟩ := ha
      · rw [hother (le_trans (by decide) hlow), hright]
      · cases hc }

/-- A state in the visit of an opened frame `(fr, fc)` of a GETTILE begun in `o`: the cursor is on the frame and its tables are
loaded (R142, R144). -/
structure OnFrame (o : State) (n fr fc : Nat) (s : State) : Prop where
  env : s.env = o.env
  operands : TileRegs o.reg s.reg
  curFr : u32 s.reg.curFr = fr
  curFc : u32 s.reg.curFc = fc
  present : o.env.present.answer (cell16 fr, cell16 fc) = true
  opened : (tablesOf o.env o.reg fr fc).ok = true
  loaded : ∀ a, InTables n a → s.mem.read a = tableImage (tablesOf o.env o.reg fr fc) a

theorem OnFrame.note {o : State} {n fr fc : Nat} {s : State} (h : OnFrame o n fr fc s) (r : PortReq) :
    OnFrame o n fr fc (note r s) := { h with }

/-- The work on a cell keeps it. -/
theorem OnFrame.keep {o : State} {n fr fc k : Nat} {cells : List (Nat × Nat × Nat × Nat)} {s t : State}
    (h : OnFrame o n fr fc s) (hlog : CellLog k cells s t) (hcontents : ContentsLog o n [] cells s t) :
    OnFrame o n fr fc t where
  env := hlog.env.trans h.env
  operands := h.operands.trans hlog.visitRegs.tileRegs
  curFr := by
    rw [hlog.reg]
    exact h.curFr
  curFc := by
    rw [hlog.reg]
    exact h.curFc
  present := h.present
  opened := h.opened
  loaded a ha := (hcontents.tables a ha).trans (h.loaded a ha)

/-- The registers `g` have the operands `o` and the cursor on a cell (10_state.md R32). -/
structure CursorAt (o : Regs) (cell : Nat × Nat × Nat × Nat) (g : Regs) : Prop where
  operands : TileRegs o g
  curFr : u32 g.curFr = cell.1
  curFc : u32 g.curFc = cell.2.1
  curSr : u32 g.curSr = cell.2.2.1
  curSc : u32 g.curSc = cell.2.2.2

theorem OnFrame.cursorAt {o : State} {n fr fc sr sc : Nat} {s : State} (h : OnFrame o n fr fc s) (hsr : sr < 6)
    (hsc : sc < 6) : CursorAt o.reg (fr, fc, sr, sc) { s.reg with curSr := wordOfNat sr, curSc := wordOfNat sc } where
  operands := h.operands.trans rfl
  curFr := h.curFr
  curFc := h.curFc
  curSr := u32_wordOfNat (by omega)
  curSc := u32_wordOfNat (by omega)

theorem TileRegs.copyTo {g h : Regs} (hk : TileRegs g h) (b : Nat) (x y : Int) : copyTo h b x y = copyTo g b x y := by
  rw [hk]
  rfl

theorem TileRegs.requested {g h : Regs} (hk : TileRegs g h) (x y : Int) : Requested h x y ↔ Requested g x y := by
  rw [hk]
  rfl

/-- The pixels that a copy at a cell copies are those of the cell (R139). -/
theorem CursorAt.copied_iff {o g : Regs} {cell : Nat × Nat × Nat × Nat} (h : CursorAt o cell g) (hsr : cell.2.2.1 < 6)
    (hsc : cell.2.2.2 < 6) {x y : Int} : Copied g x y ↔ Requested o x y ∧ InSub cell x y := by
  rw [copied_iff_inCell, h.operands.requested, h.curFr, h.curFc, h.curSr, h.curSc]
  simp only [InSub, hsr, hsc, true_and]

theorem CursorAt.inCopy_iff {n a : Nat} {o g : Regs} {cell : Nat × Nat × Nat × Nat} (h : CursorAt o cell g)
    (hsr : cell.2.2.1 < 6) (hsc : cell.2.2.2 < 6) : InCopy n g a ↔ InCellTile n o cell a := by
  simp only [InCopy, InCellTile, h.copied_iff hsr hsc, h.operands.copyTo, and_assoc]

/-- A byte copied at a fetched cell is the one R146 gives. -/
theorem CursorAt.copied_byte {o : State} {g : Regs} {cell : Nat × Nat × Nat × Nat} (h : CursorAt o.reg cell g)
    (hfetched : Fetched o.env o.reg cell) (b : Nat) {x y : Int} (hreq : Requested o.reg x y) (hin : InSub cell x y) :
    some (answeredByte (tablesOf o.env o.reg cell.1 cell.2.1) (bytesOf o.env o.reg cell.1 cell.2.1 cell.2.2.1 cell.2.2.2) b
      (y - blockTop g).toNat (x - blockLeft g).toNat) = tileImage o (Config.tileBase + copyTo o.reg b x y) := by
  rw [tileImage_copyTo b hreq, imageByte_of_fetched hin hfetched, cellByte, blockTop, blockLeft, h.curFr, h.curFc, h.curSr,
    h.curSc]
  rfl

/-- The work on a fetched cell (R142, R145). -/
theorem fetchedCell_contents {o : State} {n fr fc sr sc : Nat} {s u t : State} (hn : 0 < n ∧ n ≤ 3)
    (hon : OnFrame o n fr fc s) (hsr : sr < 6) (hsc : sc < 6) (hok : (bytesOf o.env o.reg fr fc sr sc).ok = true)
    (hdecode : decodeBody n (loadCompressed (bytesOf o.env o.reg fr fc sr sc) s) = .ok u)
    (hcopy : blkcopyBody n { u with reg := { u.reg with curSr := wordOfNat sr, curSc := wordOfNat sc } } = .ok t) :
    ContentsLog o n [] [(fr, fc, sr, sc)] s t := by
  obtain ⟨hreg, hblock, hkept⟩ := decodeBody_loaded hn hon.loaded hdecode
  obtain ⟨-, hcopied, hrest⟩ := blkcopyBody_loaded
    (u := { u with reg := { u.reg with curSr := wordOfNat sr, curSc := wordOfNat sc } }) hn.2 hblock hcopy
  rw [hreg] at hcopied hrest
  have hcursor := hon.cursorAt hsr hsc
  have hlow {a : Nat} (ha : a < Config.tileBase) : t.mem.read a = u.mem.read a :=
    hrest a fun hin => Nat.not_lt.2 hin.inTile.1 ha
  exact {
    tables := fun a ha => by
      have hbounds := ha.bounds
      have hnot : ¬ InCells n a := fun hin => Nat.not_lt.2 (hin.bounds hn.2).1 hbounds.2
      rw [hlow (lt_of_lt_of_le hbounds.2 (by decide)), hkept a hnot]
      rfl
    scratch := fun a ha => by
      rw [hlow (ha.bounds hn.2).2, hblock a ha]
      rfl
    tile := fun a ha hright => by
      by_cases hin : InCellTile n o.reg (fr, fc, sr, sc) a
      · obtain ⟨b, hb, x, y, hreq, hsub, rfl⟩ := hin
        have hbyte := hcopied b hb x y ((hcursor.copied_iff hsr hsc).2 ⟨hreq, hsub⟩)
        rw [hcursor.operands.copyTo] at hbyte
        exact hbyte.trans (hcursor.copied_byte ⟨hon.present, hon.opened, hok⟩ b hreq hsub)
      · have hnot : ¬ InCells n a := fun hcell => Nat.not_lt.2 ha (hcell.bounds hn.2).2
        obtain hright | ⟨c, hc, hcin⟩ := hright
        · rw [hrest a (mt (hcursor.inCopy_iff hsr hsc).1 hin), hkept a hnot, hright]
        · exact absurd ((List.mem_singleton.1 hc) ▸ hcin) hin }

/-- One cell: it is logged if its bytes were fetched (R145). -/
theorem visitCell_contents {o : State} {n fr fc sr sc : Nat} {s t : State} (hn : 0 < n ∧ n ≤ 3) (hon : OnFrame o n fr fc s)
    (hsr : sr < 6) (hsc : sc < 6) (h : visitCell n (u32 o.reg.framesV - 1 - fr) fc sr sc s = .ok t) :
    ContentsLog o n [] (if (bytesOf o.env o.reg fr fc sr sc).ok = true then [(fr, fc, sr, sc)] else []) s t := by
  have hanswer : s.env.cell.answer (cell16 (u32 o.reg.framesV - 1 - fr), cell16 fc, cell3 sr, cell3 sc) =
      bytesOf o.env o.reg fr fc sr sc := by
    rw [hon.env]
    rfl
  have hended := visitCell_ended h
  rw [hanswer] at hended
  obtain ⟨hok, u, hdecode, hcopy⟩ | ⟨hok, rfl⟩ := hended
  · rw [if_pos hok]
    have hlog := fetchedCell_contents hn (hon.note _) hsr hsc hok hdecode hcopy
    exact hlog.congr rfl rfl
  · rw [if_neg (by rw [hok]; decide)]
    exact .of_mem_eq rfl

/-- What the cells of a frame did to the registers (10_state.md R32) and to the memories. -/
def CellContents (o : State) (n : Nat) (cells : List (Nat × Nat × Nat × Nat)) (s t : State) : Prop :=
  CellLog 0 cells s t ∧ ContentsLog o n [] cells s t

theorem CellContents.refl (o : State) (n : Nat) (s : State) : CellContents o n [] s s := ⟨.refl s, .of_mem_eq rfl⟩

theorem CellContents.trans {o : State} {n : Nat} {cells more : List (Nat × Nat × Nat × Nat)} {s t u : State}
    (h1 : CellContents o n cells s t) (h2 : CellContents o n more t u) : CellContents o n (cells ++ more) s u :=
  ⟨h1.1.trans h2.1, h1.2.trans h2.2⟩

/-- The cells of an opened frame (R142). -/
theorem visitCells_contents {o : State} {n fr fc : Nat} {s t : State} (hn : 0 < n ∧ n ≤ 3) (hon : OnFrame o n fr fc s)
    (haim : AimedAt o.reg fr fc s.reg) (hc : CoveredFrame o.reg fr fc)
    (h : visitCells n (u32 o.reg.framesV - 1 - fr) fc s = .ok t) :
    ContentsLog o n [] (cellsOf o.env o.reg (fr, fc)) s t := by
  obtain ⟨-, hrows, -⟩ := hc.meetsRows.subs
  obtain ⟨-, hcols, -⟩ := hc.meetsCols.subs
  have hcell : ∀ sr ∈ upTo (u32 s.reg.sr0) (u32 s.reg.sr1), ∀ sc ∈ upTo (u32 s.reg.sc0) (u32 s.reg.sc1), ∀ u v,
      OnFrame o n fr fc u → visitCell n (u32 o.reg.framesV - 1 - fr) fc sr sc u = .ok v →
        CellContents o n (if (bytesOf o.env o.reg fr fc sr sc).ok = true then [(fr, fc, sr, sc)] else []) u v := by
    intro sr hsr sc hsc u v hu hv
    have hsr' := mem_upTo.1 (haim.rows ▸ hsr)
    have hsc' := mem_upTo.1 (haim.cols ▸ hsc)
    have hlog := visitCell_log fr hv
    rw [hu.env] at hlog
    exact ⟨hlog, visitCell_contents hn hu (by omega) (by omega) hv⟩
  have hlog := visitCells_logs (CellContents.refl o n) (fun _ _ _ _ _ => CellContents.trans)
    (fun _ _ _ hu huv => hu.keep huv.1 huv.2) hcell hon h
  rw [haim.rows, haim.cols] at hlog
  rw [cellsOf, if_pos hon.opened]
  exact hlog.2

theorem AimedAt.countOpen {o : Regs} {fr fc : Nat} {s : State} (h : AimedAt o fr fc s.reg) :
    AimedAt o fr fc (countOpen s).reg :=
  { h with operands := h.operands.trans rfl }

/-- The work on an opened frame: its tables, then its cells (R142, R144). -/
theorem openedFrame_contents {o : State} {n fr fc : Nat} {s t : State} (hn : 0 < n ∧ n ≤ 3) (henv : s.env = o.env)
    (haim : AimedAt o.reg fr fc s.reg) (hc : CoveredFrame o.reg fr fc)
    (hpresent : o.env.present.answer (cell16 fr, cell16 fc) = true) (hok : (tablesOf o.env o.reg fr fc).ok = true)
    (h : visitCells n (u32 o.reg.framesV - 1 - fr) fc (loadTables n (tablesOf o.env o.reg fr fc) s) = .ok t) :
    ContentsLog o n [(fr, fc)] (cellsOf o.env o.reg (fr, fc)) s t := by
  have hloads := loadTables_contents o hn.2 fr fc s
  obtain ⟨heffect, hreg⟩ := loadTables_quiet n (hn.2.trans (by decide)) (tablesOf o.env o.reg fr fc) s
  rw [← hreg] at haim
  have hon : OnFrame o n fr fc (loadTables n (tablesOf o.env o.reg fr fc) s) := {
    env := heffect.env.trans henv
    operands := haim.operands
    curFr := haim.curFr
    curFc := haim.curFc
    present := hpresent
    opened := hok
    loaded := hloads.tables }
  exact hloads.trans (visitCells_contents hn hon haim hc h)

/-- A frame that exists: it is logged, with its cells, if it opens (R144). -/
theorem visitPresent_contents {o : State} {n fr fc : Nat} {s t : State} (hn : 0 < n ∧ n ≤ 3) (henv : s.env = o.env)
    (haim : AimedAt o.reg fr fc s.reg) (hc : CoveredFrame o.reg fr fc)
    (hpresent : o.env.present.answer (cell16 fr, cell16 fc) = true)
    (h : visitPresent n (u32 s.reg.diskRow) fc s = .ok t) :
    ContentsLog o n ([(fr, fc)].filter fun f => (tablesOf o.env o.reg f.1 f.2).ok) (cellsOf o.env o.reg (fr, fc)) s t := by
  have hanswer : s.env.frame.answer (cell16 (u32 o.reg.framesV - 1 - fr), cell16 fc) = tablesOf o.env o.reg fr fc := by
    rw [henv]
    rfl
  rw [haim.diskRow] at h
  have hended := visitPresent_ended h
  rw [hanswer] at hended
  obtain ⟨hok, u, hcells, rfl⟩ | ⟨hok, rfl⟩ := hended
  · rw [List.filter_singleton, hok, cond_true]
    exact (openedFrame_contents (s := countOpen (note _ s)) hn henv (haim.countOpen (s := note _ s)) hc hpresent hok
      hcells).congr rfl rfl
  · rw [List.filter_singleton, hok, cellsOf, if_neg (by rw [hok]; decide)]
    exact .of_mem_eq rfl

/-- One covered frame: it is logged if it exists and opens (R143, R144). -/
theorem visitFrame_contents {o : State} {n fr fc : Nat} {s t : State} (hn : 0 < n ∧ n ≤ 3) (henv : s.env = o.env)
    (hk : TileRegs o.reg s.reg) (hc : CoveredFrame o.reg fr fc) (h : visitFrame n fr fc s = .ok t) :
    let frames := if o.env.present.answer (cell16 fr, cell16 fc) = true then [(fr, fc)] else []
    ContentsLog o n (frames.filter fun f => (tablesOf o.env o.reg f.1 f.2).ok) (frames.flatMap (cellsOf o.env o.reg)) s t := by
  have hended := visitFrame_ended h
  rw [henv] at hended
  obtain ⟨hpresent, h⟩ | ⟨hpresent, rfl⟩ := hended
  · simp only [hpresent, if_true, List.flatMap_singleton]
    have haim := aimAtFrame_aimed (s := note (.locExists (cell16 fr) (cell16 fc)) s) hk hc
    exact (visitPresent_contents (s := aimAtFrame fr fc (note _ s)) hn henv haim hc hpresent h).congr rfl rfl
  · simp only [hpresent, Bool.false_eq_true, if_false]
    exact .of_mem_eq rfl

/-- The frames of `get_tile()`, from its prologue on (R142). -/
theorem getTileBody_contents {n : Nat} {s t : State} (hn : 0 < n ∧ n ≤ 3) (himg : ImageIsFrames s.reg)
    (h : getTileBody n s = .ok t) :
    ContentsLog s n (openedFrames s.env s.reg) (fetchedCells s.env s.reg) (getTilePrologue n s) t := by
  have hframes := getTileBody_logs (R := fun l u v => ContentsLog s n (l.filter fun f => (tablesOf s.env s.reg f.1 f.2).ok)
      (l.flatMap (cellsOf s.env s.reg)) u v) hn.2 himg (fun _ => .of_mem_eq rfl)
    (fun l m u v w h1 h2 => by
      rw [List.filter_append, List.flatMap_append]
      exact h1.trans h2)
    (fun fr fc u v hc henv hk hv => visitFrame_contents hn henv hk hc hv) h
  have hpresent : presentFrames s.env s.reg = if emptyOfImage s.reg = true then [] else
      (coveredRows s.reg).flatMap (fun fr => (coveredCols s.reg).flatMap (fun fc =>
        if s.env.present.answer (cell16 fr, cell16 fc) = true then [(fr, fc)] else [])) := by
    split
    case isTrue he => exact presentFrames_empty he _
    case isFalse he => exact presentFrames_eq he
  rw [fetchedCells_eq, openedFrames, hpresent]
  exact hframes

/-- Up to the frames the tile is BLANK and nothing else has changed (R142). -/
theorem getTilePrologue_read (n : Nat) (s : State) :
    (∀ a, Config.tileBase ≤ a ∧ a < Config.tileBase + tileBytes s.reg n →
      (getTilePrologue n s).mem.read a = some s.reg.blank) ∧
    ∀ a, ¬ (Config.tileBase ≤ a ∧ a < Config.tileBase + tileBytes s.reg n) →
      (getTilePrologue n s).mem.read a = s.mem.read a := by
  obtain ⟨hsets, hblank⟩ := (tfillBody_fills n { s with reg := { s.reg with fopenCnt := 0 } }).sets
  exact ⟨hblank, fun a ha => hsets.read_other ha⟩

end Sys2Proof.Machine
end

section
/-! SUPPORT. What a GETTILE leaves in the memories and issues on the ports, from its logs (41_compositor.md R143 to R149). -/

namespace Sys2Proof.Machine

/-! ### The covered frames and the fetched cells -/

/-- The covered frames are those that hold a pixel of rectangle and image (R132). -/
theorem mem_coveredFrames_iff {g : Regs} {fr fc : Nat} :
    (fr, fc) ∈ coveredFrames g ↔ ∃ x y, Requested g x y ∧ InFrame fr fc x y := by
  by_cases h : emptyOfImage g = true
  · have hnone : coveredFrames g = [] := if_pos h
    rw [hnone]
    exact ⟨fun hmem => (by cases hmem), fun ⟨x, y, hxy, _⟩ => absurd ⟨x, y, hxy⟩ (emptyOfImage_iff_no_pixel.1 h)⟩
  · obtain ⟨hx0, hx, -, hy0, hy, -⟩ := clip_covered h
    rw [coveredFrames_eq h, frame_pixel_iff h, ← frame_meets_iff hx, ← frame_meets_iff hy]
    simp only [List.mem_flatMap, List.mem_map, Prod.mk.injEq, coveredRows, coveredCols, mem_upTo]
    constructor
    · rintro ⟨_, hfr, _, hfc, rfl, rfl⟩
      omega
    · rintro ⟨hfc, hfr⟩
      exact ⟨fr, by omega, fc, by omega, rfl, rfl⟩

/-- A cell with a pixel of rectangle and image, its bytes there to be had, is fetched (R145). -/
theorem mem_fetchedCells {e : Env} {g : Regs} {cell : Nat × Nat × Nat × Nat} {x y : Int} (hreq : Requested g x y)
    (hin : InSub cell x y) (h : Fetched e g cell) : cell ∈ fetchedCells e g := by
  obtain ⟨fr, fc, sr, sc⟩ := cell
  obtain ⟨hsr, hsc, hcell⟩ := hin
  obtain ⟨hpresent, hopened, hfetched⟩ := h
  dsimp only at *
  have hne : ¬ emptyOfImage g = true := fun he => emptyOfImage_iff_no_pixel.1 he ⟨x, y, hreq⟩
  have hframe : InFrame fr fc x y := by
    simp only [InFrame, InCell] at hcell ⊢
    omega
  obtain ⟨hmx, hmy⟩ := (frame_pixel_iff hne).1 ⟨x, y, hreq, hframe⟩
  obtain ⟨hrow, hcol⟩ := (cell_pixel_iff hmx hmy sr sc).2 ⟨hsr, hsc, x, y, hreq, hcell⟩
  have hopen : (fr, fc) ∈ openedFrames e g :=
    List.mem_filter.2 ⟨List.mem_filter.2 ⟨mem_coveredFrames_iff.2 ⟨x, y, hreq, hframe⟩, hpresent⟩, hopened⟩
  refine List.mem_flatMap.2 ⟨_, hopen, List.mem_flatMap.2 ⟨sr, mem_upTo.2 hrow, List.mem_map.2 ⟨sc, ?_, rfl⟩⟩⟩
  exact List.mem_filter.2 ⟨mem_upTo.2 hcol, hfetched⟩

/-- A pixel of the image lies in its cell (R133). -/
theorem inSub_cellAt {x y : Int} (hx : 0 ≤ x) (hy : 0 ≤ y) : InSub (cellAt x y) x y := by
  simp only [InSub, cellAt, InCell]
  omega

/-- A byte of the tile is BLANK, or its pixel is one of a fetched cell (R146). -/
theorem tileByte_cases {s : State} {n b r c : Nat} (hb : b < n) (hr : r < rectHeight s.reg) (hc : c < rectWidth s.reg) :
    tileByte s b r c = s.reg.blank ∨ ∃ cell ∈ fetchedCells s.env s.reg, InCellTile n s.reg cell
      (Config.tileBase + (b * (rectWidth s.reg * rectHeight s.reg) + r * rectWidth s.reg + c)) := by
  by_cases hreq : Requested s.reg (rectLeft s.reg + c) (rectTop s.reg + r)
  case neg => exact .inl (tileByte_of_not_requested hr hc hreq)
  obtain ⟨hl, -, ht, -, hx, -, hy, -⟩ := id hreq
  have hin := inSub_cellAt hx hy
  by_cases hf : Fetched s.env s.reg (cellAt (rectLeft s.reg + c) (rectTop s.reg + r))
  case neg => exact .inl ((tileByte_of_requested hreq).trans (imageByte_of_not_fetched hin hf))
  refine .inr ⟨_, mem_fetchedCells hreq hin hf, b, hb, _, _, hreq, hin, ?_⟩
  rw [copyTo_eq b hl ht]
  simp only [add_sub_cancel_left, Int.toNat_natCast]

/-! ### The memories -/

/-- An offset in a tile is one of a band, a row and a column (20_memory.md R71). -/
theorem exists_planar {n w h o : Nat} (ho : o < w * h * n) :
    ∃ b < n, ∃ r < h, ∃ c < w, o = b * (w * h) + r * w + c := by
  have hpos : 0 < w * h := Nat.pos_of_ne_zero fun h0 => by simp [h0] at ho
  have hw : 0 < w := Nat.pos_of_mul_pos_right hpos
  refine ⟨o / (w * h), Nat.div_lt_of_lt_mul ho, o % (w * h) / w, Nat.div_lt_of_lt_mul (Nat.mod_lt _ hpos), o % (w * h) % w,
    Nat.mod_lt _ hw, ?_⟩
  rw [Nat.add_assoc, Nat.div_add_mod', Nat.div_add_mod']

/-- The memories after `get_tile`, from those before it. -/
structure TileContents (s : State) (n : Nat) (t : State) : Prop where
  /-- CB and PAL hold the tables of the last frame opened (R144). -/
  tables : ∀ a, InTables n a →
    t.mem.read a = lastOr (fun f => tableImage (tablesOf s.env s.reg f.1 f.2) a) (s.mem.read a) (openedFrames s.env s.reg)
  /-- CBUF and BLK hold the bytes and the block of the last cell fetched (R145). -/
  scratch : ∀ a, InCells n a →
    t.mem.read a = lastOr (fun c => scratchOf s.env s.reg c a) (s.mem.read a) (fetchedCells s.env s.reg)
  /-- The tile holds what R146 says. -/
  tile : ∀ o < tileBytes s.reg n, t.mem.read (Config.tileBase + o) = tileImage s (Config.tileBase + o)
  /-- No other byte has changed (20_memory.md R71, 70_reset_and_hazards.md R235). -/
  others : ∀ a, ¬ InTables n a → ¬ InCells n a → ¬ (Config.tileBase ≤ a ∧ a < Config.tileBase + tileBytes s.reg n) →
    t.mem.read a = s.mem.read a

theorem getTileBody_tileContents {n : Nat} {s t : State} (hn : 0 < n ∧ n ≤ 3) (himg : ImageIsFrames s.reg)
    (h : getTileBody n s = .ok t) : TileContents s n t := by
  have hlog := getTileBody_contents hn himg h
  obtain ⟨hblank, hkept⟩ := getTilePrologue_read n s
  have hlow {a : Nat} (ha : a < Config.tileBase) : (getTilePrologue n s).mem.read a = s.mem.read a :=
    hkept a fun hin => Nat.not_lt.2 hin.1 ha
  exact {
    tables := fun a ha => by rw [hlog.tables a ha, hlow (lt_of_lt_of_le ha.bounds.2 (by decide))]
    scratch := fun a ha => by rw [hlog.scratch a ha, hlow (ha.bounds hn.2).2]
    tile := fun o ho => by
      obtain ⟨b, hb, r, hr, c, hc, rfl⟩ := exists_planar ho
      refine hlog.tile _ (Nat.le_add_right ..) ?_
      obtain hb' | hcell := tileByte_cases (s := s) hb hr hc
      · rw [tileImage_at b hr hc, hb']
        exact .inl (hblank _ ⟨Nat.le_add_right .., Nat.add_lt_add_left ho _⟩)
      · exact .inr hcell
    others := fun a ht hc htile => by
      obtain ⟨heffect, -⟩ := (getTileBody_visits n (hn.2.trans (by decide)) s).1 t h (TileRegs.refl _)
      refine heffect.read_other ?_
      rintro (hin | hin | hin | hin)
      · exact ht hin
      · exact hc (.inl hin)
      · exact hc (.inr hin)
      · exact htile hin }

/-- GETTILE at level 0 with its checks passed and every request answered: its body ends, and what it leaves. -/
theorem exec_getTile_contents {n : Nat} {s : State} (hinv : Inv s) (hopen : OpenWith n s) (hfits : TileFits n s)
    (hans : AllAnswered s) : ∃ t, exec (.getTile 0) s = .next (done t) ∧ TileResults s t ∧ TileContents s n t ∧
      Requests (tileTrace s.env s.reg) s t := by
  have hn := hopen.bands_le
  obtain ⟨t, ht⟩ := getTileBody_completes hn hans
  exact ⟨t, exec_getTile_zero hopen hfits ht, getTileBody_results hn.2 hinv.imageIsFrames ht,
    getTileBody_tileContents hn hinv.imageIsFrames ht, getTileBody_requests hn.2 hinv.imageIsFrames ht⟩

/-- A byte below CBUF that is none of the tables' is unchanged. -/
theorem TileContents.keeps_below_cbuf {s t : State} {n a : Nat} (h : TileContents s n t) (hn : n ≤ 3)
    (ha : a < Config.cbufBase) (hnot : ¬ InTables n a) : t.mem.read a = s.mem.read a :=
  h.others a hnot (fun hin => Nat.not_lt.2 (hin.bounds hn).1 ha)
    fun hin => Nat.not_lt.2 (le_trans (by decide) hin.1) ha

/-- A byte from CBUF up to TILE that no cell fills is unchanged. -/
theorem TileContents.keeps_below_tile {s t : State} {n a : Nat} (h : TileContents s n t) (hlo : Config.cbufBase ≤ a)
    (ha : a < Config.tileBase) (hnot : ¬ InCells n a) : t.mem.read a = s.mem.read a :=
  h.others a (fun hin => Nat.not_lt.2 hlo hin.bounds.2) hnot fun hin => Nat.not_lt.2 hin.1 ha

/-- With no frame opened CB and PAL are as they were. -/
theorem TileContents.tables_of_none {s t : State} {n a : Nat} (h : TileContents s n t) (hn : n ≤ 3)
    (hnone : (openedFrames s.env s.reg).getLast? = none)
    (ha : Space.cb.covers a = true ∨ Space.pal.covers a = true) : t.mem.read a = s.mem.read a := by
  by_cases hin : InTables n a
  · rw [h.tables a hin, lastOr_none hnone]
  · refine h.keeps_below_cbuf hn ?_ hin
    simp only [covers_iff, base_cb, size_cb, base_pal, size_pal, Config.cbBase, Config.cbSize, Config.palBase,
      Config.palSize] at ha
    simp only [Config.cbufBase]
    omega

/-- With no cell fetched CBUF and BLK are as they were. -/
theorem TileContents.scratch_of_none {s t : State} {n a : Nat} (h : TileContents s n t)
    (hnone : (fetchedCells s.env s.reg).getLast? = none)
    (ha : Space.cbuf.covers a = true ∨ Space.blk.covers a = true) : t.mem.read a = s.mem.read a := by
  by_cases hin : InCells n a
  · rw [h.scratch a hin, lastOr_none hnone]
  · simp only [covers_iff, base_cbuf, size_cbuf, base_blk, size_blk, Config.cbufBase, Config.cbufSize, Config.blkBase,
      Config.blkSize] at ha
    refine h.keeps_below_tile ?_ ?_ hin
    · simp only [Config.cbufBase]
      omega
    · simp only [Config.tileBase]
      omega

/-- PAL after the last frame opened: the answer's byte in the first BANDS bytes of an entry, the old one in the others (R183). -/
theorem TileContents.palette_of_last {s t : State} {n fr fc idx b : Nat} (h : TileContents s n t) (hn : n ≤ 3)
    (hlast : (openedFrames s.env s.reg).getLast? = some (fr, fc)) (hidx : idx < 256) (hb : b < 4) :
    t.mem.read (Config.palBase + (idx * 4 + b)) =
      if b < n then some ((tablesOf s.env s.reg fr fc).pal.byte (idx * 4 + b))
      else s.mem.read (Config.palBase + (idx * 4 + b)) := by
  split
  case isTrue hband => rw [h.tables _ ((inTables_pal_iff hidx hb).2 hband), lastOr_some hlast, tableImage_pal]
  case isFalse hband =>
    refine h.keeps_below_cbuf hn ?_ (mt (inTables_pal_iff hidx hb).1 hband)
    simp only [Config.palBase, Config.cbufBase]
    omega

/-- BLK after the last cell fetched: its block in the first BANDS planes, the old bytes in the others (R235). -/
theorem TileContents.block_of_last {s t : State} {n fr fc sr sc b r c : Nat} (h : TileContents s n t)
    (hlast : (fetchedCells s.env s.reg).getLast? = some (fr, fc, sr, sc)) (hb : b < 3) (hr : r < 256) (hc : c < 256) :
    t.mem.read (Config.blkBase + (b * 65536 + r * 256 + c)) =
      if b < n then some (answeredByte (tablesOf s.env s.reg fr fc) (bytesOf s.env s.reg fr fc sr sc) b r c)
      else s.mem.read (Config.blkBase + (b * 65536 + r * 256 + c)) := by
  split
  case isTrue hband => rw [h.scratch _ ((inCells_blk_iff hr hc).2 hband), lastOr_some hlast, scratchOf, cellImage_blk hr hc]
  case isFalse hband =>
    refine h.keeps_below_tile ?_ ?_ (mt (inCells_blk_iff hr hc).1 hband)
    · simp only [Config.cbufBase, Config.blkBase]
      omega
    · simp only [Config.tileBase, Config.blkBase]
      omega

/-! ### No frame present, no pixel shared -/

/-- No covered frame exists (R143). -/
theorem presentFrames_eq_nil {e : Env} {g : Regs}
    (h : ∀ fr ∈ coveredRows g, ∀ fc ∈ coveredCols g, e.present.answer (cell16 fr, cell16 fc) = false) :
    presentFrames e g = [] := by
  by_cases he : emptyOfImage g = true
  · exact presentFrames_empty he e
  · rw [presentFrames, coveredFrames_eq he, List.filter_eq_nil_iff]
    intro f hf
    obtain ⟨fr, hfr, hf⟩ := List.mem_flatMap.1 hf
    obtain ⟨fc, hfc, rfl⟩ := List.mem_map.1 hf
    exact Bool.eq_false_iff.1 (h fr hfr fc hfc)

/-- Then only the count, EMPTY and FR0..FC1 are written (R143). -/
theorem TileResults.reg_of_none {s t : State} (h : TileResults s t) (hnone : presentFrames s.env s.reg = []) :
    t.reg = { s.reg with
      empty := t.reg.empty, fopenCnt := 0, fr0 := t.reg.fr0, fr1 := t.reg.fr1, fc0 := t.reg.fc0, fc1 := t.reg.fc1 } := by
  have hframe : frameCursor t.reg = frameCursor s.reg := by
    rw [h.frame, hnone]
    rfl
  have hsub : subCursor t.reg = subCursor s.reg := by
    rw [h.sub, fetchedCells_eq, hnone]
    rfl
  have hcount : t.reg.fopenCnt = 0 := by
    rw [h.count, hnone]
    rfl
  simp only [frameCursor, Prod.mk.injEq] at hframe
  simp only [subCursor, Prod.mk.injEq] at hsub
  obtain ⟨hfr, hfc, hrow, hsr0, hsr1, hsc0, hsc1⟩ := hframe
  have hothers := h.others
  rw [TileRegs, hfr, hfc, hrow, hsr0, hsr1, hsc0, hsc1, hsub.1, hsub.2, hcount] at hothers
  exact hothers

/-- And the tile is BLANK (R143). -/
theorem tileImage_of_none {s : State} {n o : Nat} (hnone : presentFrames s.env s.reg = []) (ho : o < tileBytes s.reg n) :
    tileImage s (Config.tileBase + o) = some s.reg.blank := by
  obtain ⟨b, hb, r, hr, c, hc, rfl⟩ := exists_planar ho
  obtain hblank | ⟨cell, hcell, -⟩ := tileByte_cases (s := s) hb hr hc
  · rw [tileImage_at b hr hc, hblank]
  · rw [fetchedCells_eq, hnone] at hcell
    cases hcell

/-- With no shared pixel `get_tile` ends after its prologue (R149). -/
theorem getTileBody_of_empty {n : Nat} {s : State} (h : emptyOfImage s.reg = true) :
    getTileBody n s = .ok (getTilePrologue n s) := by
  have hempty : (getTilePrologue n s).reg.empty = true := by
    rw [getTilePrologue_reg]
    exact (frangeRegs_empty_eq _).trans h
  simp only [getTileBody, hempty, if_true]

/-! ### Two GETTILEs with the same operands -/

/-- The operands of a GETTILE are the same: BLANK, rectangle and image (R148). -/
def SameOperands (g h : Regs) : Prop :=
  h = { h with
    blank := g.blank, rectX0 := g.rectX0, rectY0 := g.rectY0, rectW := g.rectW, rectH := g.rectH
    imgW := g.imgW, imgH := g.imgH, framesH := g.framesH, framesV := g.framesV }

theorem SameOperands.tileBytes {g h : Regs} (hk : SameOperands g h) (n : Nat) : tileBytes h n = tileBytes g n := by
  rw [hk]
  rfl

theorem SameOperands.tileTrace {g h : Regs} (hk : SameOperands g h) (e : Env) : tileTrace e h = tileTrace e g := by
  rw [hk]
  rfl

theorem SameOperands.presentFrames {g h : Regs} (hk : SameOperands g h) (e : Env) :
    presentFrames e h = presentFrames e g := by
  rw [hk]
  rfl

theorem SameOperands.tileImage {s t : State} (hk : SameOperands s.reg t.reg) (henv : t.env = s.env) (a : Nat) :
    tileImage t a = tileImage s a := by
  obtain ⟨g, m, e, i, w, h⟩ := t
  dsimp only at hk henv
  rw [hk, henv]
  rfl

end Sys2Proof.Machine

open Sys2Proof Sys2Proof.Machine

/-- Settles O41: in the tile a byte is BLANK until the visit of its cell puts there what R146 says, and that stays. -/
theorem getTilePixels : Obligations.GetTilePixels := by
  intro s n hinv hopen hfits hans
  obtain ⟨t, hexec, -, hcontents, -⟩ := exec_getTile_contents hinv hopen hfits hans
  refine ⟨done t, hexec, fun b hb r hr c hc => ?_⟩
  exact (hcontents.tile _ (planar_lt hb hr hc)).trans (tileImage_at b hr hc)

/-- Settles O60: the last entries of the logs say what the scratch holds; beyond BANDS nothing is written. -/
theorem getTileScratchAfter : Obligations.GetTileScratchAfter := by
  intro s n hinv hopen hfits hans frames cells
  have hn := hopen.bands_le.2
  obtain ⟨t, hexec, -, hcontents, -⟩ := exec_getTile_contents hinv hopen hfits hans
  refine ⟨done t, hexec, fun hnone a ha => hcontents.tables_of_none hn hnone ha, fun fr fc hlast => ⟨fun k hk => ?_, ?_⟩,
    fun hnone a ha => hcontents.scratch_of_none hnone ha, fun fr fc sr sc hlast => ⟨fun p hp => ?_, ?_⟩⟩
  · rw [done_mem, hcontents.tables _ (inTables_cb hk), lastOr_some hlast, tableImage_cb hk]
  · exact fun idx hidx b hb => hcontents.palette_of_last hn hlast hidx hb
  · rw [done_mem, hcontents.scratch _ (inCells_cbuf hp), lastOr_some hlast, scratchOf, cellImage_cbuf hp]
  · exact fun b hb r hr c hc => hcontents.block_of_last hlast hb hr hc

/-- Settles O45: the logs are empty. -/
theorem getTileWithNoFramePresent : Obligations.GetTileWithNoFramePresent := by
  intro s n hinv hopen hfits hans habsent
  have hnone := presentFrames_eq_nil habsent
  obtain ⟨t, hexec, hresults, hcontents, -⟩ := exec_getTile_contents hinv hopen hfits hans
  refine ⟨done t, hexec, congrArg (fun g : Regs => { g with err := .ok }) (hresults.reg_of_none hnone), fun a ha => ?_,
    fun o ho => (hcontents.tile o ho).trans (tileImage_of_none hnone ho)⟩
  by_cases ht : InTables n a
  · rw [done_mem, hcontents.tables a ht, openedFrames, hnone]
    rfl
  by_cases hc : InCells n a
  · rw [done_mem, hcontents.scratch a hc, fetchedCells_eq, hnone]
    rfl
  refine hcontents.others a ht hc fun htile => ?_
  have hin : Space.tile.covers a = true := covers_iff.2 ⟨htile.1, htile.2.trans_le (Nat.add_le_add_left hfits _)⟩
  exact Bool.eq_false_iff.1 ha hin

/-- Settles O46: `get_tile` ends after its prologue. -/
theorem getTileOutOfImage : Obligations.GetTileOutOfImage := by
  intro s n hopen hfits hpixel
  have he := emptyOfImage_iff_no_pixel.2 hpixel
  obtain ⟨hblank, hkept⟩ := getTilePrologue_read n s
  refine ⟨_, exec_getTile_zero hopen hfits (getTileBody_of_empty he), ?_, (getTilePrologue_effect n s).portTrace_eq, ?_, ?_⟩
  · rw [done_reg, getTilePrologue_reg, frangeRegs_empty (g := { s.reg with fopenCnt := 0 }) he]
  · exact fun o ho => hblank _ ⟨Nat.le_add_right .., Nat.add_lt_add_left ho _⟩
  · intro a ha
    refine hkept a ?_
    simp only [tileBytes]
    omega

/-- Settles O47: tile, count and requests are functions of the operands and the answers. -/
theorem getTileIdempotent : Obligations.GetTileIdempotent := by
  intro s1 s2 n hinv1 hinv2 hopen1 hfits1 hans1 hstate hproduct henv hblank hx0 hy0 hw hh hiw hih hfh hfv
  have hk : SameOperands s1.reg s2.reg := by
    rw [SameOperands, ← hblank, ← hx0, ← hy0, ← hw, ← hh, ← hiw, ← hih, ← hfh, ← hfv]
  have hopen2 : OpenWith n s2 := ⟨hstate, hproduct ▸ hopen1.2⟩
  have hfits2 : TileFits n s2 := (hk.tileBytes n).trans_le hfits1
  have hans2 : AllAnswered s2 := by
    rw [AllAnswered, henv]
    exact hans1
  obtain ⟨t1, hexec1, hresults1, hcontents1, hrequests1⟩ := exec_getTile_contents hinv1 hopen1 hfits1 hans1
  obtain ⟨t2, hexec2, hresults2, hcontents2, hrequests2⟩ := exec_getTile_contents hinv2 hopen2 hfits2 hans2
  rw [henv, hk.tileTrace] at hrequests2
  refine ⟨done t1, done t2, _, hexec1, hexec2, fun o ho => ?_, ?_, hrequests1, hrequests2⟩
  · have h2 := hcontents2.tile o (ho.trans_eq (hk.tileBytes n).symm)
    rw [hk.tileImage henv] at h2
    exact (hcontents1.tile o ho).trans h2.symm
  · have h2 := hresults2.count
    rw [henv, hk.presentFrames] at h2
    exact hresults1.count.trans h2.symm
end

section
/-! SUPPORT. The commands of the facade one by one (42_facade.md R161 to R168): what each leaves in Open and outside it, and that
every command but OPEN begins with the state check (60_exceptions.md R206). -/

namespace Sys2Proof.Machine

/-! ### The state check (R167) -/

/-- Outside Open every command but OPEN stops at its state check. -/
theorem exec_other {i : Instr} {s : State} (hi : i ≠ .openSource) (h : s.reg.state ≠ .opened) :
    exec i s = .next (raiseErr .notOpen s) := by
  have hrun : runInstr i s = .ok (raiseErr .notOpen s) := by
    cases i with
    | openSource => exact absurd rfl hi
    | closeSource | getTile | getImageRect | decode | frange | srange | tfill | blkcopy => apply whenOpen_other h
  rw [exec_eq, hrun, conclude_ok]

/-! ### CLOSE, GETIMAGERECT and GETTILE in Open -/

theorem exec_closeSource {s : State} (h : s.reg.state = .opened) :
    exec .closeSource s = .next (done { s with reg := closedRegs s.reg }) := by
  rw [exec_eq, runInstr, runClose, whenOpen_opened h, conclude_ok]

theorem exec_getImageRect {s : State} (h : s.reg.state = .opened) :
    exec .getImageRect s = .next (done { s with reg := imageRectRegs s.reg }) := by
  rw [exec_eq, runInstr, runGetImageRect, whenOpen_opened h, conclude_ok]

/-- The level check comes before the band count and the capacity check (R168). -/
theorem exec_getTile_level {s : State} {level : Nat} (h : s.reg.state = .opened) (hlevel : level ≠ 0) :
    exec (.getTile level) s = .next (raiseErr .noOverview s) := by
  rw [exec_eq, runInstr, runGetTile, whenOpen_opened h, if_pos hlevel, conclude_ok]

/-! ### OPEN (R161 to R163) -/

theorem exec_openSource_other {s : State} (h : s.reg.state ≠ .closed) :
    exec .openSource s = .next (raiseErr .badState s) := by
  rw [exec_eq, runInstr, runOpen, if_pos h, conclude_ok]

/-- OPEN in Closed, its one request answered. -/
theorem exec_openSource_answered {s : State} (h : s.reg.state = .closed) (hans : .catLookup s.reg.handle ∉ s.env.silent) :
    exec .openSource s = .next (settleOpen (s.env.lookup.answer s.reg.handle)
      (note (.catLookup s.reg.handle) { s with reg := { s.reg with state := .opening } })) := by
  rw [exec_eq, runInstr, runOpen, if_neg (not_not.2 h)]
  exact congrArg conclude (bind_of_ok (catLookup_ok (s := { s with reg := { s.reg with state := .opening } }) hans) _)

theorem resolve_gray {r : CatAnswer} (hok : r.ok = true) (htag : r.tag = Config.tagGray) : resolve r = .grayscale := by
  rw [resolve, if_neg (Bool.not_eq_false _ ▸ hok), if_pos htag]

theorem resolve_rgb {r : CatAnswer} (hok : r.ok = true) (htag : r.tag = Config.tagRgb) : resolve r = .rgb := by
  have hgray : r.tag ≠ Config.tagGray := htag ▸ by decide
  rw [resolve, if_neg (Bool.not_eq_false _ ▸ hok), if_neg hgray, if_pos htag]

theorem resolve_unknown {r : CatAnswer}
    (h : r.ok = false ∨ (r.tag ≠ Config.tagGray ∧ r.tag ≠ Config.tagRgb)) : resolve r = .unknown := by
  obtain hfailed | ⟨hgray, hrgb⟩ := h
  · exact if_pos hfailed
  · rw [resolve, if_neg hgray, if_neg hrgb, ite_self]

theorem settleOpen_unknown {r : CatAnswer} (h : resolve r = .unknown) (s : State) :
    settleOpen r s = raiseErr .config { s with reg := closedRegs s.reg } := by
  rw [settleOpen, h]

theorem settleOpen_known {r : CatAnswer} {p : ProductType} (h : resolve r = p) (hp : p ≠ .unknown) (s : State) :
    settleOpen r s = done { s with reg := openRegs p r s.reg } := by
  rw [settleOpen, h]
  cases p with
  | unknown => exact absurd rfl hp
  | grayscale | rgb => rfl

/-- A refused OPEN closes the facade (R161). -/
theorem settleOpen_config_closed {r : CatAnswer} {s : State} (h : (settleOpen r s).reg.err = .config) :
    (settleOpen r s).reg.state = .closed := by
  obtain hset | ⟨p, -, hset⟩ := settleOpen_cases r s
  · rw [hset]
    rfl
  · rw [hset] at h
    cases h

/-- A side of the grid in pixels, as a register: the product of the words is the word of the product (R11). -/
theorem wordOfNat_pixels (v : BitVec 16) : wordOfNat (v.toNat * 1536) = v.setWidth 32 * 1536 := by
  rw [wordOfNat, BitVec.ofNat_mul, BitVec.ofNat_toNat]
  rfl

/-- The image of an opened source, with the extent as products of words (R163). -/
theorem openRegs_eq (p : ProductType) (r : CatAnswer) (g : Regs) : openRegs p r g = { g with
    state := .opened, product := p
    framesH := r.framesH.setWidth 32, framesV := r.framesV.setWidth 32
    imgW := r.framesH.setWidth 32 * 1536, imgH := r.framesV.setWidth 32 * 1536 } := by
  have hcount (v : BitVec 16) : wordOfNat v.toNat = v.setWidth 32 := BitVec.ofNat_toNat ..
  simp only [openRegs, Config.frameDim, wordOfNat_pixels, hcount]

end Sys2Proof.Machine

open Sys2Proof Sys2Proof.Machine

/-- Settles O38: the state check is the first of every command but OPEN, and an OPEN that ends with E_CONFIG was closed by
the refusal. -/
theorem configurationGate : Obligations.ConfigurationGate := by
  refine ⟨fun i s hi hs => exec_other hi hs, fun s t hexec herr => ?_⟩
  by_cases hs : s.reg.state = .closed
  · obtain ⟨e, -, -, rfl⟩ | hdone := exec_ends hexec
    · exact hs
    · rw [show t = _ from hdone] at herr ⊢
      exact settleOpen_config_closed herr
  · rw [exec_openSource_other hs] at hexec
    cases hexec
    cases herr

/-- Settles O40: with its requests answered `get_tile` ends, and what it did are its own acts on its own registers. -/
theorem getTileCompletes : Obligations.GetTileCompletes := by
  intro s n hopen hfits hans
  obtain ⟨hpos, hn⟩ := hopen.bands_le
  obtain ⟨t, ht⟩ := getTileBody_completes ⟨hpos, hn⟩ hans
  obtain ⟨heffect, hregs⟩ := (getTileBody_visits n (hn.trans (by decide)) s).1 t ht (TileRegs.refl _)
  exact ⟨done t, exec_getTile_zero hopen hfits ht, heffect.env, heffect.inbox, heffect.answer,
    congrArg (fun g : Regs => { g with err := .ok }) hregs⟩

/-- Settles O35: the state check, then the catalog's answer by its product. -/
theorem openResult : Obligations.OpenResult := by
  refine ⟨rfl, fun s hs => exec_openSource_other hs, fun s hs hans => ?_⟩
  intro r hist grid
  rw [exec_openSource_answered hs hans]
  refine ⟨fun hok htag => ?_, fun hok htag => ?_, fun hno => ?_⟩
  · rw [settleOpen_known (resolve_gray hok htag) (by decide), openRegs_eq]
    rfl
  · rw [settleOpen_known (resolve_rgb hok htag) (by decide), openRegs_eq]
    rfl
  · rw [settleOpen_unknown (resolve_unknown hno)]
    rfl

/-- Settles O36: CLOSE has the state check and no other. -/
theorem closeResult : Obligations.CloseResult :=
  ⟨rfl, fun _ => ⟨fun h => exec_closeSource h, fun h => exec_other (by decide) h⟩⟩

/-- Settles O37: GETIMAGERECT has the state check and no other. -/
theorem getImageRectResult : Obligations.GetImageRectResult :=
  ⟨rfl, fun _ => ⟨fun h => exec_getImageRect h, fun h => exec_other (by decide) h⟩⟩

/-- Settles O39: the level check is the first after the state check. -/
theorem getTileLevelRefused : Obligations.GetTileLevelRefused :=
  fun _ _ hopen hlevel => exec_getTile_level hopen hlevel
end

section
/-! SUPPORT. Why OPEN and GETTILE can stop (43_external_ports.md R180, R189, 93_implementation_defined.md U5): a request waits for
ever, and nothing else stops them, since the tables are loaded before a cell is fetched and CBUF before it is decoded. -/

namespace Sys2Proof.Machine

/-! ### Runs that only wait -/

/-- The run ends in a state that `P` holds of, or it waits for ever on a request that the environment never answers (log
entry 9). -/
inductive EndsOrWaits (env : Env) (P : State → Prop) : Run State → Prop
  | ok {t : State} (h : P t) : EndsOrWaits env P (.ok t)
  | waits {r : PortReq} {u : State} (h : r ∈ env.silent) : EndsOrWaits env P (.error ⟨.portHang r, u⟩)

theorem EndsOrWaits.bind {env : Env} {P Q : State → Prop} {r : Run State} {f : State → Run State} (h : EndsOrWaits env P r)
    (hf : ∀ t, P t → EndsOrWaits env Q (f t)) : EndsOrWaits env Q (r >>= f) := by
  cases h with
  | ok ht => exact hf _ ht
  | waits hsilent => exact .waits hsilent

/-- A request waits for ever only where the environment never answers it (R189). -/
theorem EndsOrWaits.request {α : Type} {env : Env} {P : State → Prop} {r : PortReq} {s : State} {m : Run (State × α)}
    {f : State × α → Run State} (hm : Asks r s m) (henv : s.env = env) (h : ∀ x, EndsOrWaits env P (f (note r s, x))) :
    EndsOrWaits env P (m >>= f) := by
  obtain ⟨x, rfl⟩ := hm
  split
  case isTrue hsilent => exact .waits (henv ▸ hsilent)
  case isFalse => exact h x

theorem EndsOrWaits.loop {α : Type} {env : Env} {P : State → Prop} {xs : List α} {body : α → State → Run State}
    (h : ∀ x s, P s → EndsOrWaits env P (body x s)) {s : State} (hs : P s) : EndsOrWaits env P (forEach xs body s) := by
  induction xs generalizing s with
  | nil => exact .ok hs
  | cons x rest ih =>
    have hpass := h x s hs
    generalize hb : body x s = r at hpass
    cases hpass with
    | ok ht =>
      rw [forEach_cons_ok hb]
      exact ih ht
    | waits hsilent =>
      rw [forEach_cons_error hb]
      exact .waits hsilent

/-! ### The visits of `get_tile` -/

/-- What the work on the cells of an opened frame keeps: the environment, and a value in every byte of the tables. -/
def CellsReady (env : Env) (n : Nat) (s : State) : Prop := s.env = env ∧ TablesLoaded n s

theorem CellsReady.keep {env : Env} {n : Nat} {P : Nat → Prop} {Q : PortReq → Prop} {s t : State} (h : CellsReady env n s)
    (he : Effect P Q s t) : CellsReady env n t :=
  ⟨he.env.trans h.1, fun a ha => he.hasValue (h.2 a ha)⟩

theorem CellsReady.regs {env : Env} {n : Nat} {s : State} (h : CellsReady env n s) (g : Regs) :
    CellsReady env n { s with reg := g } := h

theorem CellsReady.note {env : Env} {n : Nat} {s : State} (h : CellsReady env n s) (r : PortReq) :
    CellsReady env n (note r s) :=
  h.keep (note_effect (P := AnyOffset) (Q := fun _ => True) r s trivial)

/-- A fetched cell is decoded and copied without a stop: the loads gave every byte that the two consume a value (R183, R184). -/
theorem fetchedCell_endsOrWaits {env : Env} {n : Nat} (hn : 0 < n ∧ n ≤ 3) (sr sc : Word) (f : FetchAnswer) {s : State}
    (h : CellsReady env n s) : EndsOrWaits env (CellsReady env n) (decodeBody n (loadCompressed f s) >>= fun u =>
      blkcopyBody n { u with reg := { u.reg with curSr := sr, curSc := sc } }) := by
  have hload := loadCompressed_fills f s
  have hready := h.keep hload.sets.1.quiet.1
  have hdec := hready.2.decodable hn.2 fun a ha => hload.hasValue (covers_iff.1 ha) rfl
  obtain ⟨u, hu, hset, hblock⟩ := decodeBody_fills hdec hn
  have hvalues (a : Nat) (ha : InPlanes n a) : HasValue u a := by
    rw [HasValue, hblock a ha]
    exact blockImage_isSome hdec ha
  obtain ⟨t, ht⟩ := blkcopyBody_completes (s := { u with reg := { u.reg with curSr := sr, curSc := sc } }) hn.2 hvalues
  rw [bind_of_ok hu, ht]
  exact .ok (((hready.keep hset.quiet.1).regs _).keep ((blkcopyBody_quiet n _).1 t ht).1)

theorem visitCell_endsOrWaits {env : Env} {n : Nat} (hn : 0 < n ∧ n ≤ 3) (dr fc sr sc : Nat) {s : State}
    (h : CellsReady env n s) : EndsOrWaits env (CellsReady env n) (visitCell n dr fc sr sc s) := by
  refine EndsOrWaits.request (frmFetch_asks dr fc sr sc s) h.1 fun f => ?_
  have hnote := h.note (.frmFetch (cell16 dr) (cell16 fc) (cell3 sr) (cell3 sc))
  dsimp only
  split
  · exact fetchedCell_endsOrWaits hn (wordOfNat sr) (wordOfNat sc) f hnote
  · exact .ok hnote

theorem visitCells_endsOrWaits {env : Env} {n : Nat} (hn : 0 < n ∧ n ≤ 3) (dr fc : Nat) {s : State}
    (h : CellsReady env n s) : EndsOrWaits env (CellsReady env n) (visitCells n dr fc s) :=
  .loop (fun sr _ hu => .loop (fun sc _ hw => visitCell_endsOrWaits hn dr fc sr sc hw) hu) h

theorem visitPresent_endsOrWaits {env : Env} {n : Nat} (hn : 0 < n ∧ n ≤ 3) (dr fc : Nat) {s : State} (h : s.env = env) :
    EndsOrWaits env (·.env = env) (visitPresent n dr fc s) := by
  refine EndsOrWaits.request (frmOpen_asks dr fc s) h fun o => ?_
  dsimp only
  split
  · have htables := (loadTables_quiet n (hn.2.trans (by decide)) o
      (countOpen (note (.frmOpen (cell16 dr) (cell16 fc)) s))).1.env
    exact (visitCells_endsOrWaits hn dr fc ⟨htables.trans h, loadTables_loaded n hn.2 o _⟩).bind fun _ ht => .ok ht.1
  · exact .ok h

theorem visitFrame_endsOrWaits {env : Env} {n : Nat} (hn : 0 < n ∧ n ≤ 3) (fr fc : Nat) {s : State} (h : s.env = env) :
    EndsOrWaits env (·.env = env) (visitFrame n fr fc s) := by
  refine EndsOrWaits.request (locExists_asks fr fc s) h fun present => ?_
  dsimp only
  split
  · exact visitPresent_endsOrWaits hn _ fc h
  · exact .ok h

theorem visitFrames_endsOrWaits {env : Env} {n : Nat} (hn : 0 < n ∧ n ≤ 3) {s : State} (h : s.env = env) :
    EndsOrWaits env (·.env = env) (visitFrames n s) :=
  .loop (fun fr _ hu => .loop (fun fc _ hw => visitFrame_endsOrWaits hn fr fc hw) hu) h

/-- `get_tile()` stops only to wait (R142, R189). -/
theorem getTileBody_endsOrWaits {n : Nat} (hn : 0 < n ∧ n ≤ 3) (s : State) :
    EndsOrWaits s.env (·.env = s.env) (getTileBody n s) := by
  have hpro := (getTilePrologue_effect n s).env
  unfold getTileBody
  dsimp only
  split
  · exact .ok hpro
  · exact visitFrames_endsOrWaits hn hpro

/-! ### The commands -/

/-- A stop of GETTILE at level 0 is a stop of `get_tile` (42_facade.md R165). -/
theorem exec_getTile_fault {n : Nat} {s : State} {f : Fault} (hopen : OpenWith n s) (h : exec (.getTile 0) s = .fault f) :
    ∃ u, getTileBody n s = .error ⟨f, u⟩ := by
  rw [exec_getTile_eq hopen] at h
  obtain ⟨u, hu⟩ := conclude_eq_fault h
  unfold whenFits at hu
  split at hu
  · cases hu
  · obtain hbody | ⟨t, -, hdone⟩ := bind_eq_error hu
    · exact ⟨u, hbody⟩
    · cases hdone

/-- OPEN in Closed, its one request never answered. -/
theorem exec_openSource_silent {s : State} (h : s.reg.state = .closed) (hsilent : .catLookup s.reg.handle ∈ s.env.silent) :
    exec .openSource s = .fault (.portHang (.catLookup s.reg.handle)) := by
  have hwait := await_silent (s := { s with reg := { s.reg with state := .opening } }) hsilent
  rw [exec_eq, runInstr, runOpen, if_neg (not_not.2 h), catLookup, hwait]
  rfl

/-- OPEN stops only in Closed, and only for its one request (R161). -/
theorem exec_openSource_fault {s : State} {f : Fault} (h : exec .openSource s = .fault f) :
    s.reg.state = .closed ∧ .catLookup s.reg.handle ∈ s.env.silent := by
  by_cases hs : s.reg.state = .closed
  · refine ⟨hs, not_not.1 fun hans => ?_⟩
    rw [exec_openSource_answered hs hans] at h
    cases h
  · rw [exec_openSource_other hs] at h
    cases h

end Sys2Proof.Machine

open Sys2Proof Sys2Proof.Machine

/-- Settles O53: every visit of `get_tile` ends or waits, and OPEN has one request. -/
theorem onlySilenceStopsPorts : Obligations.OnlySilenceStopsPorts := by
  refine ⟨fun s n f hopen h => ?_, fun s hs hsilent => exec_openSource_silent hs hsilent, fun s f h => ?_⟩
  · obtain ⟨u, hu⟩ := exec_getTile_fault hopen h
    have hwaits := getTileBody_endsOrWaits hopen.bands_le s
    rw [hu] at hwaits
    cases hwaits with
    | waits hsilent => exact ⟨_, hsilent, rfl⟩
  · obtain ⟨hs, hsilent⟩ := exec_openSource_fault h
    rw [exec_openSource_silent hs hsilent] at h
    exact ⟨hsilent, (Host.Outcome.fault.inj h).symm⟩
end

section
/-! SUPPORT. The codes a command can leave in STATUS.ERR (60_exceptions.md R202), and what it leaves beside a code other than E_OK
(R204, R207). -/

namespace Sys2Proof.Machine

/-! ### The codes, check by check (R202, R206) -/

/-- The run, if it ends, leaves one of these codes in STATUS.ERR. -/
def EndsIn (codes : List ErrCode) (r : Run State) : Prop := ∀ t, r = .ok t → t.reg.err ∈ codes

section
variable {codes : List ErrCode}

theorem EndsIn.ok {t : State} (h : t.reg.err ∈ codes) : EndsIn codes (.ok t) := fun _ ht => Except.ok.inj ht ▸ h

/-- The part of a command that ends it chooses the code. -/
theorem EndsIn.bind {α : Type} {f : α → Run State} (h : ∀ a, EndsIn codes (f a)) (r : Run α) : EndsIn codes (r >>= f) := by
  intro t ht
  obtain ⟨a, -, ha⟩ := bind_eq_ok ht
  exact h a t ha

theorem EndsIn.whenOpen {s : State} {body : State → Run State} (hcode : .notOpen ∈ codes) (h : EndsIn codes (body s)) :
    EndsIn codes (whenOpen s body) := by
  intro t ht
  obtain rfl | hbody := whenOpen_eq_ok ht
  · exact hcode
  · exact h t hbody

theorem EndsIn.withBands {s : State} {body : Nat → Run State} (h : ∀ n, EndsIn codes (body n)) :
    EndsIn codes (withBands s body) := by
  intro t ht
  obtain ⟨n, -, hbody⟩ := withBands_eq_ok ht
  exact h n t hbody

theorem EndsIn.whenFits {n : Nat} {s : State} {body : State → Run State} (hcode : .tileCap ∈ codes)
    (h : EndsIn codes (body s)) : EndsIn codes (whenFits n s body) := by
  intro t ht
  obtain rfl | hbody := whenFits_eq_ok ht
  · exact hcode
  · exact h t hbody

/-- A command whose one check is the state check. -/
theorem EndsIn.whenOpen_done (s : State) (f : State → State) :
    EndsIn [.ok, .notOpen] (Machine.whenOpen s fun s => .ok (done (f s))) :=
  .whenOpen (by decide) (.ok (by simp))

/-- A body that can stop, and then success. -/
theorem EndsIn.bind_done (hcode : .ok ∈ codes) (r : Run State) : EndsIn codes (r >>= fun t => .ok (done t)) :=
  .bind (fun _ => .ok hcode) r
end

/-- The body of OPEN succeeds or ends with E_CONFIG (42_facade.md R161). -/
theorem settleOpen_err (r : CatAnswer) (s : State) :
    (settleOpen r s).reg.err = .ok ∨ (settleOpen r s).reg.err = .config := by
  obtain hset | ⟨p, -, hset⟩ := settleOpen_cases r s
  · exact .inr (hset ▸ rfl)
  · exact .inl (hset ▸ rfl)

theorem runOpen_endsIn (s : State) : EndsIn [.ok, .config, .badState] (runOpen s) := by
  unfold runOpen
  split
  · exact .ok (by simp)
  · refine .bind (fun p => .ok ?_) _
    obtain herr | herr := settleOpen_err p.2 p.1 <;> simp [herr]

theorem runGetTile_endsIn (level : Nat) (s : State) :
    EndsIn [.ok, .notOpen, .noOverview, .tileCap] (runGetTile level s) := by
  refine .whenOpen (by decide) ?_
  split
  · exact .ok (by simp)
  · exact .withBands fun n => .whenFits (by decide) (.bind_done (by decide) _)

theorem runDecode_endsIn (s : State) : EndsIn [.ok, .notOpen] (runDecode s) :=
  .whenOpen (by decide) (.withBands fun _ => .bind_done (by decide) _)

theorem runSrange_endsIn (s : State) : EndsIn [.ok, .notOpen, .badArg] (runSrange s) := by
  refine .whenOpen (by decide) ?_
  split
  case isTrue => exact .ok (by simp)
  case isFalse => exact .ok (by simp)

theorem runTfill_endsIn (s : State) : EndsIn [.ok, .notOpen, .tileCap] (runTfill s) :=
  .whenOpen (by decide) (.withBands fun _ => .whenFits (by decide) (.ok (by simp)))

theorem runBlkcopy_endsIn (s : State) : EndsIn [.ok, .notOpen, .badArg, .tileCap] (runBlkcopy s) := by
  refine .whenOpen (by decide) ?_
  split
  case isTrue => exact .withBands fun n => .whenFits (by decide) (.bind_done (by decide) _)
  case isFalse => exact .ok (by simp)

/-! ### What goes with a code (R204) -/

/-- A command that passes its checks succeeds, but for an OPEN whose product is Unknown. -/
theorem Completes.err {i : Instr} {s t : State} (h : Completes i s t) :
    t.reg.err = .ok ∨ (i = .openSource ∧ t.reg.err = .config) := by
  cases i with
  | openSource =>
    rw [show t = _ from h]
    exact (settleOpen_err _ _).imp_right fun herr => ⟨rfl, herr⟩
  | closeSource | getImageRect | frange =>
    rw [show t = _ from h]
    exact .inl rfl
  | getTile =>
    obtain ⟨n, u, -, -, rfl⟩ := h
    exact .inl rfl
  | decode | blkcopy =>
    obtain ⟨n, u, -, rfl⟩ := h
    exact .inl rfl
  | srange =>
    obtain ⟨-, rfl⟩ := h
    exact .inl rfl
  | tfill =>
    obtain ⟨n, rfl⟩ := h
    exact .inl rfl

/-! ### An idle step -/

theorem step_idle {s : State} (h : s.inbox = []) : step s = .next s := by
  simp only [step, h]

end Sys2Proof.Machine

open Sys2Proof Sys2Proof.Machine

/-- Settles O48: a check that fails has no other effect, and past the checks only OPEN can still end with an error. -/
theorem failingCommandChangesOnlyErr : Obligations.FailingCommandChangesOnlyErr := by
  intro i s t h herr
  obtain ⟨e, -, -, rfl⟩ | hdone := exec_ends h
  · exact .inl rfl
  · obtain hok | hconfig := hdone.err
    · exact absurd hok herr
    · exact .inr hconfig

/-- Settles O49: an illegal word has one code, and a command the codes of its checks and of its body. -/
theorem possibleErrorCodes : Obligations.PossibleErrorCodes := by
  refine ⟨fun w s t ⟨why, hdec⟩ h => ?_, fun i s t h => ?_⟩
  · rw [runWord_illegal hdec] at h
    cases h
    rfl
  · rw [exec_eq] at h
    have hrun : runInstr i s = .ok t := conclude_eq_next h
    cases i with
    | openSource => exact runOpen_endsIn s t hrun
    | closeSource => exact EndsIn.whenOpen_done s (fun s => { s with reg := closedRegs s.reg }) t hrun
    | getTile level => exact runGetTile_endsIn level s t hrun
    | getImageRect => exact EndsIn.whenOpen_done s (fun s => { s with reg := imageRectRegs s.reg }) t hrun
    | decode => exact runDecode_endsIn s t hrun
    | frange => exact EndsIn.whenOpen_done s frangeBody t hrun
    | srange => exact runSrange_endsIn s t hrun
    | tfill => exact runTfill_endsIn s t hrun
    | blkcopy => exact runBlkcopy_endsIn s t hrun

/-- Settles O6: with nothing to serve the step holds the state; serving a change of the environment is that change. -/
theorem idleAndEnvironmentSteps : Obligations.IdleAndEnvironmentSteps :=
  ⟨fun _ hidle => step_idle hidle, fun _ _ _ hinbox => step_serve hinbox⟩
end

section
/-! SUPPORT. Reset between and during commands (70_reset_and_hazards.md R230 to R232): the acts that had happened stay, the
registers take their reset values. -/

namespace Sys2Proof.Machine

/-! ### A command cut short -/

theorem serve_resetDuring {w : Word} {i : Instr} (h : decode w = .command i) (n : Nat) (s : State) :
    serve (.resetDuring w n) s = abandon n s (runInstr i s) := by
  rw [serve, serveResetDuring, h]

theorem serve_resetDuring_illegal {w : Word} {why : Illegal} (h : decode w = .illegal why) (n : Nat) (s : State) :
    serve (.resetDuring w n) s = .next (resetState s) := by
  rw [serve, serveResetDuring, h]

/-- The events to come are not part of what a command did. -/
theorem actsBetween_inbox (rest : List Event) (s t : State) :
    actsBetween { s with inbox := rest } t = actsBetween s t := rfl

/-- A command ended by reset after all its acts leaves the memories and the record as the acts made them (log entry 7). -/
theorem cutAfter_all {n : Nat} {s t : State} (h : Acts s t) (hn : (actsBetween s t).length ≤ n) :
    (cutAfter ((actsBetween s t).take n) s).mem = t.mem ∧ (cutAfter ((actsBetween s t).take n) s).hist = t.hist := by
  obtain ⟨hhist, hreplay, -, -⟩ := h.actsBetween_spec
  rw [List.take_of_length_le hn, cutAfter_spec]
  exact ⟨hreplay, hhist.symm⟩

/-- A command ended by reset before its first act leaves them as they were. -/
theorem cutAfter_none {n : Nat} (hn : n = 0) (acts : List Act) (s : State) :
    (cutAfter (acts.take n) s).mem = s.mem ∧ (cutAfter (acts.take n) s).hist = s.hist := by
  subst hn
  exact ⟨rfl, rfl⟩

/-! ### An OPEN that waits -/

theorem runOpen_silent {s : State} (h : s.reg.state = .closed) (hsilent : .catLookup s.reg.handle ∈ s.env.silent) :
    runOpen s = .error ⟨.portHang (.catLookup s.reg.handle),
      note (.catLookup s.reg.handle) { s with reg := { s.reg with state := .opening } }⟩ := by
  have hwait := await_silent (s := { s with reg := { s.reg with state := .opening } }) hsilent
  rw [runOpen, if_neg (not_not.2 h), catLookup, hwait]
  rfl

/-- The acts of an OPEN that waits for ever are its one request (R161, R189). -/
theorem actsBetween_of_runOpen_hang {r : PortReq} {s t : State} (h : runOpen s = .error ⟨.portHang r, t⟩) :
    actsBetween s t = [.request r] := by
  have hexec : exec .openSource s = .fault (.portHang r) := by rw [exec_eq, runInstr, h, conclude_error]
  obtain ⟨hclosed, hsilent⟩ := exec_openSource_fault hexec
  rw [runOpen_silent hclosed hsilent] at h
  cases h
  simp [actsBetween]

/-- Requests write nothing. -/
theorem replay_take_request (r : PortReq) (n : Nat) (m : Memory) : replay ([Act.request r].take n) m = m := by
  cases n with
  | zero => rfl
  | succ k => rw [List.take_succ_cons, List.take_nil, replay, replay]

end Sys2Proof.Machine

open Sys2Proof Sys2Proof.Machine

/-- Settles O8: a reset and a power-up are one event each. -/
theorem resetKeepsMemories : Obligations.ResetKeepsMemories := by
  refine fun s rest => ⟨fun hinbox => step_serve hinbox, fun hinbox => ?_⟩
  exact ⟨powerUpState { s with inbox := rest }, step_serve hinbox, rfl, read_empty⟩

/-- Settles O9: the three ways the command's run can go, each cut by reset. -/
theorem resetDuringCommand : Obligations.ResetDuringCommand := by
  intro s rest w n hinbox
  have hstep := step_serve hinbox
  refine ⟨fun ⟨why, hdec⟩ => ?_, fun i t hdec hexec => ?_, fun i a hdec hexec => ?_⟩
  · rw [hstep, serve_resetDuring_illegal hdec, resetState]
  · have hrun : runInstr i { s with inbox := rest } = .ok t := conclude_eq_next (exec_eq i _ ▸ hexec)
    rw [serve_resetDuring hdec, hrun, abandon_ok] at hstep
    have hall := fun hn => cutAfter_all (n := n) (exec_acts hexec) hn
    exact ⟨_, hstep, rfl, rfl, rfl, rfl, rfl, rfl, fun hn => cutAfter_none hn _ _, hall⟩
  · obtain ⟨t, hrun⟩ := conclude_eq_fault (exec_eq i _ ▸ hexec)
    rw [serve_resetDuring hdec, hrun, abandon_unwritten, actsBetween_inbox] at hstep
    refine ⟨t, hrun, fun hbefore => ?_, fun hafter => ?_⟩
    · rw [if_pos hbefore] at hstep
      exact ⟨_, hstep, rfl, rfl, rfl, rfl, rfl, rfl⟩
    · rwa [if_neg (Nat.not_le.2 hafter)] at hstep

/-- Settles O10: a command that waits is cut like one that ends, at whatever act reset comes. -/
theorem resetEndsHang : Obligations.ResetEndsHang := by
  intro s rest w n i r hinbox hdec hexec
  obtain ⟨t, hrun⟩ := conclude_eq_fault (exec_eq i _ ▸ hexec)
  have hstep := step_serve hinbox
  rw [serve_resetDuring hdec, hrun, abandon_hang] at hstep
  have hall := fun hn => cutAfter_all (n := n) ((runInstr_acts i { s with inbox := rest }).2 _ hrun) hn
  refine ⟨_, t, hstep, hrun, rfl, rfl, rfl, rfl, rfl, rfl, fun hn => cutAfter_none hn _ _, hall, ?_⟩
  rintro rfl
  have hrequest : actsBetween { s with inbox := rest } t = [.request r] := actsBetween_of_runOpen_hang hrun
  rw [actsBetween_inbox] at hrequest
  refine ⟨hrequest, ?_⟩
  change replay ((actsBetween s t).take n) s.mem = s.mem
  rw [hrequest, replay_take_request]
end

section
/-! SUPPORT. Which commands can touch TILE and which can issue a port request (43_external_ports.md R180, 70_reset_and_hazards.md
R234). -/

namespace Sys2Proof.Machine

theorem tile_not_inPlanes {n a : Nat} (hn : n ≤ 3) (ha : Space.tile.covers a = true) : ¬ InPlanes n a := by
  rintro ⟨-, hhi⟩
  have hlo := (covers_iff.1 ha).1
  simp only [base_tile, Config.tileBase] at hlo
  simp only [Config.blkBase] at hhi
  omega

/-- A DECODE that ends wrote only the planes of its product (40_decode.md R114). -/
theorem exec_decode_tile {s t : State} (h : exec .decode s = .next t) {a : Nat} (ha : Space.tile.covers a = true) :
    t.mem.read a = s.mem.read a := by
  rw [exec_eq] at h
  have hrun : runDecode s = .ok t := conclude_eq_next h
  obtain rfl | h := whenOpen_eq_ok hrun
  · rfl
  obtain ⟨n, hn, h⟩ := withBands_eq_ok h
  obtain ⟨u, hu, rfl⟩ := bind_done_eq_ok h
  exact ((decodeBody_quiet n s).1 u hu).1.read_other (tile_not_inPlanes (bands_le hn) ha)

theorem settleOpen_mem (r : CatAnswer) (s : State) : (settleOpen r s).mem = s.mem := by
  obtain hset | ⟨p, -, hset⟩ := settleOpen_cases r s
  · rw [hset, raiseErr_mem]
  · rw [hset, done_mem]

/-- Past its checks, a command that neither decodes nor writes TILE writes no byte at all (R161 to R166, R132, R136). -/
theorem Completes.mem_eq {i : Instr} {s t : State} (h : Completes i s t) (hdecode : i ≠ .decode)
    (htile : ∀ level, i ≠ .getTile level) (hfill : i ≠ .tfill) (hcopy : i ≠ .blkcopy) : t.mem = s.mem := by
  cases i with
  | openSource =>
    rw [show t = _ from h, settleOpen_mem, note_mem]
  | closeSource | getImageRect | frange =>
    rw [show t = _ from h]
    rfl
  | srange =>
    rw [h.2]
    rfl
  | decode => exact absurd rfl hdecode
  | getTile level => exact absurd rfl (htile level)
  | tfill => exact absurd rfl hfill
  | blkcopy => exact absurd rfl hcopy

/-- Past its checks, a command other than OPEN and GETTILE issues no request (R180). -/
theorem Completes.noPort {i : Instr} {s t : State} (h : Completes i s t) (htile : ∀ level, i ≠ .getTile level)
    (hopen : i ≠ .openSource) : Effect AnyOffset NoPort s t := by
  have hquiet {P : Nat → Prop} {u : State} (hu : Quiet P s u) : Effect AnyOffset NoPort s (done u) :=
    (hu.1.mono (fun _ _ => trivial) fun _ => id).trans (Effect.of_reg _ rfl)
  cases i with
  | openSource => exact absurd rfl hopen
  | getTile level => exact absurd rfl (htile level)
  | closeSource | getImageRect | frange => exact Effect.of_reg t.reg (show t = _ from h ▸ rfl)
  | srange => exact Effect.of_reg t.reg (h.2 ▸ rfl)
  | decode =>
    obtain ⟨n, u, hu, rfl⟩ := h
    exact hquiet ((decodeBody_quiet n s).1 u hu)
  | tfill =>
    obtain ⟨n, rfl⟩ := h
    exact hquiet (tfillBody_fills n s).sets.1.quiet
  | blkcopy =>
    obtain ⟨n, u, hu, rfl⟩ := h
    exact hquiet ((blkcopyBody_quiet n s).1 u hu)

end Sys2Proof.Machine

open Sys2Proof Sys2Proof.Machine

/-- Settles O51: a command error touches neither, and past the checks each command has its own bytes and requests. -/
theorem whoTouchesTileAndPorts : Obligations.WhoTouchesTileAndPorts := by
  refine fun i s t h => ⟨fun htile hfill hcopy a ha => ?_, fun htile hopen => ?_⟩
  · by_cases hdecode : i = .decode
    · subst hdecode
      exact exec_decode_tile h ha
    · obtain ⟨e, -, -, rfl⟩ | hdone := exec_ends h
      · rfl
      · rw [hdone.mem_eq hdecode htile hfill hcopy]
  · obtain ⟨e, -, -, rfl⟩ | hdone := exec_ends h
    · rfl
    · exact (hdone.noPort htile hopen).portTrace_eq
end

section
/-! SUPPORT. Which byte without a value stops a DECODE or a BLKCOPY (70_reset_and_hazards.md R232, 93_implementation_defined.md U1;
log entry 4): one that the memory as it stood at the start does not hold and that some pixel consumes. -/

namespace Sys2Proof.Machine

/-! ### Runs that stop only for a byte without a value -/

/-- The run, if it stops, stops for a byte without a value, at a host offset that satisfies `A`. -/
def StopsOnlyAt (A : Nat → Prop) (r : Run State) : Prop := ∀ e, r = .error e → ∃ a, e.why = .unwrittenByte a ∧ A a

theorem StopsOnlyAt.ok (A : Nat → Prop) (t : State) : StopsOnlyAt A (.ok t) := fun _ he => nomatch he

theorem StopsOnlyAt.read {A : Nat → Prop} {sp : Space} {o : Nat} {s : State} {f : Byte → Run State}
    (hnone : s.mem.read (sp.base + o) = none → A (sp.base + o))
    (h : ∀ v, s.mem.read (sp.base + o) = some v → StopsOnlyAt A (f v)) : StopsOnlyAt A (memRead sp o s >>= f) := by
  unfold memRead
  cases hv : s.mem.read (sp.base + o) with
  | some v => exact h v hv
  | none =>
    intro e he
    cases he
    exact ⟨_, rfl, hnone hv⟩

/-- A loop stops where one of its passes stops; `I` is what the passes need of a state and keep. -/
theorem StopsOnlyAt.loop {α : Type} {A : Nat → Prop} {I : State → Prop} {xs : List α} {body : α → State → Run State}
    (hkeep : ∀ x ∈ xs, ∀ u v, I u → body x u = .ok v → I v) (h : ∀ x ∈ xs, ∀ u, I u → StopsOnlyAt A (body x u)) {s : State}
    (hs : I s) : StopsOnlyAt A (forEach xs body s) := by
  intro e he
  obtain ⟨x, hx, u, hu, hstop⟩ := forEach_stop hs hkeep he
  exact h x hx u hu e hstop

/-- A body that did not end: the command stops where the body stops. -/
theorem StopsOnlyAt.fault {A : Nat → Prop} {r : Run State} (h : StopsOnlyAt A r) (hstop : ∀ t, r ≠ .ok t) :
    ∃ a, conclude (r >>= fun t => .ok (done t)) = .fault (.unwrittenByte a) ∧ A a := by
  cases r with
  | ok t => exact absurd rfl (hstop t)
  | error e =>
    obtain ⟨a, hwhy, ha⟩ := h e rfl
    exact ⟨a, congrArg Host.Outcome.fault hwhy, ha⟩

/-! ### The bytes the decode of a pixel consumes (40_decode.md R110, R114) -/

theorem triple_mem_decodeReads (m : Memory) (b i j : Nat) {k : Nat} (hk : k < 3) :
    Config.cbufBase + (tripleAt i j + k) ∈ decodeReads m b i j := by
  refine List.mem_append_left _ ?_
  simp only [tripleAt, List.mem_cons]
  omega

/-- With its triple in memory a pixel consumes its codebook byte, and then the palette byte that this one names. -/
theorem decodeReads_of_triple {m : Memory} {i j : Nat} {b0 b1 b2 : Byte} (h : Triple m i j b0 b1 b2) (b : Nat) {t c : Nat}
    (hi : i % 4 = 0) (hj : j % 8 = 0) (ht : t < 4) (hc : c < 8) :
    Config.cbBase + (t * 16384 + (groupCode b0 b1 b2 c * 4 + c % 4)) ∈ decodeReads m b (i + t) (j + c) ∧
      ∀ idx, m.read (Config.cbBase + (t * 16384 + (groupCode b0 b1 b2 c * 4 + c % 4))) = some idx →
        Config.palBase + (idx.toNat * 4 + b) ∈ decodeReads m b (i + t) (j + c) := by
  have hp : ((i + t) / 4 * 32 + (j + c) / 8) * 3 = tripleAt i j := by
    simp only [tripleAt]
    omega
  have hrow : (i + t) % 4 = t := by omega
  have hcol : (j + c) % 4 = c % 4 := by omega
  have hcode : groupCode b0 b1 b2 (j + c) = groupCode b0 b1 b2 c := by
    rw [groupCode, groupCode, show (j + c) % 8 = c % 8 by omega]
  simp only [decodeReads, hp, h.at0, Nat.add_assoc, h.at1, h.at2, hrow, hcol, hcode]
  refine ⟨List.mem_append_right _ List.mem_cons_self, fun idx hidx => ?_⟩
  rw [hidx]
  exact List.mem_append_right _ (List.mem_cons_of_mem _ List.mem_cons_self)

/-- A byte without a value that the decode of some pixel consumes. -/
def Missing (m : Memory) (n a : Nat) : Prop :=
  m.read a = none ∧ ∃ b < n, ∃ r < 256, ∃ c < 256, a ∈ decodeReads m b r c

/-! ### Where a decode stops -/

/-- A read of the decode, of a byte outside the planes that some pixel consumes. -/
theorem StopsOnlyAt.decodeRead {m : Memory} {n b r c : Nat} {sp : Space} {o : Nat} {s : State} {f : Byte → Run State}
    (hs : Decoding m n s) (hout : ¬ InPlanes n (sp.base + o)) (hb : b < n) (hr : r < 256) (hc : c < 256)
    (hmem : sp.base + o ∈ decodeReads m b r c)
    (h : ∀ v, m.read (sp.base + o) = some v → StopsOnlyAt (Missing m n) (f v)) :
    StopsOnlyAt (Missing m n) (memRead sp o s >>= f) := by
  refine .read (fun hnone => ?_) (fun v hv => h v ?_)
  · exact ⟨hs _ hout ▸ hnone, b, hb, r, hr, c, hc, hmem⟩
  · exact hs _ hout ▸ hv

theorem decodeBand_stops {m : Memory} {n i j t e b : Nat} {idx1 idx2 : Byte} {s : State} (hs : Decoding m n s) (hn : n ≤ 3)
    (hb : b < n) (hr : i + t < 256) (hc : j + e + 4 < 256)
    (h1 : Config.palBase + (idx1.toNat * 4 + b) ∈ decodeReads m b (i + t) (j + e))
    (h2 : Config.palBase + (idx2.toNat * 4 + b) ∈ decodeReads m b (i + t) (j + (e + 4))) :
    StopsOnlyAt (Missing m n) (decodeBand i j t e idx1 idx2 b s) := by
  refine .decodeRead hs (palette_not_inPlanes idx1 (by omega)) hb hr (by omega) h1 fun v1 _ => ?_
  have hwritten : Decoding m n (memWrite .blk (blkOffset b (i + t) (j + e)) v1 s) :=
    hs.of_leads (Leads.ok (memWrite_quiet .blk _ v1 s (inPlanes_at hb hr (by omega)))) rfl
  exact .decodeRead hwritten (palette_not_inPlanes idx2 (by omega)) hb hr (by omega) h2 fun v2 _ => .ok _ _

theorem decodePlace_stops {m : Memory} {n i j t e : Nat} {b0 b1 b2 : Byte} {s : State} (hs : Decoding m n s)
    (hn : 0 < n ∧ n ≤ 3) (htr : Triple m i j b0 b1 b2) (hi : i % 4 = 0 ∧ i < 256) (hj : j % 8 = 0 ∧ j < 256) (ht : t < 4)
    (he : e < 4) : StopsOnlyAt (Missing m n) (decodePlace n i j (code1 b0 b1) (code2 b1 b2) t e s) := by
  have hr : i + t < 256 := by omega
  have hleft (b : Nat) := decodeReads_of_triple htr b hi.1 hj.1 ht (c := e) (by omega)
  have hright (b : Nat) := decodeReads_of_triple htr b hi.1 hj.1 ht (c := e + 4) (by omega)
  have hcode1 : groupCode b0 b1 b2 e = (code1 b0 b1).toNat := by
    rw [groupCode, if_pos (by omega), code1_toNat]
  have hcode2 : groupCode b0 b1 b2 (e + 4) = (code2 b1 b2).toNat := by
    rw [groupCode, if_neg (by omega), code2_toNat]
  simp only [hcode1, hcode2, Nat.add_mod_right, Nat.mod_eq_of_lt he] at hleft hright
  refine .decodeRead hs (codebook_not_inPlanes _ ht he) hn.1 hr (by omega) (hleft 0).1 fun idx1 h1 => ?_
  refine .decodeRead hs (codebook_not_inPlanes _ ht he) hn.1 hr (by omega) (hright 0).1 fun idx2 h2 => ?_
  refine .loop (fun b hb u v hu hv => ?_) (fun b hb u hu => ?_) hs
  · exact hu.of_leads (decodeBand_quiet idx1 idx2 u (List.mem_range.1 hb) hr (by omega)) hv
  · exact decodeBand_stops hu hn.2 (List.mem_range.1 hb) hr (by omega) ((hleft b).2 idx1 h1) ((hright b).2 idx2 h2)

theorem decodeTriple_stops {m : Memory} {n i j : Nat} {s : State} (hs : Decoding m n s) (hn : 0 < n ∧ n ≤ 3)
    (hi : i % 4 = 0 ∧ i < 256) (hj : j % 8 = 0 ∧ j < 256) : StopsOnlyAt (Missing m n) (decodeTriple n i j s) := by
  have hread (k : Nat) (hk : k < 3) := triple_mem_decodeReads m 0 i j hk
  have hout (k : Nat) (hk : k < 3) := triple_not_inPlanes (n := n) hi.2 hj.2 hk
  refine .decodeRead hs (hout 0 (by omega)) hn.1 hi.2 hj.2 (hread 0 (by omega)) fun b0 h0 => ?_
  refine .decodeRead hs (hout 1 (by omega)) hn.1 hi.2 hj.2 (hread 1 (by omega)) fun b1 h1 => ?_
  refine .decodeRead hs (hout 2 (by omega)) hn.1 hi.2 hj.2 (hread 2 (by omega)) fun b2 h2 => ?_
  have htr : Triple m i j b0 b1 b2 := ⟨h0, h1, h2⟩
  refine .loop (fun t ht u v hu hv => ?_) (fun t ht u hu => ?_) hs
  · have := mem_upTo.1 ht
    exact hu.of_leads (decodeRow_quiet _ _ u (by omega) (by omega)) hv
  · have ht := mem_upTo.1 ht
    refine .loop (fun e he w z hw hz => ?_) (fun e he w hw => ?_) hu
    · have := mem_upTo.1 he
      exact hw.of_leads (decodePlace_quiet _ _ w (by omega) (by omega)) hz
    · have := mem_upTo.1 he
      exact decodePlace_stops hw hn htr hi hj (by omega) (by omega)

/-- `decode()` stops only for a byte that has no value and that some pixel consumes (R110, R232). -/
theorem decodeBody_stops {n : Nat} (hn : 0 < n ∧ n ≤ 3) (s : State) :
    StopsOnlyAt (Missing s.mem n) (decodeBody n s) := by
  refine .loop (I := Decoding s.mem n) (fun i hi u v hu hv => ?_) (fun i hi u hu => ?_) (fun _ _ => rfl)
  · refine hu.of_leads (Leads.loop (Quiet.refl _) Quiet.trans (fun j hj w => ?_) u) hv
    exact decodeTriple_quiet w (mem_rowBands.1 hi) (mem_colBands.1 hj)
  · refine .loop (fun j hj w z hw hz => ?_) (fun j hj w hw => ?_) hu
    · exact hw.of_leads (decodeTriple_quiet w (mem_rowBands.1 hi) (mem_colBands.1 hj)) hz
    · exact decodeTriple_stops hw hn (mem_rowBands.1 hi) (mem_colBands.1 hj)

/-! ### What a copy reads (41_compositor.md R139) -/

/-- A state of a copy that began with memory `m`: below TILE its memory still is `m`. -/
def Copying (m : Memory) (s : State) : Prop := ∀ a < Config.tileBase, s.mem.read a = m.read a

theorem Copying.of_leads {m : Memory} {s u : State} {r : Run State} (hs : Copying m s)
    (h : Leads (Quiet (Config.tileBase ≤ ·)) s r) (hu : r = .ok u) : Copying m u :=
  fun a ha => ((h.1 u hu).1.read_other (Nat.not_le.2 ha)).trans (hs a ha)

theorem copyByte_quiet_below (g : Regs) (x y : Int) (b : Nat) (s : State) :
    Leads (Quiet (Config.tileBase ≤ ·)) s (copyByte g x y b s) :=
  Leads.read (Quiet.refl _) fun _ _ => Leads.ok (memWrite_quiet _ _ _ _ (Nat.le_add_right ..))

theorem copyPixel_quiet_below (n : Nat) (g : Regs) (x y : Int) (s : State) :
    Leads (Quiet (Config.tileBase ≤ ·)) s (forEach (List.range n) (copyByte g x y) s) :=
  Leads.loop (Quiet.refl _) Quiet.trans (fun b _ u => copyByte_quiet_below g x y b u) s

theorem copyRow_quiet_below (n : Nat) (g : Regs) (xs : List Int) (y : Int) (s : State) :
    Leads (Quiet (Config.tileBase ≤ ·)) s (forEach xs (fun x => forEach (List.range n) (copyByte g x y)) s) :=
  Leads.loop (Quiet.refl _) Quiet.trans (fun x _ u => copyPixel_quiet_below n g x y u) s

/-- The source of a copied byte, by its row and column in the block (R141). -/
theorem Copied.copyFrom_eq {g : Regs} {x y : Int} (h : Copied g x y) (b : Nat) :
    copyFrom g b x y = b * 65536 + (y - blockTop g).toNat * 256 + (x - blockLeft g).toNat := by
  obtain ⟨hl, -, ht, -⟩ := h.bounds
  exact Machine.copyFrom_eq b hl ht

/-- The source of a copied byte lies below TILE (R137, R139). -/
theorem Copied.source_lt {g : Regs} {x y : Int} {n b : Nat} (h : Copied g x y) (hb : b < n) (hn : n ≤ 3) :
    Config.blkBase + copyFrom g b x y < Config.tileBase := by
  obtain ⟨hl, hr, ht, hd, -⟩ := h.bounds
  rw [h.copyFrom_eq b]
  simp only [Config.blkBase, Config.tileBase]
  omega

/-- A copy that ended had a value in every byte it consumes: with `blkcopyBody_fills`, it ends exactly then (R139, R232). -/
theorem blkcopyBody_found {n b : Nat} {x y : Int} {s t : State} (hn : n ≤ 3) (h : blkcopyBody n s = .ok t) (hb : b < n)
    (hxy : Copied s.reg x y) : (s.mem.read (Config.blkBase + copyFrom s.reg b x y)).isSome = true := by
  rw [blkcopyBody, if_neg hxy.clip_nonempty] at h
  have hsource := hxy.source_lt hb hn
  obtain ⟨hx0, hx1, hy0, hy1⟩ := hxy
  have hstart : Copying s.mem s := fun _ _ => rfl
  obtain ⟨u, u', hu, hrow⟩ := forEach_passes hstart
    (fun y _ v w hv hw => hv.of_leads (copyRow_quiet_below n s.reg _ y v) hw) h y (mem_upToInt.2 ⟨hy0, hy1⟩)
  obtain ⟨v, v', hv, hpixel⟩ := forEach_passes hu
    (fun x _ w z hw hz => hw.of_leads (copyPixel_quiet_below n s.reg x y w) hz) hrow x (mem_upToInt.2 ⟨hx0, hx1⟩)
  obtain ⟨w, w', hw, hbyte⟩ := forEach_passes hv
    (fun b _ z z' hz hz' => hz.of_leads (copyByte_quiet_below s.reg x y b z) hz') hpixel b (List.mem_range.2 hb)
  obtain ⟨byte, hread, -⟩ := bind_eq_ok hbyte
  rw [← hw _ hsource]
  exact Option.isSome_iff_exists.2 ⟨byte, memRead_eq_ok hread⟩

/-- A byte of BLK without a value that the copy consumes. -/
def MissingSource (m : Memory) (n : Nat) (g : Regs) (a : Nat) : Prop :=
  m.read a = none ∧ ∃ b < n, ∃ x y, Copied g x y ∧ a = Config.blkBase + copyFrom g b x y

/-- `blkcopy()` stops only for a byte that has no value and is the source of a copied one (R139, R232). -/
theorem blkcopyBody_stops {n : Nat} (hn : n ≤ 3) (s : State) :
    StopsOnlyAt (MissingSource s.mem n s.reg) (blkcopyBody n s) := by
  unfold blkcopyBody
  split
  case isTrue => exact .ok _ s
  case isFalse =>
    refine .loop (I := Copying s.mem) (fun y _ u v hu hv => hu.of_leads (copyRow_quiet_below n s.reg _ y u) hv)
      (fun y hy u hu => ?_) (fun _ _ => rfl)
    refine .loop (fun x _ v w hv hw => hv.of_leads (copyPixel_quiet_below n s.reg x y v) hw) (fun x hx v hv => ?_) hu
    refine .loop (fun b _ w z hw hz => hw.of_leads (copyByte_quiet_below s.reg x y b w) hz) (fun b hb w hw => ?_) hv
    have hb := List.mem_range.1 hb
    have hxy : Copied s.reg x y :=
      ⟨(mem_upToInt.1 hx).1, (mem_upToInt.1 hx).2, (mem_upToInt.1 hy).1, (mem_upToInt.1 hy).2⟩
    refine .read (fun hnone => ?_) (fun _ _ => .ok _ _)
    exact ⟨hw _ (hxy.source_lt hb hn) ▸ hnone, b, hb, x, y, hxy, rfl⟩

end Sys2Proof.Machine

open Sys2Proof Sys2Proof.Machine

/-- Settles O20: the body cannot end, since it would have decoded every pixel, and stops only for a byte it consumes. -/
theorem decodeStopsOnUnwrittenByte : Obligations.DecodeStopsOnUnwrittenByte := by
  rintro s n hopen ⟨b, hb, r, hr, c, hc, hnone⟩
  have hstop (t : State) : decodeBody n s ≠ .ok t := fun ht => by
    have hvalue := decodable_of_ended hopen.bands_le.2 ht b hb r hr c hc
    rw [hnone] at hvalue
    cases hvalue
  rw [exec_decode_eq hopen]
  exact (decodeBody_stops hopen.bands_le s).fault hstop

/-- Settles O34: the body cannot end, since it would have copied every pixel, and stops only for a byte it copies. -/
theorem blkcopyStopsOnUnwrittenByte : Obligations.BlkcopyStopsOnUnwrittenByte := by
  rintro s n hopen hfits hfr hfc hsr hsc fr fc sr sc source ⟨b, hb, x, y, hreq, hcell, hnone⟩
  have hn := hopen.bands_le.2
  have hsource (b : Nat) {x y : Int} (hxy : Copied s.reg x y) :
      Config.blkBase + copyFrom s.reg b x y = source b x y := congrArg (Config.blkBase + ·) (hxy.copyFrom_eq b)
  have hstop (t : State) : blkcopyBody n s ≠ .ok t := fun ht => by
    have hxy : Copied s.reg x y := copied_iff_inCell.2 ⟨hreq, hcell⟩
    have hvalue := blkcopyBody_found hn ht hb hxy
    rw [hsource b hxy, hnone] at hvalue
    cases hvalue
  obtain ⟨a, hfault, hmissing, b', hb', x', y', hxy, rfl⟩ := (blkcopyBody_stops hn s).fault hstop
  refine ⟨_, ?_, hmissing, b', hb', x', y', ?_⟩
  · rw [exec_blkcopy_eq hopen (frameInGrid_iff.2 ⟨hfr, hfc⟩) (subInFrame_iff.2 ⟨hsr, hsc⟩), whenFits_fit hfits]
    exact hfault
  · obtain ⟨hreq', hcell'⟩ := copied_iff_inCell.1 hxy
    exact ⟨hreq', hcell', hsource b' hxy⟩
end
